-- ==== Sys2Proof/Word.lean ====
section
/-! DEFINITION. The words of the core: a command word is one 32-bit value (30_encoding.md R90), the sink takes
bytes (00_scope.md R15), the read port is addressed by 12 bits and answers 32 (20_memory.md R66). -/

namespace Sys2Proof

/-- A byte, as the sink and the byte-wide spaces hold it (00_scope.md R15). -/
abbrev Byte := BitVec 8

/-- A command word or a read-port word: one 32-bit value (30_encoding.md R90, 20_memory.md R64). -/
abbrev Word := BitVec 32

/-- A private memory space (20_memory.md R61, R62): element index and element, indices strictly rising.
An index that is not listed holds no value. A byte-wide space is a list of `Host.Cell`. -/
abbrev Space (α : Type) := List (Nat × α)

/-- Eight integers, what one one-dimensional DCT pass takes and returns (43_dct.md R214). -/
structure Row8 where
  x0 : Int
  x1 : Int
  x2 : Int
  x3 : Int
  x4 : Int
  x5 : Int
  x6 : Int
  x7 : Int
  deriving DecidableEq, Repr

end Sys2Proof
end

