-- ==== Sys2Proof/Syntax.lean ====
section
/-! DEFINITION. The commands of the core: one constructor per row of the opcode map (30_encoding.md R99). -/

namespace Sys2Proof

/-- The class operand `cls`: 0 luminance, 1 chrominance (30_encoding.md R97). -/
inductive Cls where
  | luminance
  | chrominance
  deriving DecidableEq, Repr

/-- The 18 commands of 30_encoding.md R99. Counts and indices are numbers, byte and code operands are bits;
`Instr.wellFormed` says which numbers the fields of R92 to R97 can hold. -/
inductive Instr where
  | ctlReset
  | bpWrite (code : BitVec 16) (n : Nat)
  | bpFlush
  | pkWrite (byte : Byte)
  | pkFlush
  | lzwStart (initBits : Nat)
  | lzwSym (byte : Byte)
  | lzwEnd
  | qtBuild (quality : Nat)
  | dctFwd
  | dctQuant (cls : Cls)
  | hufBuild
  | hufStart
  | hufBlock (comp : Nat) (cls : Cls)
  | jbpWrite (code : BitVec 16) (n : Nat)
  | jbpFlush
  | bufLds (idx : Nat) (val : Byte)
  | bufLdq (idx : Nat) (val : BitVec 16)
  deriving DecidableEq, Repr

end Sys2Proof
end

