-- ==== Sys2Proof/WellFormed.lean ====
section
/-! DEFINITION. Which operand values a command word can carry: each numeric operand fits its field
(30_encoding.md R93 to R98). The range checks of execution (`initBits` in 3..9 and so on) are not here:
a word with an out-of-range operand is a legal encoding (30_encoding.md R98). -/

namespace Sys2Proof

/-- Every numeric operand fits the field that carries it: `n` 5 bits (R94), `imm8` 8 bits (R93), `idx` 6 bits
(R95, R96), `comp` 2 bits (R97). -/
def Instr.wellFormed (i : Instr) : Bool :=
  match i with
  | .ctlReset => true
  | .bpWrite _ n => decide (n < 32)
  | .bpFlush => true
  | .pkWrite _ => true
  | .pkFlush => true
  | .lzwStart initBits => decide (initBits < 256)
  | .lzwSym _ => true
  | .lzwEnd => true
  | .qtBuild quality => decide (quality < 256)
  | .dctFwd => true
  | .dctQuant _ => true
  | .hufBuild => true
  | .hufStart => true
  | .hufBlock comp _ => decide (comp < 4)
  | .jbpWrite _ n => decide (n < 32)
  | .jbpFlush => true
  | .bufLds idx _ => decide (idx < 64)
  | .bufLdq idx _ => decide (idx < 64)

end Sys2Proof
end

