-- ==== Sys2Proof/Decode.lean ====
section
/-! DEFINITION. The decoder and the encoder of the command word, written from 30_encoding.md R91 to R100. -/

namespace Sys2Proof

/-- Why a word is not one of the 18 commands (30_encoding.md R100). All three raise ILLEGAL_COMMAND. -/
inductive Reject where
  /-- Units 9 to 15 are reserved (R91). -/
  | reservedUnit
  /-- The unit does not define this `op` (R100). -/
  | undefinedOp
  /-- A must-be-zero bit is set (R92 to R97). -/
  | reservedBits
  deriving DecidableEq, Repr

/-- `w[hi:lo]`, the unsigned value of bits `hi` down to `lo` (00_scope.md R12). -/
def field (w : Word) (hi lo : Nat) : Nat := w.toNat / 2 ^ lo % 2 ^ (hi + 1 - lo)

/-- `cls = w[0]`: 0 luminance, 1 chrominance (R97). -/
def clsOfNat (b : Nat) : Cls := if b = 0 then .luminance else .chrominance

/-- The number that encodes a class (R97); also the `c` of QTAB and DIVT (10_state.md R31). -/
def Cls.toNat (c : Cls) : Nat :=
  match c with
  | .luminance => 0
  | .chrominance => 1

/-- Accept `i` when the must-be-zero bits `w[23:lo]` are zero (R92 to R97). -/
def whenZero (w : Word) (lo : Nat) (i : Instr) : Except Reject Instr :=
  if field w 23 lo = 0 then .ok i else .error .reservedBits

/-- The decoder: unit `w[31:28]`, operation `w[27:24]`, then the format's fields (R91 to R99). -/
def decode (w : Word) : Except Reject Instr :=
  match field w 31 28, field w 27 24 with
  | 0, 1 => whenZero w 0 .ctlReset
  | 1, 0 => whenZero w 21 (.bpWrite (BitVec.ofNat 16 (field w 15 0)) (field w 20 16))
  | 1, 1 => whenZero w 0 .bpFlush
  | 2, 0 => whenZero w 8 (.pkWrite (BitVec.ofNat 8 (field w 7 0)))
  | 2, 1 => whenZero w 0 .pkFlush
  | 3, 0 => whenZero w 8 (.lzwStart (field w 7 0))
  | 3, 1 => whenZero w 8 (.lzwSym (BitVec.ofNat 8 (field w 7 0)))
  | 3, 2 => whenZero w 0 .lzwEnd
  | 4, 0 => whenZero w 8 (.qtBuild (field w 7 0))
  | 5, 0 => whenZero w 0 .dctFwd
  | 5, 1 => whenZero w 1 (.dctQuant (clsOfNat (field w 0 0)))
  | 6, 0 => whenZero w 0 .hufBuild
  | 6, 1 => whenZero w 0 .hufStart
  | 6, 2 => whenZero w 3 (.hufBlock (field w 2 1) (clsOfNat (field w 0 0)))
  | 7, 0 => whenZero w 21 (.jbpWrite (BitVec.ofNat 16 (field w 15 0)) (field w 20 16))
  | 7, 1 => whenZero w 0 .jbpFlush
  | 8, 0 => whenZero w 14 (.bufLds (field w 13 8) (BitVec.ofNat 8 (field w 7 0)))
  | 8, 1 => whenZero w 22 (.bufLdq (field w 21 16) (BitVec.ofNat 16 (field w 15 0)))
  | unit, _ => .error (if 9 ≤ unit then .reservedUnit else .undefinedOp)

/-- A command word from its unit, operation and the value of `w[23:0]` (R91). -/
def assembleWord (unit op operands : Nat) : Word :=
  BitVec.ofNat 32 (unit * 2 ^ 28 + op * 2 ^ 24 + operands % 2 ^ 24)

/-- The encoder: the one word of each command, from the formats of R92 to R97 and the map of R99. -/
def encode (i : Instr) : Word :=
  match i with
  | .ctlReset => assembleWord 0 1 0
  | .bpWrite code n => assembleWord 1 0 (n * 2 ^ 16 + code.toNat)
  | .bpFlush => assembleWord 1 1 0
  | .pkWrite byte => assembleWord 2 0 byte.toNat
  | .pkFlush => assembleWord 2 1 0
  | .lzwStart initBits => assembleWord 3 0 initBits
  | .lzwSym byte => assembleWord 3 1 byte.toNat
  | .lzwEnd => assembleWord 3 2 0
  | .qtBuild quality => assembleWord 4 0 quality
  | .dctFwd => assembleWord 5 0 0
  | .dctQuant cls => assembleWord 5 1 cls.toNat
  | .hufBuild => assembleWord 6 0 0
  | .hufStart => assembleWord 6 1 0
  | .hufBlock comp cls => assembleWord 6 2 (comp * 2 + cls.toNat)
  | .jbpWrite code n => assembleWord 7 0 (n * 2 ^ 16 + code.toNat)
  | .jbpFlush => assembleWord 7 1 0
  | .bufLds idx val => assembleWord 8 0 (idx * 2 ^ 8 + val.toNat)
  | .bufLdq idx val => assembleWord 8 1 (idx * 2 ^ 16 + val.toNat)

/-- A row of the opcode map: `(w AND mask) == pattern` (R99). -/
structure OpcodeRow where
  mnemonic : String
  pattern : Word
  mask : Word
  deriving DecidableEq, Repr

/-- The opcode map as the spec prints it (R99). -/
def opcodeMap : List OpcodeRow :=
  [ ⟨"CTL.RESET", 0x01000000, 0xFFFFFFFF⟩, ⟨"BP.WRITE", 0x10000000, 0xFFE00000⟩,
    ⟨"BP.FLUSH", 0x11000000, 0xFFFFFFFF⟩, ⟨"PK.WRITE", 0x20000000, 0xFFFFFF00⟩,
    ⟨"PK.FLUSH", 0x21000000, 0xFFFFFFFF⟩, ⟨"LZW.START", 0x30000000, 0xFFFFFF00⟩,
    ⟨"LZW.SYM", 0x31000000, 0xFFFFFF00⟩, ⟨"LZW.END", 0x32000000, 0xFFFFFFFF⟩,
    ⟨"QT.BUILD", 0x40000000, 0xFFFFFF00⟩, ⟨"DCT.FWD", 0x50000000, 0xFFFFFFFF⟩,
    ⟨"DCT.QUANT", 0x51000000, 0xFFFFFFFE⟩, ⟨"HUF.BUILD", 0x60000000, 0xFFFFFFFF⟩,
    ⟨"HUF.START", 0x61000000, 0xFFFFFFFF⟩, ⟨"HUF.BLOCK", 0x62000000, 0xFFFFFFF8⟩,
    ⟨"JBP.WRITE", 0x70000000, 0xFFE00000⟩, ⟨"JBP.FLUSH", 0x71000000, 0xFFFFFFFF⟩,
    ⟨"BUF.LDS", 0x80000000, 0xFFFFC000⟩, ⟨"BUF.LDQ", 0x81000000, 0xFFC00000⟩ ]

/-- The word matches the row (R99). -/
def OpcodeRow.hits (r : OpcodeRow) (w : Word) : Bool := w &&& r.mask == r.pattern

/-- The mnemonic of a command, as R99 prints it. -/
def Instr.mnemonic (i : Instr) : String :=
  match i with
  | .ctlReset => "CTL.RESET"
  | .bpWrite _ _ => "BP.WRITE"
  | .bpFlush => "BP.FLUSH"
  | .pkWrite _ => "PK.WRITE"
  | .pkFlush => "PK.FLUSH"
  | .lzwStart _ => "LZW.START"
  | .lzwSym _ => "LZW.SYM"
  | .lzwEnd => "LZW.END"
  | .qtBuild _ => "QT.BUILD"
  | .dctFwd => "DCT.FWD"
  | .dctQuant _ => "DCT.QUANT"
  | .hufBuild => "HUF.BUILD"
  | .hufStart => "HUF.START"
  | .hufBlock _ _ => "HUF.BLOCK"
  | .jbpWrite _ _ => "JBP.WRITE"
  | .jbpFlush => "JBP.FLUSH"
  | .bufLds _ _ => "BUF.LDS"
  | .bufLdq _ _ => "BUF.LDQ"

/-- The decoder as the host asks for it: the low `nbits` bits of `w` on the 32-bit command port, every bit above
them zero (a command is one word, R90, so there is nothing after it). -/
def decodeTableWord (nbits w : Nat) : Option Instr :=
  match decode (BitVec.ofNat 32 (w % 2 ^ nbits)) with
  | .ok i => some i
  | .error _ => none

end Sys2Proof
end

