-- ==== Sys2Proof/Machine/Rom.lean ====
section
/-! DEFINITION. The parameters and read-only tables (00_scope.md R9, R10; 10_state.md R35), at the values the spec
prints (log entry 15). -/

namespace Sys2Proof.Machine

/-- HASH_SIZE (R9). -/
def hashSize : Nat := 5003
/-- MAX_CODES (R9). -/
def maxCodes : Nat := 4096
/-- MAX_BITS (R9). -/
def maxBits : Nat := 12
/-- KEY_SHIFT (R9). -/
def keyShift : Nat := 12
/-- HASH_SHIFT (R9). -/
def hashShift : Nat := 4
/-- PK_BLOCK_MAX (R9, R141). -/
def pkBlockMax : Nat := 255
/-- INIT_BITS_MIN and INIT_BITS_MAX (R10). -/
def initBitsMin : Nat := 3
def initBitsMax : Nat := 9
/-- WRITE_N_MIN and WRITE_N_MAX (R10). -/
def writeNMin : Nat := 1
def writeNMax : Nat := 16
/-- Q_MIN and Q_MAX (R9). -/
def qMin : Nat := 1
def qMax : Nat := 100
/-- QUANT_MIN and QUANT_MAX (R9). -/
def quantMin : Nat := 1
def quantMax : Nat := 255
/-- N_COMP (R10). -/
def nComp : Nat := 3
/-- ZRL (R9). -/
def zrl : Nat := 0xF0
/-- EOB (R9). -/
def eob : Nat := 0x00

/-- Element `i` of a table of numbers; the tables below are always read inside their length. -/
def tableAt (t : List Nat) (i : Nat) : Nat := t.getD i 0

/-- `BASEQ[0]`, luminance (42_quant.md R192). -/
def baseqLuminance : List Nat :=
  [ 16, 11, 10, 16, 24, 40, 51, 61,
    12, 12, 14, 19, 26, 58, 60, 55,
    14, 13, 16, 24, 40, 57, 69, 56,
    14, 17, 22, 29, 51, 87, 80, 62,
    18, 22, 37, 56, 68, 109, 103, 77,
    24, 35, 55, 64, 81, 104, 113, 92,
    49, 64, 78, 87, 103, 121, 120, 101,
    72, 92, 95, 98, 112, 100, 103, 99 ]

/-- `BASEQ[1]`, chrominance (R192). -/
def baseqChrominance : List Nat :=
  [ 17, 18, 24, 47, 99, 99, 99, 99,
    18, 21, 26, 66, 99, 99, 99, 99,
    24, 26, 56, 99, 99, 99, 99, 99,
    47, 66, 99, 99, 99, 99, 99, 99,
    99, 99, 99, 99, 99, 99, 99, 99,
    99, 99, 99, 99, 99, 99, 99, 99,
    99, 99, 99, 99, 99, 99, 99, 99,
    99, 99, 99, 99, 99, 99, 99, 99 ]

/-- `BASEQ[c][i]` (R192). -/
def baseq (c i : Nat) : Nat := tableAt (if c = 0 then baseqLuminance else baseqChrominance) i

/-- `SFI[k]`, the AAN scale factors times 10^9 (43_dct.md R212). -/
def sfi (k : Nat) : Nat :=
  tableAt [1000000000, 1387039845, 1306562965, 1175875602, 1000000000, 785694958, 541196100, 275899379] k

/-- `E9` and the four AAN multipliers times 10^9 (R213). -/
def e9 : Int := 1000000000
def k707 : Int := 707106781
def k382 : Int := 382683433
def k541 : Int := 541196100
def k1306 : Int := 1306562965

/-- `HBITS[t]`: how many codes have length 1, 2, ..., 16 (44_huffman.md R241). -/
def hbits (t : Nat) : List Nat :=
  match t with
  | 0 => [0, 1, 5, 1, 1, 1, 1, 1, 1, 0, 0, 0, 0, 0, 0, 0]
  | 1 => [0, 2, 1, 3, 3, 2, 4, 3, 5, 5, 4, 4, 0, 0, 1, 125]
  | 2 => [0, 3, 1, 1, 1, 1, 1, 1, 1, 1, 1, 0, 0, 0, 0, 0]
  | _ => [0, 2, 1, 2, 4, 4, 3, 4, 7, 5, 4, 4, 0, 1, 2, 119]

/-- `HVAL[0]` and `HVAL[2]` (R242). -/
def hvalDc : List Nat := [0, 1, 2, 3, 4, 5, 6, 7, 8, 9, 10, 11]

/-- `HVAL[1]`, luminance AC (R243). -/
def hvalLuminanceAc : List Nat :=
  [ 0x01, 0x02, 0x03, 0x00, 0x04, 0x11, 0x05, 0x12, 0x21, 0x31, 0x41, 0x06, 0x13, 0x51, 0x61, 0x07,
    0x22, 0x71, 0x14, 0x32, 0x81, 0x91, 0xA1, 0x08, 0x23, 0x42, 0xB1, 0xC1, 0x15, 0x52, 0xD1, 0xF0,
    0x24, 0x33, 0x62, 0x72, 0x82, 0x09, 0x0A, 0x16, 0x17, 0x18, 0x19, 0x1A, 0x25, 0x26, 0x27, 0x28,
    0x29, 0x2A, 0x34, 0x35, 0x36, 0x37, 0x38, 0x39, 0x3A, 0x43, 0x44, 0x45, 0x46, 0x47, 0x48, 0x49,
    0x4A, 0x53, 0x54, 0x55, 0x56, 0x57, 0x58, 0x59, 0x5A, 0x63, 0x64, 0x65, 0x66, 0x67, 0x68, 0x69 ] ++
  [ 0x6A, 0x73, 0x74, 0x75, 0x76, 0x77, 0x78, 0x79, 0x7A, 0x83, 0x84, 0x85, 0x86, 0x87, 0x88, 0x89,
    0x8A, 0x92, 0x93, 0x94, 0x95, 0x96, 0x97, 0x98, 0x99, 0x9A, 0xA2, 0xA3, 0xA4, 0xA5, 0xA6, 0xA7,
    0xA8, 0xA9, 0xAA, 0xB2, 0xB3, 0xB4, 0xB5, 0xB6, 0xB7, 0xB8, 0xB9, 0xBA, 0xC2, 0xC3, 0xC4, 0xC5,
    0xC6, 0xC7, 0xC8, 0xC9, 0xCA, 0xD2, 0xD3, 0xD4, 0xD5, 0xD6, 0xD7, 0xD8, 0xD9, 0xDA, 0xE1, 0xE2,
    0xE3, 0xE4, 0xE5, 0xE6, 0xE7, 0xE8, 0xE9, 0xEA, 0xF1, 0xF2, 0xF3, 0xF4, 0xF5, 0xF6, 0xF7, 0xF8,
    0xF9, 0xFA ]

/-- `HVAL[3]`, chrominance AC (R244). -/
def hvalChrominanceAc : List Nat :=
  [ 0x00, 0x01, 0x02, 0x03, 0x11, 0x04, 0x05, 0x21, 0x31, 0x06, 0x12, 0x41, 0x51, 0x07, 0x61, 0x71,
    0x13, 0x22, 0x32, 0x81, 0x08, 0x14, 0x42, 0x91, 0xA1, 0xB1, 0xC1, 0x09, 0x23, 0x33, 0x52, 0xF0,
    0x15, 0x62, 0x72, 0xD1, 0x0A, 0x16, 0x24, 0x34, 0xE1, 0x25, 0xF1, 0x17, 0x18, 0x19, 0x1A, 0x26,
    0x27, 0x28, 0x29, 0x2A, 0x35, 0x36, 0x37, 0x38, 0x39, 0x3A, 0x43, 0x44, 0x45, 0x46, 0x47, 0x48,
    0x49, 0x4A, 0x53, 0x54, 0x55, 0x56, 0x57, 0x58, 0x59, 0x5A, 0x63, 0x64, 0x65, 0x66, 0x67, 0x68 ] ++
  [ 0x69, 0x6A, 0x73, 0x74, 0x75, 0x76, 0x77, 0x78, 0x79, 0x7A, 0x82, 0x83, 0x84, 0x85, 0x86, 0x87,
    0x88, 0x89, 0x8A, 0x92, 0x93, 0x94, 0x95, 0x96, 0x97, 0x98, 0x99, 0x9A, 0xA2, 0xA3, 0xA4, 0xA5,
    0xA6, 0xA7, 0xA8, 0xA9, 0xAA, 0xB2, 0xB3, 0xB4, 0xB5, 0xB6, 0xB7, 0xB8, 0xB9, 0xBA, 0xC2, 0xC3,
    0xC4, 0xC5, 0xC6, 0xC7, 0xC8, 0xC9, 0xCA, 0xD2, 0xD3, 0xD4, 0xD5, 0xD6, 0xD7, 0xD8, 0xD9, 0xDA,
    0xE2, 0xE3, 0xE4, 0xE5, 0xE6, 0xE7, 0xE8, 0xE9, 0xEA, 0xF2, 0xF3, 0xF4, 0xF5, 0xF6, 0xF7, 0xF8,
    0xF9, 0xFA ]

/-- `HVAL[t]` (R242 to R244). -/
def hval (t : Nat) : List Nat :=
  match t with
  | 1 => hvalLuminanceAc
  | 3 => hvalChrominanceAc
  | _ => hvalDc

/-- `ZZ`, the zig-zag order (44_huffman.md R246). -/
def zigzag : List Nat :=
  [ 0, 1, 8, 16, 9, 2, 3, 10,
    17, 24, 32, 25, 18, 11, 4, 5,
    12, 19, 26, 33, 40, 48, 41, 34,
    27, 20, 13, 6, 7, 14, 21, 28,
    35, 42, 49, 56, 57, 50, 43, 36,
    29, 22, 15, 23, 30, 37, 44, 51,
    58, 59, 52, 45, 38, 31, 39, 46,
    53, 60, 61, 54, 47, 55, 62, 63 ]

/-- `ZZ[k]` (R246). -/
def zz (k : Nat) : Nat := tableAt zigzag k

end Sys2Proof.Machine
end

