-- ==== Sys2Proof/Machine/State.lean ====
section
/-! DEFINITION. The state of the core (10_state.md R20), its reset values (R39), the causes of its faults
(60_exceptions.md R301) and the reasons a step can stop. -/

namespace Sys2Proof.Machine

/-- The causes of the core's own faults (R301). Raising one is a NEXT state (trap entry, R312), never a stop.
ALLOC_FAILURE, code 2, is reserved and raised by nothing (R310), so it is not a cause. -/
inductive Cause where
  | sinkError
  | invalidParameter
  | invalidSymbol
  | emptyStream
  | coeffRange
  | illegalCommand
  | illegalSequence
  deriving DecidableEq, Repr

/-- Why the machine makes no further progress. None of these is a fault of the core (R301). -/
inductive Fault where
  /-- Raised by `sinkWrite` when the sink never takes the offered byte: the command never completes
  (20_memory.md R81, 93_implementation_defined.md U6 `stuck`). It ends a step only when the host never pulses the
  reset pin either (R340, `pinEndsWait`). Safe. -/
  | sinkNeverReady
  /-- Raised by a read of an element that holds no value. R308 and R39 say no command can make one. Safe. -/
  | noValue
  /-- Raised by an access to an index outside the space. R61 and R69 say no command can make one. Safe. -/
  | noSuchElement
  /-- Raised by `probe` when it has tried all 5003 slots: the loop of R157 would not end. R165 says no stream
  can reach this. Safe. -/
  | probeUnending
  deriving DecidableEq, Repr

/-- Why a step gives an instruction no meaning. -/
inductive Refusal where
  /-- Reserved for an arm of `exec` that has no meaning yet; no arm uses it. Safe. -/
  | notModelled (mnemonic : String)
  deriving DecidableEq, Repr

/-- What the host does: it offers a command word on the command port (R79, R90), or it pulses the reset pin, which it
may do at any time (70_reset_and_hazards.md R340; log entry 11). -/
inductive HostEvent where
  /-- A command word, which waits on the port until the core takes it. -/
  | command (w : Word)
  /-- The pin, between two commands, or while a byte that the core offers is not taken. -/
  | resetPin
  /-- A command word, and the pin before that command has run to its end (R340, U14). -/
  | resetDuring (w : Word)
  deriving DecidableEq, Repr

/-- What the sink does with one offered byte: take it, refuse it (20_memory.md R77), or never become ready for as long
as it is offered (R81), which the reset pin alone can end (R340). -/
inductive SinkReply where
  | accept
  | refuse
  | never
  deriving DecidableEq, Repr

/-- A valid slot of HTAB (10_state.md R27). `valid = 0` is the slot not being listed in the space. -/
structure HSlot where
  key : BitVec 20
  code : BitVec 12
  deriving DecidableEq, Repr

/-- An element of HUFT (10_state.md R33): `len = 0` means the symbol has no code. -/
structure HCode where
  len : BitVec 5
  code : BitVec 16
  deriving DecidableEq, Repr

/-- FAULTED, FAULT_CODE, FAULT_CMD (R24). -/
structure FaultRegs where
  faulted : Bool
  code : BitVec 4
  cmd : Word
  deriving DecidableEq, Repr

/-- The LZW registers (R25). -/
structure LzwRegs where
  active : Bool
  havePrefix : Bool
  initBits : BitVec 4
  nBits : BitVec 4
  freeEnt : BitVec 13
  prefixCode : BitVec 12
  deriving DecidableEq, Repr

/-- A bit accumulator with its count: BP_ACC and BP_CNT (R29), JBP_ACC and JBP_CNT (R34). -/
structure BitAcc where
  acc : BitVec 32
  cnt : BitVec 6
  deriving DecidableEq, Repr

/-- QT_VALID, QUALITY, QSCALE (R31). -/
structure QtRegs where
  valid : Bool
  quality : BitVec 7
  scale : BitVec 13
  deriving DecidableEq, Repr

/-- SB_WR, CB_VALID, QB_WR (R32). -/
structure DctRegs where
  sbWr : BitVec 64
  cbValid : Bool
  qbWr : BitVec 64
  deriving DecidableEq, Repr

/-- HUF_VALID and the DC predictors PRED[0..2] (R33). -/
structure HufRegs where
  valid : Bool
  pred0 : BitVec 16
  pred1 : BitVec 16
  pred2 : BitVec 16
  deriving DecidableEq, Repr

/-- The eight private RAM spaces (20_memory.md R62). QTAB and DIVT are indexed `64*c + i`, HUFT `256*t + s`. -/
structure Memory where
  htab : Space HSlot
  pkbuf : Space Byte
  sb : Space Byte
  cb : Space (BitVec 80)
  qb : Space (BitVec 16)
  qtab : Space Byte
  divt : Space (BitVec 72)
  huft : Space HCode
  deriving DecidableEq, Repr

/-- No element of any space holds a value: the spaces right after reset (R39). -/
def Memory.blank : Memory :=
  { htab := [], pkbuf := [], sb := [], cb := [], qb := [], qtab := [], divt := [], huft := [] }

/-- The state of the core and what surrounds it: the units' registers (R20), the spaces, the bytes the sink has
accepted (R36), the inputs still to come (R41), and the counter of free values (log entry 9). -/
structure State where
  fault : FaultRegs
  lzw : LzwRegs
  bp : BitAcc
  pkCnt : BitVec 8
  qt : QtRegs
  dct : DctRegs
  huf : HufRegs
  jbp : BitAcc
  mem : Memory
  out : List Byte
  events : List HostEvent
  sink : List SinkReply
  freeCount : Nat
  deriving DecidableEq, Repr

def State.withFault (s : State) (v : FaultRegs) : State := { s with fault := v }
def State.withLzw (s : State) (v : LzwRegs) : State := { s with lzw := v }
def State.withBp (s : State) (v : BitAcc) : State := { s with bp := v }
def State.withPkCnt (s : State) (v : BitVec 8) : State := { s with pkCnt := v }
def State.withQt (s : State) (v : QtRegs) : State := { s with qt := v }
def State.withDct (s : State) (v : DctRegs) : State := { s with dct := v }
def State.withHuf (s : State) (v : HufRegs) : State := { s with huf := v }
def State.withJbp (s : State) (v : BitAcc) : State := { s with jbp := v }
def State.withMem (s : State) (v : Memory) : State := { s with mem := v }
def State.withOut (s : State) (v : List Byte) : State := { s with out := v }
def State.withEvents (s : State) (v : List HostEvent) : State := { s with events := v }
def State.withSink (s : State) (v : List SinkReply) : State := { s with sink := v }
def State.withFreeCount (s : State) (v : Nat) : State := { s with freeCount := v }

def Memory.withHtab (m : Memory) (v : Space HSlot) : Memory := { m with htab := v }
def Memory.withPkbuf (m : Memory) (v : Space Byte) : Memory := { m with pkbuf := v }
def Memory.withSb (m : Memory) (v : Space Byte) : Memory := { m with sb := v }
def Memory.withCb (m : Memory) (v : Space (BitVec 80)) : Memory := { m with cb := v }
def Memory.withQb (m : Memory) (v : Space (BitVec 16)) : Memory := { m with qb := v }
def Memory.withQtab (m : Memory) (v : Space Byte) : Memory := { m with qtab := v }
def Memory.withDivt (m : Memory) (v : Space (BitVec 72)) : Memory := { m with divt := v }
def Memory.withHuft (m : Memory) (v : Space HCode) : Memory := { m with huft := v }

/-- The state right after the hardware reset (R39, R341): flags, counts, predictors and fault registers 0, OUT
empty, no element of a space holding a value. INIT_BITS, N_BITS, FREE_ENT, PREFIX, QUALITY and QSCALE are
unspecified in R39: DESIGN CHOICE zero, unsafe (log entry 6). No event is offered and the sink accepts every byte
(log entries 1 and 2). -/
def State.reset : State :=
  { fault := { faulted := false, code := 0, cmd := 0 }
    lzw := { active := false, havePrefix := false, initBits := 0, nBits := 0, freeEnt := 0, prefixCode := 0 }
    bp := { acc := 0, cnt := 0 }
    pkCnt := 0
    qt := { valid := false, quality := 0, scale := 0 }
    dct := { sbWr := 0, cbValid := false, qbWr := 0 }
    huf := { valid := false, pred0 := 0, pred1 := 0, pred2 := 0 }
    jbp := { acc := 0, cnt := 0 }
    mem := Memory.blank
    out := []
    events := []
    sink := []
    freeCount := 0 }

end Sys2Proof.Machine
end

