-- ==== Sys2Proof/Machine/Operands.lean ====
section
/-! DEFINITION. The operators of 00_scope.md R13 and what the commands make of their operands: the range checks
(R98, R304), the hash of a (symbol, code) pair (41_lzw.md R157), the magnitude category and bits of a coefficient
(44_huffman.md R255), the predictor a component selects (R257). -/

namespace Sys2Proof.Machine

/-- `low(v, n)`: `v mod 2^n`, for a negative `v` too (R13). -/
def low (v : Int) (n : Nat) : Nat := (v % 2 ^ n).toNat

/-- `bitlen(m)`: 0 for 0, otherwise `floor(log2 m) + 1` (R13). -/
def bitlen (m : Nat) : Nat := if m = 0 then 0 else Nat.log2 m + 1

/-- `clamp(v, lo, hi)` (R13). -/
def clamp (v lo hi : Nat) : Nat := if v < lo then lo else if hi < v then hi else v

/-- `1 <= n <= 16`, the width check of BP.WRITE and JBP.WRITE (R136, R253). -/
def widthOk (n : Nat) : Bool := decide (writeNMin ≤ n ∧ n ≤ writeNMax)

/-- `3 <= initBits <= 9` (R153). -/
def initBitsOk (b : Nat) : Bool := decide (initBitsMin ≤ b ∧ b ≤ initBitsMax)

/-- `1 <= q <= 100` (R194). -/
def qualityOk (q : Nat) : Bool := decide (qMin ≤ q ∧ q ≤ qMax)

/-- `comp <= 2` (R257). -/
def compOk (comp : Nat) : Bool := decide (comp < nComp)

/-- The hash key `(suffix << 12) + code` (R156). -/
def hashKey (c : Byte) (p : BitVec 12) : Nat := c.toNat * 2 ^ keyShift + p.toNat

/-- The primary hash `(suffix << 4) XOR code` (R157). -/
def primaryHash (c : Byte) (p : BitVec 12) : Nat := (c.toNat * 2 ^ hashShift) ^^^ p.toNat

/-- The displacement: 1 for the primary hash 0, else `5003 - i` (R157). -/
def displacement (i : Nat) : Nat := if i = 0 then 1 else hashSize - i

/-- `Cat(v) = bitlen(abs(v))` (R255). -/
def cat (v : Int) : Nat := bitlen v.natAbs

/-- `Mag(v, nb)`: `low(v, nb)` if `v > 0`, `low(v - 1, nb)` if `v < 0` (R255). -/
def mag (v : Int) (nb : Nat) : Nat := if 0 < v then low v nb else low (v - 1) nb

/-- `PRED[comp]` for a component that passed `compOk` (10_state.md R33). -/
def predOf (h : HufRegs) (comp : Nat) : BitVec 16 :=
  match comp with
  | 0 => h.pred0
  | 1 => h.pred1
  | _ => h.pred2

/-- `PRED[comp] <- v` (R257). -/
def setPred (h : HufRegs) (comp : Nat) (v : BitVec 16) : HufRegs :=
  match comp with
  | 0 => { h with pred0 := v }
  | 1 => { h with pred1 := v }
  | _ => { h with pred2 := v }

/-- The DC table `2*cls` and the AC table `2*cls + 1` (R257). -/
def dcTable (cls : Cls) : Nat := 2 * cls.toNat
def acTable (cls : Cls) : Nat := 2 * cls.toNat + 1

end Sys2Proof.Machine
end

