-- ==== Sys2Proof/Config.lean ====
section
/-! DEFINITION. The free values: what the spec leaves unspecified and lets the machine go on with
(93_implementation_defined.md U1, U2, U3). None has a body: nothing in Lean can evaluate one or prove which value it
is. Each is applied to the counter `State.freeCount`, so that two occurrences are not tied together
(log entry 9). -/

namespace Sys2Proof

/-- The register or flag a free value stands for. -/
inductive Element where
  | lzwActive | lzwHavePrefix | initBits | nBits | freeEnt | prefixCode
  | bpAcc | bpCnt | pkCnt
  | qtValid | quality | qscale
  | sbWr | cbValid | qbWr
  | hufValid | pred0 | pred1 | pred2
  | jbpAcc | jbpCnt
  deriving DecidableEq, Repr

/-- The value of a `w`-bit register that the spec calls unspecified (R39, R312 (4)), at the `n`-th such event. -/
opaque Config.freeBits (w : Nat) (n : Nat) (e : Element) : BitVec w

/-- The value of a flag that the spec calls unspecified after a fault (R312 (4)), at the `n`-th such event. -/
opaque Config.freeFlag (n : Nat) (e : Element) : Bool

/-- What the read port answers for an element that holds no value (20_memory.md R66, U3). -/
opaque Config.freeRead (n : Nat) (addr : BitVec 12) : Word

end Sys2Proof
end

