-- ==== Sys2Proof/Machine/Space.lean ====
section
/-! DEFINITION. `MemRead` and `MemWrite` over a private memory space (20_memory.md R61), the whole-space fill that the
table-building commands make, and the canonical form of a space (log entry 7). -/

namespace Sys2Proof.Machine

/-- `MemRead(S, i)` (R61): the element at `i`, or nothing where no element holds a value. -/
def spaceRead {α : Type} (m : Space α) (i : Nat) : Option α :=
  match m with
  | [] => none
  | (j, v) :: rest => if i = j then some v else spaceRead rest i

/-- The list with element `i` set to `v`, its indices kept rising. -/
def spaceWrite {α : Type} (m : Space α) (i : Nat) (v : α) : Space α :=
  match m with
  | [] => [(i, v)]
  | (j, u) :: rest =>
    if i < j then (i, v) :: (j, u) :: rest
    else if i = j then (i, v) :: rest
    else (j, u) :: spaceWrite rest i v

/-- `MemWrite(S, i, v)` on a space of `size` elements (R61): nothing when `i` is outside the space. -/
def spaceStore {α : Type} (size : Nat) (m : Space α) (i : Nat) (v : α) : Option (Space α) :=
  if i < size then some (spaceWrite m i v) else none

/-- The space whose elements `0 .. n-1` are all written, element `i` with `f i`. -/
def spaceFill {α : Type} (n : Nat) (f : Nat → α) : Space α := (List.range n).map (fun i => (i, f i))

/-- Every element `0 .. n-1` holds a value. -/
def spaceFull {α : Type} (n : Nat) (m : Space α) : Bool := (List.range n).all (fun i => (spaceRead m i).isSome)

/-- Elements `i .. i+n-1` in order, when all of them hold a value. -/
def spaceSlice {α : Type} (m : Space α) (i n : Nat) : Option (List α) :=
  match n with
  | 0 => some []
  | k + 1 =>
    match spaceRead m i, spaceSlice m (i + 1) k with
    | some v, some vs => some (v :: vs)
    | _, _ => none

/-- The indices listed are at least `lo`, strictly rising and below `size`. -/
def spaceRising {α : Type} (lo size : Nat) (m : Space α) : Bool :=
  match m with
  | [] => true
  | (i, _) :: rest => decide (lo ≤ i) && decide (i < size) && spaceRising (i + 1) size rest

/-- The canonical form of a space of `size` elements. An unlisted index holds no value, so no entry can equal what
an unlisted index reads as. -/
def spaceWf {α : Type} (size : Nat) (m : Space α) : Bool := spaceRising 0 size m

/-- The canonical form of all eight spaces, with their sizes (20_memory.md R62). -/
def Memory.wf (m : Memory) : Bool :=
  spaceWf 5003 m.htab && spaceWf 255 m.pkbuf && spaceWf 64 m.sb && spaceWf 64 m.cb && spaceWf 64 m.qb &&
    spaceWf 128 m.qtab && spaceWf 128 m.divt && spaceWf 1024 m.huft

end Sys2Proof.Machine
end

