-- ==== Sys2Proof/Machine/Ops.lean ====
section
/-! DEFINITION. The shared operations: the output primitive (00_scope.md R15), raising a fault (R16) and taking it
(60_exceptions.md R312), and the two resets that are the only way back (R315, R340). -/

namespace Sys2Proof.Machine

/-- How a procedure ends (R16, R17): it runs to its end, it raises a fault of the core, or the machine stops. -/
inductive Res where
  | done (s : State)
  | raised (c : Cause) (s : State)
  | stopped (f : Fault)
  deriving DecidableEq, Repr

/-- Go on with `k` when `r` ran to its end; "`raise` executes nothing after it" (R16). -/
def Res.andThen (r : Res) (k : State → Res) : Res :=
  match r with
  | .done s => k s
  | .raised c s => .raised c s
  | .stopped f => .stopped f

/-- `require p else raise c` (R16). -/
def require (p : Bool) (c : Cause) (k : State → Res) (s : State) : Res := if p then k s else .raised c s

/-- Go on only when the elements about to be read hold values; R308 promises that they do. -/
def withValues (p : Bool) (k : State → Res) (s : State) : Res := if p then k s else .stopped .noValue

/-- `SinkWrite(b)` (R15, R77, R81). With no answer listed the sink accepts (log entry 2). A byte never taken stops the
command here; what the reset pin makes of that is `pinEndsWait` and `takeAbandoned`. -/
def sinkWrite (b : Byte) (s : State) : Res :=
  match s.sink with
  | [] => .done (s.withOut (s.out ++ [b]))
  | .accept :: rest => .done ((s.withOut (s.out ++ [b])).withSink rest)
  | .refuse :: rest => .raised .sinkError (s.withSink rest)
  | .never :: _ => .stopped .sinkNeverReady

/-- Consecutive `SinkWrite` calls, in order (R76). -/
def sinkWrites (bs : List Byte) (s : State) : Res :=
  match bs with
  | [] => .done s
  | b :: rest => (sinkWrite b s).andThen (sinkWrites rest)

/-- FAULT_CODE of a cause (R301). -/
def Cause.toCode (c : Cause) : BitVec 4 :=
  match c with
  | .sinkError => 1
  | .invalidParameter => 3
  | .invalidSymbol => 4
  | .emptyStream => 5
  | .coeffRange => 6
  | .illegalCommand => 7
  | .illegalSequence => 8

/-- Trap entry (R312): the fault registers record the cause and the command word, OUT keeps every accepted byte,
every other state element becomes unspecified (free values for registers, no value for spaces; log entry 4). -/
def trapEntry (c : Cause) (w : Word) (s : State) : State :=
  let n := s.freeCount
  { fault := { faulted := true, code := c.toCode, cmd := w }
    lzw := { active := Config.freeFlag n .lzwActive
             havePrefix := Config.freeFlag n .lzwHavePrefix
             initBits := Config.freeBits 4 n .initBits
             nBits := Config.freeBits 4 n .nBits
             freeEnt := Config.freeBits 13 n .freeEnt
             prefixCode := Config.freeBits 12 n .prefixCode }
    bp := { acc := Config.freeBits 32 n .bpAcc, cnt := Config.freeBits 6 n .bpCnt }
    pkCnt := Config.freeBits 8 n .pkCnt
    qt := { valid := Config.freeFlag n .qtValid
            quality := Config.freeBits 7 n .quality
            scale := Config.freeBits 13 n .qscale }
    dct := { sbWr := Config.freeBits 64 n .sbWr
             cbValid := Config.freeFlag n .cbValid
             qbWr := Config.freeBits 64 n .qbWr }
    huf := { valid := Config.freeFlag n .hufValid
             pred0 := Config.freeBits 16 n .pred0
             pred1 := Config.freeBits 16 n .pred1
             pred2 := Config.freeBits 16 n .pred2 }
    jbp := { acc := Config.freeBits 32 n .jbpAcc, cnt := Config.freeBits 6 n .jbpCnt }
    mem := Memory.blank
    out := s.out
    events := s.events
    sink := s.sink
    freeCount := n + 1 }

/-- Every state element at its value in the reset table R39, OUT unchanged: CTL.RESET (R281). The registers that the
table calls unspecified take free values, the spaces hold no value (log entry 5). -/
def resetElements (s : State) : State :=
  let n := s.freeCount
  { fault := { faulted := false, code := 0, cmd := 0 }
    lzw := { active := false
             havePrefix := false
             initBits := Config.freeBits 4 n .initBits
             nBits := Config.freeBits 4 n .nBits
             freeEnt := Config.freeBits 13 n .freeEnt
             prefixCode := Config.freeBits 12 n .prefixCode }
    bp := { acc := 0, cnt := 0 }
    pkCnt := 0
    qt := { valid := false
            quality := Config.freeBits 7 n .quality
            scale := Config.freeBits 13 n .qscale }
    dct := { sbWr := 0, cbValid := false, qbWr := 0 }
    huf := { valid := false, pred0 := 0, pred1 := 0, pred2 := 0 }
    jbp := { acc := 0, cnt := 0 }
    mem := Memory.blank
    out := s.out
    events := s.events
    sink := s.sink
    freeCount := n + 1 }

/-- The reset pin (R340): as CTL.RESET, and the model's OUT starts anew (R342). -/
def hardReset (s : State) : State := (resetElements s).withOut []

/-- How the command word `w` ends: its last state, trap entry for a fault it raised, or a stop of the machine. -/
def conclude (w : Word) (r : Res) : Host.Outcome State Fault Refusal :=
  match r with
  | .done s => .next s
  | .raised c s => .next (trapEntry c w s)
  | .stopped f => .fault f

end Sys2Proof.Machine
end

