-- ==== Sys2Proof/Machine/BitPacker.lean ====
section
/-! DEFINITION. The packet writer PK and the GIF bit-packer BP (40_bitpacker_packetizer.md). -/

namespace Sys2Proof.Machine

/-- `PKFlush()` (R135): one sub-block, the length byte and the payload in arrival order; nothing for PK_CNT = 0. -/
def pkFlush (s : State) : Res :=
  if s.pkCnt = 0 then .done s
  else
    match spaceSlice s.mem.pkbuf 0 s.pkCnt.toNat with
    | none => .stopped .noValue
    | some payload => (sinkWrites (s.pkCnt :: payload) s).andThen (fun t => .done (t.withPkCnt 0))

/-- `PKWrite(b)` (R134): append, and flush when the buffer reaches 255. -/
def pkWrite (b : Byte) (s : State) : Res :=
  match spaceStore pkBlockMax s.mem.pkbuf s.pkCnt.toNat b with
  | none => .stopped .noSuchElement
  | some m =>
    let t := (s.withMem (s.mem.withPkbuf m)).withPkCnt (BitVec.ofNat 8 (s.pkCnt.toNat + 1))
    if t.pkCnt.toNat = pkBlockMax then pkFlush t else .done t

/-- `k` rounds of the loop of `BPWrite` (R131): the oldest eight bits leave first. -/
def bpDrain (k : Nat) (s : State) : Res :=
  match k with
  | 0 => .done s
  | j + 1 =>
    (pkWrite (BitVec.ofNat 8 s.bp.acc.toNat) s).andThen (fun t =>
      bpDrain j (t.withBp { acc := BitVec.ofNat 32 (t.bp.acc.toNat / 2 ^ 8)
                            cnt := BitVec.ofNat 6 (t.bp.cnt.toNat - 8) }))

/-- `BPWrite(code, n)` (R131): the new bits go above the pending ones; `while BP_CNT >= 8` runs `BP_CNT / 8` times,
since nothing else changes BP_CNT meanwhile. -/
def bpWrite (code n : Nat) (s : State) : Res :=
  let t := s.withBp { acc := BitVec.ofNat 32 (s.bp.acc.toNat ||| (low code n * 2 ^ s.bp.cnt.toNat))
                      cnt := BitVec.ofNat 6 (s.bp.cnt.toNat + n) }
  bpDrain (t.bp.cnt.toNat / 8) t

/-- `BPFlush()` (R132): the partial last byte, zero-padded, then the packet writer's trailing block. -/
def bpFlush (s : State) : Res :=
  if s.bp.cnt = 0 then pkFlush s
  else
    (pkWrite (BitVec.ofNat 8 s.bp.acc.toNat) s).andThen (fun t => pkFlush (t.withBp { acc := 0, cnt := 0 }))

/-- BP and PK belong to the LZW stream while one is open (R130). -/
def unlessStream (k : State → Res) (s : State) : Res := require (!s.lzw.active) .illegalSequence k s

/-- BP.WRITE code, n (R136). -/
def execBpWrite (code : BitVec 16) (n : Nat) (s : State) : Host.Outcome State Fault Refusal :=
  conclude (encode (.bpWrite code n))
    (unlessStream (require (widthOk n) .invalidParameter (bpWrite code.toNat n)) s)

/-- BP.FLUSH (R137). -/
def execBpFlush (s : State) : Host.Outcome State Fault Refusal :=
  conclude (encode .bpFlush) (unlessStream bpFlush s)

/-- PK.WRITE byte (R138). -/
def execPkWrite (byte : Byte) (s : State) : Host.Outcome State Fault Refusal :=
  conclude (encode (.pkWrite byte)) (unlessStream (pkWrite byte) s)

/-- PK.FLUSH (R139). -/
def execPkFlush (s : State) : Host.Outcome State Fault Refusal :=
  conclude (encode .pkFlush) (unlessStream pkFlush s)

end Sys2Proof.Machine
end

