-- ==== Sys2Proof/Machine/Flags.lean ====
section
/-! DEFINITION. The flags of 10_state.md R23 and the registers derived from others: the written-masks SB_WR and QB_WR,
CLEAR_CODE, EOF_CODE, FIRST_CODE (R25) and LZW_PHASE (41_lzw.md R151). The core has no arithmetic condition codes. -/

namespace Sys2Proof.Machine

/-- Every bit of a written-mask is 1: the check of DCT.FWD and HUF.BLOCK (R216, R257). -/
def allOnes (m : BitVec 64) : Bool := m == BitVec.allOnes 64

/-- `MASK[idx] <- 1` (R283, R284). -/
def markWritten (m : BitVec 64) (idx : Nat) : BitVec 64 := m ||| BitVec.twoPow 64 idx

/-- `CLEAR_CODE = 1 << (INIT_BITS - 1)` (R25). For INIT_BITS = 0, which the register can hold only while the spec calls
it unspecified, R25 gives no value: 1 there, hence EOF_CODE 2 and FIRST_CODE 3. DESIGN CHOICE, unsafe
(log entry 19). -/
def clearCode (l : LzwRegs) : Nat := 2 ^ (l.initBits.toNat - 1)

/-- `EOF_CODE = CLEAR_CODE + 1` (R25). -/
def eofCode (l : LzwRegs) : Nat := clearCode l + 1

/-- `FIRST_CODE = EOF_CODE + 1` (R25). -/
def firstCode (l : LzwRegs) : Nat := eofCode l + 1

/-- The logical states of the LZW unit (R151). -/
inductive LzwPhase where
  | idle
  | cleared
  | accumulating
  | full
  deriving DecidableEq, Repr

/-- `LZW_PHASE` as a function of state (R151). With LZW_ACTIVE = 1 and FREE_ENT below FIRST_CODE or above 4096, which
the registers can hold only while a fault leaves them unspecified, no row of R151 applies: ACCUMULATING there. DESIGN
CHOICE, unsafe (log entry 20). -/
def lzwPhase (l : LzwRegs) : LzwPhase :=
  if l.active then
    if l.freeEnt.toNat = firstCode l then .cleared
    else if l.freeEnt.toNat = maxCodes then .full
    else .accumulating
  else .idle

/-- The encoding of `LZW_PHASE` (R37). -/
def LzwPhase.toNat (p : LzwPhase) : Nat :=
  match p with
  | .idle => 0
  | .cleared => 1
  | .accumulating => 2
  | .full => 3

end Sys2Proof.Machine
end

