-- ==== Sys2Proof/Machine/Control.lean ====
section
/-! DEFINITION. Control and buffer loads (45_control_and_buffers.md). -/

namespace Sys2Proof.Machine

/-- `SB[idx] <- val; SB_WR[idx] <- 1` (R283). -/
def loadSample (idx : Nat) (val : Byte) (s : State) : Res :=
  match spaceStore 64 s.mem.sb idx val with
  | none => .stopped .noSuchElement
  | some m => .done ((s.withMem (s.mem.withSb m)).withDct { s.dct with sbWr := markWritten s.dct.sbWr idx })

/-- `QB[idx] <- val; QB_WR[idx] <- 1` (R284). The element is the 16-bit two's-complement form of `val`. -/
def loadCoeff (idx : Nat) (val : BitVec 16) (s : State) : Res :=
  match spaceStore 64 s.mem.qb idx val with
  | none => .stopped .noSuchElement
  | some m => .done ((s.withMem (s.mem.withQb m)).withDct { s.dct with qbWr := markWritten s.dct.qbWr idx })

/-- CTL.RESET (R281). -/
def execCtlReset (s : State) : Host.Outcome State Fault Refusal :=
  conclude (encode .ctlReset) (.done (resetElements s))

/-- BUF.LDS idx, val (R283). -/
def execBufLds (idx : Nat) (val : Byte) (s : State) : Host.Outcome State Fault Refusal :=
  conclude (encode (.bufLds idx val)) (loadSample idx val s)

/-- BUF.LDQ idx, val (R284). -/
def execBufLdq (idx : Nat) (val : BitVec 16) (s : State) : Host.Outcome State Fault Refusal :=
  conclude (encode (.bufLdq idx val)) (loadCoeff idx val s)

end Sys2Proof.Machine
end

