-- ==== Sys2Proof/Machine/Dct.lean ====
section
/-! DEFINITION. The forward DCT and the quantiser (43_dct.md), in exact integers (R210). -/

namespace Sys2Proof.Machine

/-- Element `k` of a row of eight. -/
def rowGet (r : Row8) (k : Nat) : Int :=
  match k with
  | 0 => r.x0
  | 1 => r.x1
  | 2 => r.x2
  | 3 => r.x3
  | 4 => r.x4
  | 5 => r.x5
  | 6 => r.x6
  | _ => r.x7

/-- The row of eight `f 0 .. f 7`. -/
def rowOf (f : Nat → Int) : Row8 :=
  { x0 := f 0, x1 := f 1, x2 := f 2, x3 := f 3, x4 := f 4, x5 := f 5, x6 := f 6, x7 := f 7 }

/-- `Pass1D`, the AAN flow graph (R214). -/
def pass1D (d : Row8) : Row8 :=
  let t0 := d.x0 + d.x7
  let t7 := d.x0 - d.x7
  let t1 := d.x1 + d.x6
  let t6 := d.x1 - d.x6
  let t2 := d.x2 + d.x5
  let t5 := d.x2 - d.x5
  let t3 := d.x3 + d.x4
  let t4 := d.x3 - d.x4
  let a10 := t0 + t3
  let a13 := t0 - t3
  let a11 := t1 + t2
  let a12 := t1 - t2
  let z1 := (a12 + a13) * k707
  let b10 := t4 + t5
  let b11 := t5 + t6
  let b12 := t6 + t7
  let z5 := (b10 - b12) * k382
  let z2 := b10 * k541 + z5
  let z4 := b12 * k1306 + z5
  let z3 := b11 * k707
  let z11 := t7 * e9 + z3
  let z13 := t7 * e9 - z3
  { x0 := (a10 + a11) * e9
    x1 := z11 + z4
    x2 := a13 * e9 + z1
    x3 := z13 - z2
    x4 := (a10 - a11) * e9
    x5 := z13 + z2
    x6 := a13 * e9 - z1
    x7 := z11 - z4 }

/-- The sample at natural index `i`, level-shifted (R211). `fwdDct` reads it only where SB holds a value. -/
def shiftedSample (sb : Space Byte) (i : Nat) : Int := (((spaceRead sb i).getD 0).toNat : Int) - 128

/-- The row pass: `W[r]` (R216). -/
def rowPass (sb : Space Byte) (r : Nat) : Row8 := pass1D (rowOf (fun c => shiftedSample sb (8 * r + c)))

/-- The column pass on column `c` (R216). -/
def columnPass (sb : Space Byte) (c : Nat) : Row8 := pass1D (rowOf (fun r => rowGet (rowPass sb r) c))

/-- `CB[8r+c]` (R216). -/
def coefficient (sb : Space Byte) (i : Nat) : Int := rowGet (columnPass sb (i % 8)) (i / 8)

/-- `DCT.FWD` after its check (R216). -/
def fwdDct (s : State) : Res :=
  withValues (spaceFull 64 s.mem.sb)
    (fun t => .done ((t.withMem (t.mem.withCb (spaceFill 64 (fun i => BitVec.ofInt 80 (coefficient t.mem.sb i))))).withDct
      { t.dct with cbValid := true })) s

/-- `RoundDiv(num, den) = floor((2*num + den) / (2*den))` for `den > 0` (R220); no rule calls it with `den = 0`
(R195; log entry 14). -/
def roundDiv (num : Int) (den : Nat) : Int := (2 * num + den) / (2 * den)

/-- `CB[i]` as a signed integer; read only where CB holds a value. -/
def cbAt (m : Memory) (i : Nat) : Int := ((spaceRead m.cb i).getD 0).toInt

/-- `DIVT[c][i]`; read only where DIVT holds a value. -/
def divtAt (m : Memory) (cls : Cls) (i : Nat) : Nat := ((spaceRead m.divt (64 * cls.toNat + i)).getD 0).toNat

/-- `DCT.QUANT` after its checks (R223). -/
def quantise (cls : Cls) (s : State) : Res :=
  withValues (spaceFull 64 s.mem.cb && spaceFull 128 s.mem.divt)
    (fun t => .done ((t.withMem (t.mem.withQb
        (spaceFill 64 (fun i => BitVec.ofInt 16 (roundDiv (cbAt t.mem i) (divtAt t.mem cls i)))))).withDct
      { t.dct with qbWr := BitVec.allOnes 64 })) s

/-- DCT.FWD (R216). -/
def execDctFwd (s : State) : Host.Outcome State Fault Refusal :=
  conclude (encode .dctFwd) (require (allOnes s.dct.sbWr) .illegalSequence fwdDct s)

/-- DCT.QUANT cls (R223). -/
def execDctQuant (cls : Cls) (s : State) : Host.Outcome State Fault Refusal :=
  conclude (encode (.dctQuant cls))
    (require s.dct.cbValid .illegalSequence (require s.qt.valid .illegalSequence (quantise cls)) s)

end Sys2Proof.Machine
end

