-- ==== Sys2Proof/Machine/Huffman.lean ====
section
/-! DEFINITION. The JPEG bit-packer JBP and the Huffman encoder HUF (44_huffman.md). -/

namespace Sys2Proof.Machine

/-- `k` rounds of the loop of `JBPWrite` (R251): the eight oldest bits leave, 0xFF is followed by a stuffed 0x00. -/
def jbpDrain (k : Nat) (s : State) : Res :=
  match k with
  | 0 => .done s
  | j + 1 =>
    let b := BitVec.ofNat 8 (s.jbp.acc.toNat / 2 ^ (s.jbp.cnt.toNat - 8))
    (sinkWrites (if b = 0xFF then [b, 0] else [b]) s).andThen (fun t =>
      jbpDrain j (t.withJbp
        { acc := BitVec.ofNat 32 (low t.jbp.acc.toNat (t.jbp.cnt.toNat - 8))
          cnt := BitVec.ofNat 6 (t.jbp.cnt.toNat - 8) }))

/-- `JBPWrite(code, n)` (R251): older bits move up; `while JBP_CNT >= 8` runs `JBP_CNT / 8` times, since nothing else
changes JBP_CNT meanwhile. -/
def jbpWrite (code n : Nat) (s : State) : Res :=
  let t := s.withJbp { acc := BitVec.ofNat 32 ((s.jbp.acc.toNat * 2 ^ n) ||| low code n)
                       cnt := BitVec.ofNat 6 (s.jbp.cnt.toNat + n) }
  jbpDrain (t.jbp.cnt.toNat / 8) t

/-- `JBPFlush()` (R252): the pending bits, zero-padded below. -/
def jbpFlush (s : State) : Res :=
  if s.jbp.cnt = 0 then .done s
  else
    (sinkWrite (BitVec.ofNat 8 (s.jbp.acc.toNat * 2 ^ (8 - s.jbp.cnt.toNat))) s).andThen (fun t =>
      .done (t.withJbp { acc := 0, cnt := 0 }))

/-- The codes `BuildTable` assigns (R247): for each length `len` the next `HBITS` symbols get consecutive codes, and
the code is doubled once per length. -/
def assignCodes (hist : List Nat) (len code : Nat) (syms : List Nat) : List (Nat × HCode) :=
  match hist with
  | [] => []
  | n :: rest =>
    (syms.take n).zipIdx.map (fun x =>
        (x.1, { len := BitVec.ofNat 5 len, code := BitVec.ofNat 16 (code + x.2) })) ++
      assignCodes rest (len + 1) ((code + n) * 2) (syms.drop n)

/-- The (symbol, code) list of table `t` (R247). No symbol is repeated (R245 (a)). -/
def tableCodes (t : Nat) : List (Nat × HCode) := assignCodes (hbits t) 1 0 (hval t)

/-- `HUFT[t][s]` as `BuildTable(t)` leaves it: length 0 for a symbol without a code (R247). -/
def huffEntry (t sym : Nat) : HCode := ((tableCodes t).lookup sym).getD { len := 0, code := 0 }

/-- `HUF.BUILD` (R248): the four tables. -/
def buildHuff (s : State) : Res :=
  .done ((s.withMem (s.mem.withHuft (spaceFill 1024 (fun k => huffEntry (k / 256) (k % 256))))).withHuf
    { s.huf with valid := true })

/-- `EmitSym(t, s)` (R256). -/
def emitSym (t sym : Nat) (s : State) : Res :=
  match spaceRead s.mem.huft (256 * t + sym) with
  | none => .stopped .noValue
  | some h => jbpWrite h.code.toNat h.len.toNat s

/-- `QB[i]` as a signed integer; read only where QB holds a value. -/
def qbAt (m : Memory) (i : Nat) : Int := ((spaceRead m.qb i).getD 0).toInt

/-- `k` ZRL codes in front of a coefficient (R257): `while r > 15` runs `r / 16` times. -/
def emitZrl (acT k : Nat) (s : State) : Res :=
  match k with
  | 0 => .done s
  | j + 1 => (emitSym acT zrl s).andThen (emitZrl acT j)

/-- A non-zero AC coefficient after a run of `r` zeros (R257). -/
def emitCoeff (acT r : Nat) (v : Int) (s : State) : Res :=
  (emitZrl acT (r / 16) s).andThen (fun t =>
    (emitSym acT (r % 16 * 16 + cat v) t).andThen (jbpWrite (mag v (cat v)) (cat v)))

/-- The AC scan over the values not yet visited, `r` zeros pending (R257): EOB when the block ends in zeros. -/
def scanAc (acT : Nat) (vs : List Int) (r : Nat) (s : State) : Res :=
  match vs with
  | [] => if 0 < r then emitSym acT eob s else .done s
  | v :: rest =>
    if v = 0 then scanAc acT rest (r + 1) s
    else (emitCoeff acT r v s).andThen (scanAc acT rest 0)

/-- The DC term (R257). -/
def emitDc (dcT : Nat) (diff : Int) (s : State) : Res :=
  (emitSym dcT (cat diff) s).andThen (fun t =>
    if 0 < cat diff then jbpWrite (mag diff (cat diff)) (cat diff) t else .done t)

/-- `QB[ZZ[1]], .., QB[ZZ[63]]` (R257). -/
def acValues (m : Memory) : List Int := (zigzag.drop 1).map (fun i => qbAt m i)

/-- `diff = QB[0] - PRED[comp]` in unbounded integers (R257 (d)). -/
def dcDiff (comp : Nat) (s : State) : Int := qbAt s.mem 0 - (predOf s.huf comp).toInt

/-- Every value of the block has a symbol (R257, R309). -/
def blockInRange (comp : Nat) (s : State) : Bool :=
  decide (cat (dcDiff comp s) ≤ 11) && (acValues s.mem).all (fun v => decide (cat v ≤ 10))

/-- `HUF.BLOCK` after its checks (R257). -/
def emitBlock (comp : Nat) (cls : Cls) (s : State) : Res :=
  (emitDc (dcTable cls) (dcDiff comp s) s).andThen (fun t =>
    (scanAc (acTable cls) (acValues s.mem) 0 t).andThen (fun u =>
      .done (u.withHuf (setPred u.huf comp ((spaceRead s.mem.qb 0).getD 0)))))

/-- HUF.BUILD (R248). -/
def execHufBuild (s : State) : Host.Outcome State Fault Refusal := conclude (encode .hufBuild) (buildHuff s)

/-- HUF.START (R250): the predictors and the bit-packer start anew; pending bits are dropped. -/
def execHufStart (s : State) : Host.Outcome State Fault Refusal :=
  conclude (encode .hufStart)
    (.done ((s.withHuf { s.huf with pred0 := 0, pred1 := 0, pred2 := 0 }).withJbp { acc := 0, cnt := 0 }))

/-- HUF.BLOCK comp, cls (R257). -/
def execHufBlock (comp : Nat) (cls : Cls) (s : State) : Host.Outcome State Fault Refusal :=
  conclude (encode (.hufBlock comp cls))
    (require (compOk comp) .illegalCommand
      (require s.huf.valid .illegalSequence
        (require (allOnes s.dct.qbWr) .illegalSequence
          (withValues (spaceFull 64 s.mem.qb)
            (require (blockInRange comp s) .coeffRange (emitBlock comp cls))))) s)

/-- JBP.WRITE code, n (R253). -/
def execJbpWrite (code : BitVec 16) (n : Nat) (s : State) : Host.Outcome State Fault Refusal :=
  conclude (encode (.jbpWrite code n)) (require (widthOk n) .invalidParameter (jbpWrite code.toNat n) s)

/-- JBP.FLUSH (R254). -/
def execJbpFlush (s : State) : Host.Outcome State Fault Refusal := conclude (encode .jbpFlush) (jbpFlush s)

end Sys2Proof.Machine
end

