-- ==== Sys2Proof/Machine/Lzw.lean ====
section
/-! DEFINITION. The LZW compressor (41_lzw.md). -/

namespace Sys2Proof.Machine

/-- `N_BITS` after code `c` is written (R154, R155): back to INIT_BITS after a clear code, else one more when
FREE_ENT exceeds `(1 << N_BITS) - 1` and N_BITS is below 12. -/
def nextWidth (c : Nat) (l : LzwRegs) : BitVec 4 :=
  if c = clearCode l then l.initBits
  else if 2 ^ l.nBits.toNat - 1 < l.freeEnt.toNat ∧ l.nBits.toNat < maxBits then
    BitVec.ofNat 4 (l.nBits.toNat + 1)
  else l.nBits

/-- `EmitCode(c)` (R154). -/
def emitCode (c : Nat) (s : State) : Res :=
  (bpWrite c s.lzw.nBits.toNat s).andThen (fun t =>
    .done (t.withLzw { t.lzw with nBits := nextWidth c t.lzw }))

/-- What `Probe` answers (R157). -/
inductive ProbeResult where
  | found (i : Nat) (code : BitVec 12)
  | vacant (i : Nat)
  | unending
  deriving DecidableEq, Repr

/-- The slot after `i`: subtract the displacement, wrapping modulo the table size (R157). -/
def nextSlot (i disp : Nat) : Nat := if i < disp then i + hashSize - disp else i - disp

/-- `fuel` rounds of the loop of `Probe` (R157). -/
def probeFrom (htab : Space HSlot) (key disp : Nat) (fuel i : Nat) : ProbeResult :=
  match fuel with
  | 0 => .unending
  | k + 1 =>
    match spaceRead htab i with
    | none => .vacant i
    | some slot =>
      if slot.key.toNat = key then .found i slot.code
      else probeFrom htab key disp k (nextSlot i disp)

/-- `Probe(fcode, c, p)` (R157). The loop visits each of the 5003 slots before it repeats one (R165), so 5003
rounds without an end mean that it would never end. -/
def probe (htab : Space HSlot) (c : Byte) (p : BitVec 12) : ProbeResult :=
  probeFrom htab (hashKey c p) (displacement (primaryHash c p)) hashSize (primaryHash c p)

/-- `Insert(i, fcode)` (R158). -/
def insertPair (i key : Nat) (s : State) : Res :=
  match spaceStore hashSize s.mem.htab i
      { key := BitVec.ofNat 20 key, code := BitVec.ofNat 12 s.lzw.freeEnt.toNat } with
  | none => .stopped .noSuchElement
  | some m =>
    .done ((s.withMem (s.mem.withHtab m)).withLzw
      { s.lzw with freeEnt := BitVec.ofNat 13 (s.lzw.freeEnt.toNat + 1) })

/-- `ResetDictionary()` (R159): every slot empty, FREE_ENT back to FIRST_CODE, the clear code at the width in force. -/
def resetDictionary (s : State) : Res :=
  emitCode (clearCode s.lzw)
    ((s.withMem (s.mem.withHtab [])).withLzw { s.lzw with freeEnt := BitVec.ofNat 13 (firstCode s.lzw) })

/-- `LZW.START` after its checks (R153). -/
def openStream (initBits : Nat) (s : State) : Res :=
  let l : LzwRegs :=
    { active := true
      havePrefix := false
      initBits := BitVec.ofNat 4 initBits
      nBits := BitVec.ofNat 4 initBits
      freeEnt := BitVec.ofNat 13 (2 ^ (initBits - 1) + 2)
      prefixCode := s.lzw.prefixCode }
  emitCode (clearCode l)
    ((((s.withLzw l).withMem (s.mem.withHtab [])).withBp { acc := 0, cnt := 0 }).withPkCnt 0)

/-- The not-found step of `LZW.SYM` (R156): write the old code, insert the pair or reset the dictionary, start again
from the symbol. -/
def startNewMatch (c : Byte) (i : Nat) (s : State) : Res :=
  (emitCode s.lzw.prefixCode.toNat s).andThen (fun t =>
    (if t.lzw.freeEnt.toNat < maxCodes then insertPair i (hashKey c t.lzw.prefixCode) t
     else resetDictionary t).andThen (fun u =>
      .done (u.withLzw { u.lzw with prefixCode := BitVec.ofNat 12 c.toNat })))

/-- `LZW.SYM` after its checks (R156). -/
def takeSymbol (c : Byte) (s : State) : Res :=
  if s.lzw.havePrefix then
    match probe s.mem.htab c s.lzw.prefixCode with
    | .unending => .stopped .probeUnending
    | .found _ code => .done (s.withLzw { s.lzw with prefixCode := code })
    | .vacant i => startNewMatch c i s
  else
    .done (s.withLzw { s.lzw with prefixCode := BitVec.ofNat 12 c.toNat, havePrefix := true })

/-- `LZW.END` after its checks (R160). -/
def closeStream (s : State) : Res :=
  (emitCode s.lzw.prefixCode.toNat s).andThen (fun t =>
    (emitCode (eofCode t.lzw) t).andThen (fun u =>
      (bpFlush u).andThen (fun v =>
        (sinkWrite 0 v).andThen (fun x =>
          .done (x.withLzw { x.lzw with active := false })))))

/-- LZW.START initBits (R153). -/
def execLzwStart (initBits : Nat) (s : State) : Host.Outcome State Fault Refusal :=
  conclude (encode (.lzwStart initBits))
    (require (!s.lzw.active) .illegalSequence
      (require (initBitsOk initBits) .invalidParameter (openStream initBits)) s)

/-- LZW.SYM byte (R156). -/
def execLzwSym (byte : Byte) (s : State) : Host.Outcome State Fault Refusal :=
  conclude (encode (.lzwSym byte))
    (require s.lzw.active .illegalSequence
      (require (decide (byte.toNat < clearCode s.lzw)) .invalidSymbol (takeSymbol byte)) s)

/-- LZW.END (R160). -/
def execLzwEnd (s : State) : Host.Outcome State Fault Refusal :=
  conclude (encode .lzwEnd)
    (require s.lzw.active .illegalSequence (require s.lzw.havePrefix .emptyStream closeStream) s)

end Sys2Proof.Machine
end

