-- ==== Sys2Proof/Machine/Quant.lean ====
section
/-! DEFINITION. The quantisation scaler QT (42_quant.md). -/

namespace Sys2Proof.Machine

/-- `QScale(q)` (R193). -/
def qScale (q : Nat) : Nat := if q < 50 then 5000 / q else 200 - 2 * q

/-- One quantum value: the base entry scaled, rounded and clamped (R194). -/
def quantum (scale base : Nat) : Nat := clamp ((base * scale + 50) / 100) quantMin quantMax

/-- One AAN-scaled denominator (43_dct.md R222): `8 * quantum * SFI[row] * SFI[col]`. -/
def denominator (q i : Nat) : Nat := 8 * q * sfi (i / 8) * sfi (i % 8)

/-- `QTAB[c][i]` at index `k = 64*c + i` for a scale (R194). -/
def quantumAt (scale k : Nat) : Nat := quantum scale (baseq (k / 64) (k % 64))

/-- `QT.BUILD` after its check (R194). -/
def buildQuant (q : Nat) (s : State) : Res :=
  let scale := qScale q
  .done ((s.withQt { valid := true, quality := BitVec.ofNat 7 q, scale := BitVec.ofNat 13 scale }).withMem
    ((s.mem.withQtab (spaceFill 128 (fun k => BitVec.ofNat 8 (quantumAt scale k)))).withDivt
      (spaceFill 128 (fun k => BitVec.ofNat 72 (denominator (quantumAt scale k) (k % 64))))))

/-- QT.BUILD quality (R194). -/
def execQtBuild (quality : Nat) (s : State) : Host.Outcome State Fault Refusal :=
  conclude (encode (.qtBuild quality)) (require (qualityOk quality) .invalidParameter (buildQuant quality) s)

end Sys2Proof.Machine
end

