-- ==== Sys2Proof/Machine/Dispatch.lean ====
section
/-! DEFINITION. One arm per command (30_encoding.md R99). -/

namespace Sys2Proof.Machine

def exec (i : Instr) (s : State) : Host.Outcome State Fault Refusal :=
  match i with
  | .ctlReset => Sys2Proof.Machine.execCtlReset s
  | .bpWrite code n => Sys2Proof.Machine.execBpWrite code n s
  | .bpFlush => Sys2Proof.Machine.execBpFlush s
  | .pkWrite byte => Sys2Proof.Machine.execPkWrite byte s
  | .pkFlush => Sys2Proof.Machine.execPkFlush s
  | .lzwStart initBits => Sys2Proof.Machine.execLzwStart initBits s
  | .lzwSym byte => Sys2Proof.Machine.execLzwSym byte s
  | .lzwEnd => Sys2Proof.Machine.execLzwEnd s
  | .qtBuild quality => Sys2Proof.Machine.execQtBuild quality s
  | .dctFwd => Sys2Proof.Machine.execDctFwd s
  | .dctQuant cls => Sys2Proof.Machine.execDctQuant cls s
  | .hufBuild => Sys2Proof.Machine.execHufBuild s
  | .hufStart => Sys2Proof.Machine.execHufStart s
  | .hufBlock comp cls => Sys2Proof.Machine.execHufBlock comp cls s
  | .jbpWrite code n => Sys2Proof.Machine.execJbpWrite code n s
  | .jbpFlush => Sys2Proof.Machine.execJbpFlush s
  | .bufLds idx val => Sys2Proof.Machine.execBufLds idx val s
  | .bufLdq idx val => Sys2Proof.Machine.execBufLdq idx val s

end Sys2Proof.Machine
end

