-- ==== Sys2Proof/Machine/Issue.lean ====
section
/-! DEFINITION. The command cycle (45_control_and_buffers.md R280): what becomes of one command word taken from the
command port, and of a pulse of the reset pin, between commands or in the middle of one (70_reset_and_hazards.md
R340). -/

namespace Sys2Proof.Machine

/-- CTL.RESET is the one command accepted while FAULTED (60_exceptions.md R311). -/
def discards (s : State) (w : Word) : Bool := s.fault.faulted && w != encode .ctlReset

/-- One command word (R280): discarded while FAULTED, ILLEGAL_COMMAND when it decodes to nothing, else run. -/
def runCommand (w : Word) (s : State) : Host.Outcome State Fault Refusal :=
  if discards s w then .next s
  else
    match decode w with
    | .ok i => exec i s
    | .error _ => .next (trapEntry .illegalCommand w s)

/-- The sink's answers that are left once the byte that it did not take is withdrawn: those up to that byte are
given. -/
def repliesAfterOffer (rs : List SinkReply) : List SinkReply :=
  match rs with
  | [] => []
  | .accept :: rest => repliesAfterOffer rest
  | .refuse :: rest => repliesAfterOffer rest
  | .never :: rest => rest

/-- The reset pin while the command that began in `s` offers a byte the sink does not take: the byte is withdrawn, the
command abandoned (R340). -/
def withdrawOffer (s : State) : State := hardReset (s.withSink (repliesAfterOffer s.sink))

/-- The command that began in `s` waits for the sink. `busy = 1`, so no word leaves the port (R79) and the next pulse
of the reset pin ends the wait (R340); where none comes the core hangs (20_memory.md R81). -/
def pinEndsWait (s : State) : Host.Outcome State Fault Refusal :=
  if HostEvent.resetPin ∈ s.events then
    .next (withdrawOffer (s.withEvents (s.events.erase HostEvent.resetPin)))
  else .fault .sinkNeverReady

/-- A command word the host lets run to its end (R280), if the sink lets it. -/
def takeCommand (w : Word) (s : State) : Host.Outcome State Fault Refusal :=
  match runCommand w s with
  | .next t => .next t
  | .fault .sinkNeverReady => pinEndsWait s
  | .fault f => .fault f
  | .refused r => .refused r

/-- A command word whose command the reset pin abandons (R340, U14): at the byte the sink does not take, or at any later
moment, which all leave the same reset state. -/
def takeAbandoned (w : Word) (s : State) : Host.Outcome State Fault Refusal :=
  match runCommand w s with
  | .next t => .next (hardReset t)
  | .fault .sinkNeverReady => .next (withdrawOffer s)
  | .fault f => .fault f
  | .refused r => .refused r

/-- What the host does next (R41, R340); the event is taken from the port first. With nothing offered the core
waits and nothing changes (R280, R341). -/
def runEvent (s : State) : Host.Outcome State Fault Refusal :=
  match s.events with
  | [] => .next s
  | .command w :: rest => takeCommand w (s.withEvents rest)
  | .resetPin :: rest => .next (hardReset (s.withEvents rest))
  | .resetDuring w :: rest => takeAbandoned w (s.withEvents rest)

/-- Put the word at the head of the command port, the low `nbits` bits of `w` with every bit above them zero. -/
def offerWord (s : State) (nbits w : Nat) : State :=
  s.withEvents (.command (BitVec.ofNat 32 (w % 2 ^ nbits)) :: s.events)

end Sys2Proof.Machine
end

