-- ==== Sys2Proof/Machine/Step.lean ====
section
/-! DEFINITION. One step of the core: one command cycle (45_control_and_buffers.md R280). -/

namespace Sys2Proof.Machine

/-- One step (R280): see `runEvent`. -/
def step (s : State) : Host.Outcome State Fault Refusal := runEvent s

/-- `s` with the command word offered next on the command port, where `step` takes it (R79; log entry 1). -/
def State.withFetchWord (s : State) (nbits w : Nat) : State := offerWord s nbits w

end Sys2Proof.Machine
end

