-- ==== Sys2Proof/Machine/ReadPort.lean ====
section
/-! DEFINITION. What the host sees between commands without a command: the read port (10_state.md R37, 20_memory.md
R66, R80) and the output pins (R78, R318, R341). A read changes no state. An element or register that holds no value
reads as a free value (93_implementation_defined.md U3, log entry 10). -/

namespace Sys2Proof.Machine

/-- Bit `k` of a word from a flag. -/
def flagBit (b : Bool) (k : Nat) : Nat := if b then 2 ^ k else 0

/-- STATUS (R37). -/
def statusWord (s : State) : Word :=
  BitVec.ofNat 32
    (flagBit s.fault.faulted 0 + flagBit s.lzw.active 1 + flagBit s.lzw.havePrefix 2 + (lzwPhase s.lzw).toNat * 2 ^ 3 +
      flagBit s.qt.valid 5 + flagBit s.huf.valid 6 + flagBit s.dct.cbValid 7)

/-- The registers of R37 by number; QUALITY and QSCALE hold no value while QT_VALID = 0 (R31). -/
def readRegister (s : State) (addr : BitVec 12) : Word :=
  match addr.toNat with
  | 0x000 => statusWord s
  | 0x001 => s.fault.code.setWidth 32
  | 0x002 => s.fault.cmd
  | 0x003 => s.lzw.initBits.setWidth 32
  | 0x004 => s.lzw.nBits.setWidth 32
  | 0x005 => s.lzw.freeEnt.setWidth 32
  | 0x006 => s.lzw.prefixCode.setWidth 32
  | 0x007 => BitVec.ofNat 32 (clearCode s.lzw % 2 ^ 12)
  | 0x008 => BitVec.ofNat 32 (eofCode s.lzw % 2 ^ 12)
  | 0x009 => s.bp.acc
  | 0x00A => s.bp.cnt.setWidth 32
  | 0x00B => s.pkCnt.setWidth 32
  | 0x00C => s.jbp.acc
  | 0x00D => s.jbp.cnt.setWidth 32
  | 0x00E => if s.qt.valid then s.qt.quality.setWidth 32 else Config.freeRead s.freeCount addr
  | 0x00F => if s.qt.valid then s.qt.scale.setWidth 32 else Config.freeRead s.freeCount addr
  | 0x010 => s.huf.pred0.signExtend 32
  | 0x011 => s.huf.pred1.signExtend 32
  | 0x012 => s.huf.pred2.signExtend 32
  | 0x013 => s.dct.sbWr.setWidth 32
  | 0x014 => (s.dct.sbWr >>> 32).setWidth 32
  | 0x015 => s.dct.qbWr.setWidth 32
  | 0x016 => (s.dct.qbWr >>> 32).setWidth 32
  | _ => 0

/-- The value of a mapped element: free while its guard is 0 or it was never written (R66, U3). -/
def readElement {α : Type} (guard : Bool) (v : Option α) (toWord : α → Word) (unspecified : Word) : Word :=
  match guard, v with
  | true, some x => toWord x
  | _, _ => unspecified

/-- An element of HUFT as a word: `[20:16]` len, `[15:0]` code (R66). -/
def hcodeWord (h : HCode) : Word := BitVec.ofNat 32 (h.len.toNat * 2 ^ 16 + h.code.toNat)

/-- `rd_data` for `rd_addr` while no command runs (R66, R80). -/
def readPort (s : State) (addr : BitVec 12) : Word :=
  let a := addr.toNat
  let free := Config.freeRead s.freeCount addr
  if a ≤ 0x016 then readRegister s addr
  else if 0x100 ≤ a ∧ a ≤ 0x13F then
    readElement (s.dct.sbWr.getLsbD (a - 0x100)) (spaceRead s.mem.sb (a - 0x100)) (·.setWidth 32) free
  else if 0x140 ≤ a ∧ a ≤ 0x17F then
    readElement (s.dct.qbWr.getLsbD (a - 0x140)) (spaceRead s.mem.qb (a - 0x140)) (·.signExtend 32) free
  else if 0x200 ≤ a ∧ a ≤ 0x27F then
    readElement s.qt.valid (spaceRead s.mem.qtab (a - 0x200)) (·.setWidth 32) free
  else if 0x400 ≤ a ∧ a ≤ 0x7FF then
    readElement s.huf.valid (spaceRead s.mem.huft (a - 0x400)) hcodeWord free
  else 0

/-- The `fault` output: the level FAULTED (R78, R318). -/
def faultPin (s : State) : Bool := s.fault.faulted

/-- Between commands the core is ready for the next word and offers the sink nothing (R79, R280, R341). The level of
these pins while a command runs is timing (log entry 16). -/
def busyPin (_ : State) : Bool := false
def cmdReadyPin (_ : State) : Bool := true
def sinkValidPin (_ : State) : Bool := false

end Sys2Proof.Machine
end

