-- ==== Sys2Proof/Safety.lean ====
section
/-! DEFINITION. The terms the claims use: the sink's good behaviour, the invariants of a good state (10_state.md R24,
R26, R28 to R34), and the reference functions that say in closed form what the core writes (40_bitpacker_packetizer.md
R133, R140; 41_lzw.md R161, R166; 44_huffman.md R259). No step reads this file. -/

namespace Sys2Proof.Machine

/-- The sink accepts every byte still to come ("a sink accepting every byte", R41). -/
abbrev SinkAccepts (s : State) : Prop := ∀ r ∈ s.sink, r = SinkReply.accept

/-- The core is not in the fault state (R24). -/
abbrev Healthy (s : State) : Prop := s.fault.faulted = false

/-- How many pulses of the reset pin are still to come (70_reset_and_hazards.md R340). -/
def pinPulses (es : List HostEvent) : Nat :=
  match es with
  | [] => 0
  | .command _ :: rest => pinPulses rest
  | .resetPin :: rest => pinPulses rest + 1
  | .resetDuring _ :: rest => pinPulses rest + 1

/-- A bit accumulator between commands: fewer than 8 bits pending, zeros above them (R29, R34). -/
abbrev AccOk (a : BitAcc) : Prop := a.cnt.toNat ≤ 7 ∧ a.acc.toNat < 2 ^ a.cnt.toNat

/-- The packet buffer between commands: at most 254 bytes, each holding a value (R30). -/
abbrev PacketOk (s : State) : Prop :=
  s.pkCnt.toNat ≤ 254 ∧ ∀ i, i < s.pkCnt.toNat → (spaceRead s.mem.pkbuf i).isSome = true

/-- The packers between commands (R29, R30, R34). -/
abbrev PackersOk (s : State) : Prop := AccOk s.bp ∧ AccOk s.jbp ∧ PacketOk s

/-- The fault registers (R24, R301): all zero while not FAULTED; a code of the table while FAULTED. -/
abbrev FaultRegsOk (s : State) : Prop :=
  (s.fault.faulted = false → s.fault.code = 0 ∧ s.fault.cmd = 0) ∧
    (s.fault.faulted = true → s.fault.code ∈ [1, 3, 4, 5, 6, 7, 8])

/-- Every sample marked written holds a value; the same for the coefficients (R32). -/
abbrev BuffersOk (s : State) : Prop :=
  (∀ i, i < 64 → s.dct.sbWr.getLsbD i = true → (spaceRead s.mem.sb i).isSome = true) ∧
    (∀ i, i < 64 → s.dct.qbWr.getLsbD i = true → (spaceRead s.mem.qb i).isSome = true) ∧
    (s.dct.cbValid = true → spaceFull 64 s.mem.cb = true)

/-- While QT_VALID the tables are those of QUALITY (R31, R194). -/
abbrev QuantOk (s : State) : Prop :=
  s.qt.valid = true →
    (1 ≤ s.qt.quality.toNat ∧ s.qt.quality.toNat ≤ 100) ∧ s.qt.scale.toNat = qScale s.qt.quality.toNat ∧
      ∀ k, k < 128 →
        spaceRead s.mem.qtab k = some (BitVec.ofNat 8 (quantumAt (qScale s.qt.quality.toNat) k)) ∧
          spaceRead s.mem.divt k =
            some (BitVec.ofNat 72 (denominator (quantumAt (qScale s.qt.quality.toNat) k) (k % 64)))

/-- While HUF_VALID the four code tables are those of R247. -/
abbrev HuffOk (s : State) : Prop :=
  s.huf.valid = true → ∀ k, k < 1024 → spaceRead s.mem.huft k = some (huffEntry (k / 256) (k % 256))

/-- The LZW registers of an open stream: R26 (a) to (e), and the range of the codes in HTAB (R28 (b)). -/
abbrev LzwOk (s : State) : Prop :=
  s.lzw.active = true →
    (3 ≤ s.lzw.initBits.toNat ∧ s.lzw.initBits.toNat ≤ 9) ∧
    (s.lzw.initBits.toNat ≤ s.lzw.nBits.toNat ∧ s.lzw.nBits.toNat ≤ 12) ∧
    (firstCode s.lzw ≤ s.lzw.freeEnt.toNat ∧ s.lzw.freeEnt.toNat ≤ 4096) ∧
    (s.lzw.havePrefix = true → s.lzw.prefixCode.toNat < s.lzw.freeEnt.toNat ∧
      s.lzw.prefixCode.toNat ≠ clearCode s.lzw ∧ s.lzw.prefixCode.toNat ≠ eofCode s.lzw) ∧
    s.mem.htab.length = s.lzw.freeEnt.toNat - firstCode s.lzw ∧
    (s.lzw.nBits.toNat < 12 → s.lzw.freeEnt.toNat ≤ 2 ^ s.lzw.nBits.toNat) ∧
    (∀ e ∈ s.mem.htab, firstCode s.lzw ≤ e.2.code.toNat ∧ e.2.code.toNat < s.lzw.freeEnt.toNat)

/-- `Probe` for the pair whose hash key is `key` (R157): the symbol is its high part, the code its low 12 bits. -/
def probeKey (htab : Space HSlot) (key : BitVec 20) : ProbeResult :=
  probe htab (BitVec.ofNat 8 (key.toNat / 2 ^ 12)) (BitVec.ofNat 12 key.toNat)

/-- HTAB of an open stream (R28): distinct keys, the codes FIRST_CODE .. FREE_ENT-1 each once, and every valid slot
found by the probe of its own key. -/
abbrev DictOk (s : State) : Prop :=
  s.lzw.active = true →
    (s.mem.htab.map (fun e => e.2.key)).Nodup ∧
    (s.mem.htab.map (fun e => e.2.code.toNat)).Perm
      (List.range' (firstCode s.lzw) (s.lzw.freeEnt.toNat - firstCode s.lzw)) ∧
    ∀ e ∈ s.mem.htab, probeKey s.mem.htab e.2.key = .found e.1 e.2.code

/-- While CB_VALID the coefficients are those of some block of samples (R216): the host may have changed SB since. -/
abbrev CbOk (s : State) : Prop :=
  s.dct.cbValid = true →
    ∃ sb : Space Byte, ∀ i, i < 64 → spaceRead s.mem.cb i = some (BitVec.ofInt 80 (coefficient sb i))

/-- N_BITS as a function of FREE_ENT in an open stream (41_lzw.md R155, R161). -/
abbrev WidthOk (s : State) : Prop :=
  s.lzw.active = true →
    s.lzw.nBits.toNat = min 12 (max s.lzw.initBits.toNat (bitlen (s.lzw.freeEnt.toNat - 1)))

/-- A good state: what every state reached from reset satisfies. -/
abbrev CoreOk (s : State) : Prop :=
  s.mem.wf = true ∧ FaultRegsOk s ∧
    (Healthy s →
      PackersOk s ∧ BuffersOk s ∧ QuantOk s ∧ HuffOk s ∧ CbOk s ∧ LzwOk s ∧ DictOk s ∧ WidthOk s)

/-- The elements that the reset table fixes (R39), at the values it gives; OUT is not among them. -/
abbrev ResetTable (t : State) : Prop :=
  t.fault = { faulted := false, code := 0, cmd := 0 } ∧ t.lzw.active = false ∧ t.lzw.havePrefix = false ∧
    t.bp = { acc := 0, cnt := 0 } ∧ t.pkCnt = 0 ∧ t.qt.valid = false ∧
    t.dct = { sbWr := 0, cbValid := false, qbWr := 0 } ∧
    t.huf = { valid := false, pred0 := 0, pred1 := 0, pred2 := 0 } ∧ t.jbp = { acc := 0, cnt := 0 } ∧
    lzwPhase t.lzw = .idle

/-- The command word `w`, run from `s`, takes the fault of that code before it has written anything (60_exceptions.md
R312, R313): the fault registers record it, OUT and the inputs are as before. -/
abbrev RaisesAtOnce (code : BitVec 4) (w : Word) (s : State) (r : Host.Outcome State Fault Refusal) : Prop :=
  ∃ t, r = .next t ∧ t.fault = { faulted := true, code := code, cmd := w } ∧ t.out = s.out ∧ t.sink = s.sink ∧
    t.events = s.events

/-- Exactly the bytes `bs` went to the sink, in order, each taking one answer of the sink (20_memory.md R76). -/
abbrev Delivered (s t : State) (bs : List Byte) : Prop := t.out = s.out ++ bs ∧ t.sink = s.sink.drop bs.length

/-- The faults each command can raise (60_exceptions.md R302). -/
def mayRaise (i : Instr) : List Cause :=
  match i with
  | .ctlReset => []
  | .bpWrite _ _ => [.illegalSequence, .invalidParameter, .sinkError]
  | .bpFlush => [.illegalSequence, .sinkError]
  | .pkWrite _ => [.illegalSequence, .sinkError]
  | .pkFlush => [.illegalSequence, .sinkError]
  | .lzwStart _ => [.illegalSequence, .invalidParameter]
  | .lzwSym _ => [.illegalSequence, .invalidSymbol, .sinkError]
  | .lzwEnd => [.illegalSequence, .emptyStream, .sinkError]
  | .qtBuild _ => [.invalidParameter]
  | .dctFwd => [.illegalSequence]
  | .dctQuant _ => [.illegalSequence]
  | .hufBuild => []
  | .hufStart => []
  | .hufBlock _ _ => [.illegalCommand, .illegalSequence, .coeffRange, .sinkError]
  | .jbpWrite _ _ => [.invalidParameter, .sinkError]
  | .jbpFlush => [.sinkError]
  | .bufLds _ _ => []
  | .bufLdq _ _ => []

/-- The commands that never call `SinkWrite` (60_exceptions.md R303). -/
def sinkFree (i : Instr) : Bool :=
  match i with
  | .ctlReset | .lzwStart _ | .qtBuild _ | .dctFwd | .dctQuant _ | .hufBuild | .hufStart | .bufLds _ _
  | .bufLdq _ _ => true
  | .bpWrite _ _ | .bpFlush | .pkWrite _ | .pkFlush | .lzwSym _ | .lzwEnd | .hufBlock _ _ | .jbpWrite _ _
  | .jbpFlush => false

/-- The commands of the GIF pipeline: LZW, BP, PK (R4). -/
def gifCommand (i : Instr) : Bool :=
  match i with
  | .bpWrite _ _ | .bpFlush | .pkWrite _ | .pkFlush | .lzwStart _ | .lzwSym _ | .lzwEnd => true
  | .ctlReset | .qtBuild _ | .dctFwd | .dctQuant _ | .hufBuild | .hufStart | .hufBlock _ _ | .jbpWrite _ _
  | .jbpFlush | .bufLds _ _ | .bufLdq _ _ => false

/-- The commands of the JPEG pipeline: QT, DCT, HUF, JBP, BUF (R4). -/
def jpegCommand (i : Instr) : Bool :=
  match i with
  | .qtBuild _ | .dctFwd | .dctQuant _ | .hufBuild | .hufStart | .hufBlock _ _ | .jbpWrite _ _ | .jbpFlush
  | .bufLds _ _ | .bufLdq _ _ => true
  | .ctlReset | .bpWrite _ _ | .bpFlush | .pkWrite _ | .pkFlush | .lzwStart _ | .lzwSym _ | .lzwEnd => false

/-- `s` with the GIF pipeline's state taken from `g` (10_state.md R25, R27, R29, R30). -/
def withGifOf (s g : State) : State :=
  { s with lzw := g.lzw, bp := g.bp, pkCnt := g.pkCnt,
           mem := { s.mem with htab := g.mem.htab, pkbuf := g.mem.pkbuf } }

/-- `s` with the JPEG pipeline's state taken from `g` (10_state.md R31 to R34). -/
def withJpegOf (s g : State) : State :=
  { s with qt := g.qt, dct := g.dct, huf := g.huf, jbp := g.jbp,
           mem := { g.mem with htab := s.mem.htab, pkbuf := s.mem.pkbuf } }

/-- The code width after a code that is not a clear code was written (41_lzw.md R155). -/
def widened (freeEnt w : Nat) : Nat := if 2 ^ w - 1 < freeEnt ∧ w < 12 then w + 1 else w

/-- The indices of PKBUF that `k` bytes through the packet writer are stored at, from count `n` (R134). -/
def packetIndex (n k j : Nat) : Prop := ∃ i, i < k ∧ j = (n + i) % 255

/-- The packet writer's bytes in arrival order (R30). -/
def bufferedBytes (s : State) : List Byte :=
  (List.range s.pkCnt.toNat).map (fun i => (spaceRead s.mem.pkbuf i).getD 0)

/-- The first `k` full blocks of a byte sequence: each a length byte 255 and 255 payload bytes (R140). -/
def fullBlocks (k : Nat) (bs : List Byte) : List Byte :=
  match k with
  | 0 => []
  | j + 1 => 255 :: bs.take 255 ++ fullBlocks j (bs.drop 255)

/-- What the packet writer has written once `bs` has gone through it from empty: every full block (R140). -/
def packetOut (bs : List Byte) : List Byte := fullBlocks (bs.length / 255) bs

/-- What then is still buffered (R140). -/
def packetLeft (bs : List Byte) : List Byte := bs.drop (255 * (bs.length / 255))

/-- The trailing block of a flush: nothing for no byte (R135). -/
def lastBlock (bs : List Byte) : List Byte := if bs = [] then [] else BitVec.ofNat 8 bs.length :: bs

/-- The low `n` bytes of an integer, least significant first (R65, R133). -/
def bytesLsb (v n : Nat) : List Byte := (List.range n).map (fun i => BitVec.ofNat 8 (v / 2 ^ (8 * i)))

/-- The integer that codes of given widths form, the first one lowest (R133). -/
def packedLsb (ws : List (Nat × Nat)) : Nat :=
  match ws with
  | [] => 0
  | (c, n) :: rest => c % 2 ^ n + 2 ^ n * packedLsb rest

/-- How many bits they take (R133). -/
def packedBits (ws : List (Nat × Nat)) : Nat := (ws.map (fun w => w.2)).sum

/-- A value as `n` bits, most significant first (R67, R111). -/
def bitsMsb (v n : Nat) : List Bool := (List.range n).map (fun i => v.testBit (n - 1 - i))

/-- The value of a bit string, most significant first. -/
def valueMsb (bs : List Bool) : Nat := bs.foldl (fun a b => 2 * a + b.toNat) 0

/-- The pending bits of the JPEG bit-packer, oldest first (R34). -/
def pendingBits (a : BitAcc) : List Bool := bitsMsb a.acc.toNat a.cnt.toNat

/-- A byte with its stuffing (R112). -/
def stuffed (b : Byte) : List Byte := if b = 0xFF then [b, 0] else [b]

/-- What the JPEG bit-packer writes for the first `8*k` bits of a string, and no more (R259). -/
def jpegBytes (k : Nat) (bs : List Bool) : List Byte :=
  match k with
  | 0 => []
  | j + 1 => stuffed (BitVec.ofNat 8 (valueMsb (bs.take 8))) ++ jpegBytes j (bs.drop 8)

/-- The whole bytes of a bit string, stuffed (R259). -/
def jpegOut (bs : List Bool) : List Byte := jpegBytes (bs.length / 8) bs

/-- The bits left over (R259). -/
def jpegLeft (bs : List Bool) : List Bool := bs.drop (8 * (bs.length / 8))

/-- The bit string of symbol `sym` of table `t` (R108, R247). -/
def symbolBits (t sym : Nat) : List Bool := bitsMsb (huffEntry t sym).code.toNat (huffEntry t sym).len.toNat

/-- The magnitude bits of a value (R111). -/
def magnitudeBits (v : Int) : List Bool := bitsMsb (mag v (cat v)) (cat v)

/-- The AC part of a block (R108, R257): per non-zero coefficient the ZRL codes, the run/size code and the magnitude
bits; EOB when the block ends in zeros. -/
def acBits (acT : Nat) (vs : List Int) (r : Nat) : List Bool :=
  match vs with
  | [] => if 0 < r then symbolBits acT 0x00 else []
  | v :: rest =>
    if v = 0 then acBits acT rest (r + 1)
    else
      (List.replicate (r / 16) (symbolBits acT 0xF0)).flatten ++ symbolBits acT (r % 16 * 16 + cat v) ++
        magnitudeBits v ++ acBits acT rest 0

/-- The bit string of one HUF.BLOCK (R259): a function of the DC difference, the AC values in zig-zag order and the
class. The category 0 has no magnitude bits. -/
def blockBits (cls : Cls) (diff : Int) (acs : List Int) : List Bool :=
  symbolBits (2 * cls.toNat) (cat diff) ++ magnitudeBits diff ++ acBits (2 * cls.toNat + 1) acs 0

/-- `M[k][n]`, the matrix of `Pass1D` (43_dct.md R215). -/
def dctMatrix (k n : Nat) : Int :=
  (([ [1000000000, 1000000000, 1000000000, 1000000000, 1000000000, 1000000000, 1000000000, 1000000000],
      [1923879532, 1630986313, 1089790214, 382683433, -382683433, -1089790214, -1630986313, -1923879532],
      [1707106781, 707106781, -707106781, -1707106781, -1707106781, -707106781, 707106781, 1707106781],
      [1382683433, -324423348, -1630986314, -923879533, 923879533, 1630986314, 324423348, -1382683433],
      [1000000000, -1000000000, -1000000000, 1000000000, 1000000000, -1000000000, -1000000000, 1000000000],
      [617316567, -1089790214, 216772752, 923879533, -923879533, -216772752, 1089790214, -617316567],
      [292893219, -707106781, 707106781, -292893219, -292893219, 707106781, -707106781, 292893219],
      [76120468, -216772751, 324423348, -382683433, 382683433, -324423348, 216772751, -76120468] ] :
    List (List Int)).getD k []).getD n 0

/-- The sum over `n = 0 .. 7`. -/
def sum8 (f : Nat → Int) : Int := f 0 + f 1 + f 2 + f 3 + f 4 + f 5 + f 6 + f 7

/-- The bound on the magnitude of each quantised coefficient, the table of 43_dct.md R224. -/
def quantisedBound (i : Nat) : Nat :=
  ([ 1024, 924, 942, 924, 1020, 924, 942, 924,
     924, 837, 854, 837, 924, 837, 854, 837,
     942, 854, 871, 854, 942, 854, 871, 854,
     924, 837, 854, 837, 924, 837, 854, 837,
     1020, 924, 942, 924, 1020, 924, 942, 924,
     924, 837, 854, 837, 924, 837, 854, 837,
     942, 854, 871, 854, 942, 854, 871, 854,
     924, 837, 854, 837, 924, 837, 854, 837 ] : List Nat).getD i 0

/-- An entry of the abstract dictionary: the (code, symbol) pair and the code assigned to it (R166). -/
abbrev DicEntry := (Nat × Nat) × Nat

/-- What the abstract compressor of R166 holds between symbols: the current match, the dictionary, the next code, and
`j`, the number of the next code since the last clear code (R161). -/
structure AbsLzw where
  cur : Nat
  dic : List DicEntry
  next : Nat
  j : Nat
  deriving DecidableEq, Repr

/-- The width of code `j` after a clear code in closed form (R161). -/
def codeWidth (initBits j : Nat) : Nat :=
  if j ≤ 1 then initBits else Nat.min 12 (Nat.max initBits (bitlen (2 ^ (initBits - 1) + 2 + j - 2)))

/-- One symbol of the abstract compressor: its next state and the codes it writes, with their widths (R166). -/
def absSymbol (initBits : Nat) (a : AbsLzw) (s : Nat) : AbsLzw × List (Nat × Nat) :=
  match a.dic.lookup (a.cur, s) with
  | some c => ({ a with cur := c }, [])
  | none =>
    if a.next < 4096 then
      ({ cur := s, dic := ((a.cur, s), a.next) :: a.dic, next := a.next + 1, j := a.j + 1 },
        [(a.cur, codeWidth initBits a.j)])
    else
      ({ cur := s, dic := [], next := 2 ^ (initBits - 1) + 2, j := 1 },
        [(a.cur, codeWidth initBits a.j), (2 ^ (initBits - 1), codeWidth initBits (a.j + 1))])

/-- The codes written for the symbols after the first, then the last match and the end code (R166). -/
def absCodes (initBits : Nat) (a : AbsLzw) (syms : List Nat) : List (Nat × Nat) :=
  match syms with
  | [] => [(a.cur, codeWidth initBits a.j), (2 ^ (initBits - 1) + 1, codeWidth initBits (a.j + 1))]
  | s :: rest => (absSymbol initBits a s).2 ++ absCodes initBits (absSymbol initBits a s).1 rest

/-- All the codes of a stream, the opening clear code first (R166). -/
def streamCodes (initBits : Nat) (first : Nat) (rest : List Nat) : List (Nat × Nat) :=
  (2 ^ (initBits - 1), initBits) ::
    absCodes initBits { cur := first, dic := [], next := 2 ^ (initBits - 1) + 2, j := 1 } rest

/-- The GIF image data of a code stream (R107): packed bytes in blocks, then the terminator. -/
def gifData (ws : List (Nat × Nat)) : List Byte :=
  let bytes := bytesLsb (packedLsb ws) ((packedBits ws + 7) / 8)
  packetOut bytes ++ lastBlock (packetLeft bytes) ++ [0]

/-- Commands one after another, until a command does not answer a next state. -/
def runAll (is : List Instr) (s : State) : Host.Outcome State Fault Refusal :=
  match is with
  | [] => .next s
  | i :: rest =>
    match exec i s with
    | .next t => runAll rest t
    | .fault f => .fault f
    | .refused r => .refused r

end Sys2Proof.Machine
end

