-- ==== Sys2Proof/Certificates/Slice0/Obligations.lean ====
section
/-! DEFINITION. The statements for the provers. Each cites the rules of spec/ it rests on in OBLIGATIONS.json. -/

open Sys2Proof
open Sys2Proof.Machine

/-! Encoding (30_encoding.md). -/

/-- Decoding the word of a well-formed command gives the command back, every operand included (R91 to R99). -/
def Obligations.DecodeEncodeAgree : Prop := ∀ i : Instr, i.wellFormed = true → decode (encode i) = .ok i

/-- A word that decodes is the word of the command it decodes to: no bit of it is dropped (R92 to R100). -/
def Obligations.EncodeDecodeAgree : Prop :=
  ∀ (w : Word) (i : Instr), decode w = .ok i → i.wellFormed = true ∧ encode i = w

/-- The decoder answers a command exactly where a row of the printed opcode map matches, the row's own command, and no
two rows match one word (R99). -/
def Obligations.DecoderIsOpcodeMap : Prop :=
  ∀ w : Word,
    (∀ i, decode w = .ok i → ∃ r ∈ opcodeMap, r.hits w = true ∧ r.mnemonic = i.mnemonic) ∧
      (∀ r ∈ opcodeMap, r.hits w = true → ∃ i, decode w = .ok i ∧ i.mnemonic = r.mnemonic) ∧
      (∀ r ∈ opcodeMap, ∀ r' ∈ opcodeMap, r.hits w = true → r'.hits w = true → r = r')

/-- Words printed in the spec decode to the commands printed beside them (95_test_vectors.md section 2). -/
def Obligations.SpecWordsDecode : Prop :=
  decode 0x01000000 = .ok .ctlReset ∧ decode 0x1010ABCD = .ok (.bpWrite 0xABCD 16) ∧
    decode 0x200000A5 = .ok (.pkWrite 0xA5) ∧ decode 0x310000FF = .ok (.lzwSym 255) ∧
    decode 0x40000064 = .ok (.qtBuild 100) ∧ decode 0x51000001 = .ok (.dctQuant .chrominance) ∧
    decode 0x62000005 = .ok (.hufBlock 2 .chrominance) ∧ decode 0x700901FF = .ok (.jbpWrite 0x1FF 9) ∧
    decode 0x80001B64 = .ok (.bufLds 27 100) ∧ decode 0x8101FFF3 = .ok (.bufLdq 1 0xFFF3)

/-! The command cycle, reset and the fault state (45_control_and_buffers.md, 60_exceptions.md, 70_reset_and_hazards.md). -/

/-- One step runs the command that the word on the port decodes to, on the state with that word taken from the port;
with nothing offered it changes nothing; a word placed on the port with `withFetchWord` is the one run (R79, R280). The
one step in which more happens, a command that waits for the sink until the reset pin comes, is in `ResetPinRestores`. -/
def Obligations.StepRunsDecodedCommand : Prop :=
  ∀ s : State,
    (s.events = [] → step s = .next s) ∧
      (∀ w rest i, s.events = .command w :: rest → decode w = .ok i → Healthy s ∨ i = .ctlReset →
        exec i (s.withEvents rest) ≠ .fault .sinkNeverReady ∨ HostEvent.resetPin ∉ rest →
        step s = exec i (s.withEvents rest)) ∧
      (∀ i, i.wellFormed = true → Healthy s ∨ i = .ctlReset →
        exec i s ≠ .fault .sinkNeverReady ∨ HostEvent.resetPin ∉ s.events →
        step (s.withFetchWord 32 (encode i).toNat) = exec i s)

/-- While FAULTED every word but CTL.RESET is taken from the port and changes nothing else (R311). -/
def Obligations.FaultedCoreDiscards : Prop :=
  ∀ (s : State) (w : Word) (rest : List HostEvent), s.fault.faulted = true → s.events = .command w :: rest →
    w ≠ 0x01000000 → step s = .next (s.withEvents rest)

/-- A word that matches no row raises ILLEGAL_COMMAND, code 7; reserved units, the all-zero and the all-ones word match
none; HUF.BLOCK with `comp = 3` does match and is refused by the command with the same code (R100). -/
def Obligations.IllegalWordFaults : Prop :=
  (∀ (s : State) (w : Word) (rest : List HostEvent), Healthy s → s.events = .command w :: rest →
    (∀ r ∈ opcodeMap, r.hits w = false) → RaisesAtOnce 7 w (s.withEvents rest) (step s)) ∧
    (∀ w : Word, w = 0 ∨ w = 0xFFFFFFFF ∨ 9 ≤ field w 31 28 → ∀ r ∈ opcodeMap, r.hits w = false) ∧
    (∀ cls : Cls, decode (encode (.hufBlock 3 cls)) = .ok (.hufBlock 3 cls)) ∧
    (∀ (s : State) (cls : Cls),
      RaisesAtOnce 7 (encode (.hufBlock 3 cls)) s (exec (.hufBlock 3 cls) s))

/-- The reset pin puts every element the reset table fixes at its value and starts a new OUT (R340, R342): between
commands, whatever the state; in the middle of a command, which is abandoned; and while a command waits for a sink that
does not take the byte on offer: that byte is withdrawn, and the words the host holds stay on the port. How the host's
events are written is the model's choice (log entry 11). -/
def Obligations.ResetPinRestores : Prop :=
  ∀ (s : State) (rest : List HostEvent),
    (s.events = .resetPin :: rest →
      ∃ t, step s = .next t ∧ ResetTable t ∧ t.out = [] ∧ t.events = rest ∧ t.sink = s.sink) ∧
    (∀ w t, s.events = .resetDuring w :: rest → step s = .next t → ResetTable t ∧ t.out = [] ∧ t.events = rest) ∧
    (∀ w i k sinkRest, decode w = .ok i → Healthy s → s.sink = List.replicate k .accept ++ .never :: sinkRest →
      exec i (s.withEvents rest) = .fault .sinkNeverReady →
      (s.events = .resetDuring w :: rest →
        ∃ t, step s = .next t ∧ ResetTable t ∧ t.out = [] ∧ t.events = rest ∧ t.sink = sinkRest) ∧
      (s.events = .command w :: rest → HostEvent.resetPin ∈ rest →
        ∃ t, step s = .next t ∧ ResetTable t ∧ t.out = [] ∧ t.events = rest.erase .resetPin ∧ t.sink = sinkRest) ∧
      (s.events = .command w :: rest → HostEvent.resetPin ∉ rest → step s = .fault .sinkNeverReady))

/-- The state right after reset has the values of the reset table and an empty OUT, and the core is idle: its `fault`
output is 0 (R39, R341). Nothing is said of the elements R39 calls unspecified. -/
def Obligations.ResetStateIsTable : Prop :=
  ResetTable State.reset ∧ State.reset.out = [] ∧ faultPin State.reset = false

/-- CTL.RESET, accepted in every state, FAULTED or not, puts every element the reset table fixes at its value and leaves
OUT and the inputs as they are; its word is 0x01000000 (R281). -/
def Obligations.CtlResetRestores : Prop :=
  (∀ s : State, ∃ t, exec .ctlReset s = .next t ∧ ResetTable t ∧ t.out = s.out ∧ t.events = s.events ∧
    t.sink = s.sink) ∧
    (∀ (s : State) (rest : List HostEvent), s.events = .command 0x01000000 :: rest →
      step s = exec .ctlReset (s.withEvents rest))

/-- The fault state is left only by CTL.RESET or the reset pin, and what they leave is the reset state (R315). -/
def Obligations.OnlyResetLeavesFault : Prop :=
  ∀ s t : State, s.fault.faulted = true → step s = .next t → t.fault.faulted = false →
    (∃ rest, s.events = .command 0x01000000 :: rest ∨ s.events = .resetPin :: rest ∨
      ∃ w, s.events = .resetDuring w :: rest) ∧ ResetTable t

/-- A command raises only the faults listed for it, and records the cause's code and its own word (R301, R302). That
FAULT_CMD is the encoder's word for the command is the model's choice (log entry 12). -/
def Obligations.FaultsOfEachCommand : Prop :=
  ∀ (i : Instr) (s t : State), Healthy s → exec i s = .next t → t.fault.faulted = true →
    ∃ c ∈ mayRaise i, t.fault = { faulted := true, code := c.toCode, cmd := encode i }

/-- ILLEGAL_SEQUENCE, code 8, in each of the printed conditions, before anything else is checked or written (R308). For
HUF.BLOCK the operand check comes first (R314). -/
def Obligations.IllegalSequenceFaults : Prop :=
  ∀ s : State,
    (s.lzw.active = true → ∀ b, RaisesAtOnce 8 (encode (.lzwStart b)) s (exec (.lzwStart b) s)) ∧
    (s.lzw.active = false →
      (∀ c, RaisesAtOnce 8 (encode (.lzwSym c)) s (exec (.lzwSym c) s)) ∧
        RaisesAtOnce 8 (encode .lzwEnd) s (exec .lzwEnd s)) ∧
    (s.lzw.active = true →
      (∀ code n, RaisesAtOnce 8 (encode (.bpWrite code n)) s (exec (.bpWrite code n) s)) ∧
        RaisesAtOnce 8 (encode .bpFlush) s (exec .bpFlush s) ∧
        (∀ b, RaisesAtOnce 8 (encode (.pkWrite b)) s (exec (.pkWrite b) s)) ∧
        RaisesAtOnce 8 (encode .pkFlush) s (exec .pkFlush s)) ∧
    ((∃ k, k < 64 ∧ s.dct.sbWr.getLsbD k = false) → RaisesAtOnce 8 (encode .dctFwd) s (exec .dctFwd s)) ∧
    (s.dct.cbValid = false ∨ s.qt.valid = false →
      ∀ c, RaisesAtOnce 8 (encode (.dctQuant c)) s (exec (.dctQuant c) s)) ∧
    (s.huf.valid = false ∨ (∃ k, k < 64 ∧ s.dct.qbWr.getLsbD k = false) →
      ∀ comp cls, comp ≤ 2 →
        RaisesAtOnce 8 (encode (.hufBlock comp cls)) s (exec (.hufBlock comp cls) s))

/-- The operand checks: INVALID_PARAMETER 3, INVALID_SYMBOL 4 and EMPTY_STREAM 5 before any state is written, once the
sequence check has passed (R304, R305, R306, R314). In an open stream with INIT_BITS = 0, which no run reaches
(`LzwRegistersStayGood`), the bound on the symbol is the model's choice (log entry 19). -/
def Obligations.OperandCheckFaults : Prop :=
  ∀ s : State,
    (s.lzw.active = false → ∀ b, b < 3 ∨ 9 < b → RaisesAtOnce 3 (encode (.lzwStart b)) s (exec (.lzwStart b) s)) ∧
    (∀ q, q = 0 ∨ 100 < q → RaisesAtOnce 3 (encode (.qtBuild q)) s (exec (.qtBuild q) s)) ∧
    (s.lzw.active = false → ∀ code n, n = 0 ∨ 16 < n →
      RaisesAtOnce 3 (encode (.bpWrite code n)) s (exec (.bpWrite code n) s)) ∧
    (∀ code n, n = 0 ∨ 16 < n → RaisesAtOnce 3 (encode (.jbpWrite code n)) s (exec (.jbpWrite code n) s)) ∧
    (s.lzw.active = true → ∀ c : Byte, 2 ^ (s.lzw.initBits.toNat - 1) ≤ c.toNat →
      RaisesAtOnce 4 (encode (.lzwSym c)) s (exec (.lzwSym c) s)) ∧
    (s.lzw.active = true → s.lzw.havePrefix = false → RaisesAtOnce 5 (encode .lzwEnd) s (exec .lzwEnd s))

/-- COEFF_RANGE, code 6, before HUF.BLOCK writes anything: a DC difference of more than 11 magnitude bits, or any other
coefficient, by natural index, of more than 10 (R309). -/
def Obligations.CoeffRangeFaults : Prop :=
  ∀ (s : State) (comp : Nat) (cls : Cls), comp ≤ 2 → s.huf.valid = true → s.dct.qbWr = BitVec.allOnes 64 →
    BuffersOk s →
    (11 < bitlen (qbAt s.mem 0 - (predOf s.huf comp).toInt).natAbs ∨
      ∃ i, 1 ≤ i ∧ i < 64 ∧ 10 < bitlen (qbAt s.mem i).natAbs) →
    RaisesAtOnce 6 (encode (.hufBlock comp cls)) s (exec (.hufBlock comp cls) s)

/-- A sink that refuses the byte number `k` of those a command writes: SINK_ERROR, code 1, the `k` bytes before it are in
OUT and no other; a sink that never takes it: the command never completes and no fault is raised (R77, R81, R303).
That the machine then stops under a name of its own is the model's form of it (log entry 3). -/
def Obligations.SinkRefusalTearsOutput : Prop :=
  ∀ (i : Instr) (s t : State) (bs : List Byte), Healthy s → SinkAccepts s → exec i s = .next t → Healthy t →
    t.out = s.out ++ bs → ∀ (k : Nat) (rest : List SinkReply), k < bs.length →
      (∃ u, exec i (s.withSink (List.replicate k .accept ++ .refuse :: rest)) = .next u ∧
        u.fault = { faulted := true, code := 1, cmd := encode i } ∧ u.out = s.out ++ bs.take k ∧ u.sink = rest) ∧
      exec i (s.withSink (List.replicate k .accept ++ .never :: rest)) = .fault .sinkNeverReady

/-- No step in which the reset pin is not pulsed shortens, rewrites or reorders OUT (R36, R342). -/
def Obligations.OutOnlyGrows : Prop :=
  ∀ s t : State, step s = .next t → pinPulses t.events = pinPulses s.events → s.out <+: t.out

/-- The commands that never call `SinkWrite` leave OUT as it is, take no answer of the sink and cannot raise SINK_ERROR
(R303). -/
def Obligations.QuietCommandsKeepOut : Prop :=
  ∀ (i : Instr) (s t : State), sinkFree i = true → Healthy s → exec i s = .next t →
    t.out = s.out ∧ t.sink = s.sink ∧ (t.fault.faulted = true → t.fault.code ≠ 1)

/-! Invariants of every step (10_state.md). -/

/-- Every step keeps the canonical form of all eight memory spaces. The form is the model's (log entry 7). -/
def Obligations.MemoryStaysCanonical : Prop :=
  ∀ s t : State, s.mem.wf = true → step s = .next t → t.mem.wf = true

/-- Every step keeps the fault registers legal: all zero while not FAULTED, a code of the printed table, never 2, while
FAULTED (R24, R301, R310). -/
def Obligations.FaultRegsStayLegal : Prop := ∀ s t : State, FaultRegsOk s → step s = .next t → FaultRegsOk t

/-- Between commands fewer than 8 bits are pending in each bit accumulator with zeros above them, and at most 254 bytes
are buffered (R29, R30, R34): every step keeps this while the core is not FAULTED. -/
def Obligations.PackersStayGood : Prop :=
  ∀ s t : State, (Healthy s → PackersOk s) → step s = .next t → Healthy t → PackersOk t

/-- Every step keeps the promise of the guard flags while the core is not FAULTED: a sample or coefficient marked written
holds a value, CB holds the transform of a block, QTAB and DIVT are those of QUALITY, HUFT is the built table (R31 to
R33, R197, R308). -/
def Obligations.TablesStayBuilt : Prop :=
  ∀ s t : State, (Healthy s → BuffersOk s ∧ QuantOk s ∧ HuffOk s ∧ CbOk s) → step s = .next t → Healthy t →
    BuffersOk t ∧ QuantOk t ∧ HuffOk t ∧ CbOk t

/-- The LZW invariants (a) to (e) hold after reset and every step keeps them (R26). The range of the codes stored in
HTAB, needed for (c), is kept with them (R28 (b)). -/
def Obligations.LzwRegistersStayGood : Prop :=
  LzwOk State.reset ∧
    ∀ s t : State, (Healthy s → LzwOk s) → step s = .next t → Healthy t → LzwOk t

/-- The dictionary invariants hold after reset and every step keeps them: distinct keys, the codes FIRST_CODE to
FREE_ENT - 1 each once, every valid slot found by the probe of its own key (R28). -/
def Obligations.DictionaryStaysGood : Prop :=
  DictOk State.reset ∧
    ∀ s t : State, (Healthy s → LzwOk s ∧ DictOk s) → step s = .next t → Healthy t → DictOk t

/-- The width in force is a function of FREE_ENT in every open stream, as the closed form says (R155, R161). -/
def Obligations.WidthFollowsFreeEnt : Prop :=
  ∀ s t : State, (Healthy s → LzwOk s ∧ WidthOk s) → step s = .next t → Healthy t → WidthOk t

/-- The state after reset is a good state. -/
def Obligations.CoreOkAtReset : Prop := CoreOk State.reset

/-- Every step from a good state that answers a next state answers a good state. -/
def Obligations.CoreOkKept : Prop := ∀ s t : State, CoreOk s → step s = .next t → CoreOk t

/-- From a good state a step answers a next state, but for a command that waits for a sink that never becomes ready while
the host pulses no reset pin: no command reads an element that holds no value, no index leaves its space, every probe ends, no command is refused (R61, R81, R165, R308). -/
def Obligations.NoInternalStop : Prop :=
  ∀ s : State, CoreOk s →
    SinkReply.never ∉ s.sink ∨ HostEvent.resetPin ∈ s.events ∨ (∃ w rest, s.events = .resetDuring w :: rest) →
    ∃ t, step s = .next t

/-! The packers (40_bitpacker_packetizer.md). -/

/-- PK.WRITE: one byte more in arrival order; the buffer that reaches 255 leaves as one block (R134, R138, R140). -/
def Obligations.PkWriteBuffers : Prop :=
  ∀ (byte : Byte) (s : State), s.lzw.active = false → PacketOk s → SinkAccepts s →
    ∃ t, exec (.pkWrite byte) s = .next t ∧
      bufferedBytes t = packetLeft (bufferedBytes s ++ [byte]) ∧
      t.pkCnt.toNat = (s.pkCnt.toNat + 1) % 255 ∧
      Delivered s t (packetOut (bufferedBytes s ++ [byte])) ∧
      (∀ k, k ≠ s.pkCnt.toNat → spaceRead t.mem.pkbuf k = spaceRead s.mem.pkbuf k) ∧
      t = (((s.withPkCnt t.pkCnt).withMem (s.mem.withPkbuf t.mem.pkbuf)).withOut t.out).withSink t.sink

/-- PK.FLUSH: the buffered bytes leave as one block, length first; nothing for an empty buffer; nothing else changes, no
byte of memory either (R135, R139). -/
def Obligations.PkFlushEmitsBlock : Prop :=
  ∀ s : State, s.lzw.active = false → PacketOk s → SinkAccepts s →
    exec .pkFlush s =
      .next (((s.withPkCnt 0).withOut (s.out ++ lastBlock (bufferedBytes s))).withSink
        (s.sink.drop (lastBlock (bufferedBytes s)).length))

/-- BP.WRITE: the low `n` bits of the code go above the pending ones; the whole bytes go through the packet writer, the
lowest first; what is left stays pending (R131, R133, R136). -/
def Obligations.BpWritePacksLsbFirst : Prop :=
  ∀ (code : BitVec 16) (n : Nat) (s : State), 1 ≤ n → n ≤ 16 → s.lzw.active = false → AccOk s.bp → PacketOk s →
    SinkAccepts s →
    let v := s.bp.acc.toNat + code.toNat % 2 ^ n * 2 ^ s.bp.cnt.toNat
    let total := s.bp.cnt.toNat + n
    let bytes := bufferedBytes s ++ bytesLsb v (total / 8)
    ∃ t, exec (.bpWrite code n) s = .next t ∧
      t.bp.acc.toNat = v / 2 ^ (8 * (total / 8)) ∧ t.bp.cnt.toNat = total % 8 ∧
      bufferedBytes t = packetLeft bytes ∧ Delivered s t (packetOut bytes) ∧
      (∀ k, ¬ packetIndex s.pkCnt.toNat (total / 8) k → spaceRead t.mem.pkbuf k = spaceRead s.mem.pkbuf k) ∧
      t = ((((s.withBp t.bp).withPkCnt t.pkCnt).withMem (s.mem.withPkbuf t.mem.pkbuf)).withOut t.out).withSink t.sink

/-- BP.FLUSH: the pending bits leave as one byte padded with zeros above, then the buffered bytes leave as the trailing
block; both are empty afterwards (R132, R137). -/
def Obligations.BpFlushPads : Prop :=
  ∀ s : State, s.lzw.active = false → AccOk s.bp → PacketOk s → SinkAccepts s →
    let bytes := bufferedBytes s ++ bytesLsb s.bp.acc.toNat ((s.bp.cnt.toNat + 7) / 8)
    ∃ t, exec .bpFlush s = .next t ∧
      t.bp = { acc := 0, cnt := 0 } ∧ t.pkCnt = 0 ∧ Delivered s t (packetOut bytes ++ lastBlock (packetLeft bytes)) ∧
      (∀ k, k ≠ s.pkCnt.toNat ∨ s.bp.cnt = 0 → spaceRead t.mem.pkbuf k = spaceRead s.mem.pkbuf k) ∧
      t = ((((s.withBp t.bp).withPkCnt t.pkCnt).withMem (s.mem.withPkbuf t.mem.pkbuf)).withOut t.out).withSink t.sink

/-- Any sequence of BP.WRITE from empty packers, then BP.FLUSH: OUT grows by the integer the codes form, cut into bytes
lowest first, in blocks of 255 bytes and one last shorter block (R133, R140). -/
def Obligations.PackedStreamBytes : Prop :=
  ∀ (ws : List (BitVec 16 × Nat)) (s : State), (∀ w ∈ ws, 1 ≤ w.2 ∧ w.2 ≤ 16) → s.lzw.active = false →
    s.bp = { acc := 0, cnt := 0 } → s.pkCnt = 0 → SinkAccepts s →
    let codes := ws.map (fun w => (w.1.toNat, w.2))
    let bytes := bytesLsb (packedLsb codes) ((packedBits codes + 7) / 8)
    ∃ t, runAll (ws.map (fun w => Instr.bpWrite w.1 w.2) ++ [.bpFlush]) s = .next t ∧
      t.out = s.out ++ (packetOut bytes ++ lastBlock (packetLeft bytes)) ∧
      t.bp = { acc := 0, cnt := 0 } ∧ t.pkCnt = 0

/-! The LZW compressor (41_lzw.md). -/

/-- LZW.START: a fresh stream, an empty dictionary, fresh packers, and the clear code written with `initBits` bits; nothing
reaches the sink (R153). It completes from any packers, those of an aborted use included. -/
def Obligations.LzwStartOpensStream : Prop :=
  ∀ (b : Nat) (s : State), s.lzw.active = false → 3 ≤ b → b ≤ 9 →
    ∃ t, exec (.lzwStart b) s = .next t ∧
      t.lzw = { active := true, havePrefix := false, initBits := BitVec.ofNat 4 b, nBits := BitVec.ofNat 4 b,
                freeEnt := BitVec.ofNat 13 (2 ^ (b - 1) + 2), prefixCode := s.lzw.prefixCode } ∧
      lzwPhase t.lzw = .cleared ∧ (∀ k, spaceRead t.mem.htab k = none) ∧
      t.bp.acc.toNat = 2 ^ (b - 1) / 2 ^ (8 * (b / 8)) ∧ t.bp.cnt.toNat = b % 8 ∧
      bufferedBytes t = bytesLsb (2 ^ (b - 1)) (b / 8) ∧
      (∀ k, ¬ packetIndex 0 (b / 8) k → spaceRead t.mem.pkbuf k = spaceRead s.mem.pkbuf k) ∧
      t = (((s.withLzw t.lzw).withBp t.bp).withPkCnt t.pkCnt).withMem
        ((s.mem.withHtab t.mem.htab).withPkbuf t.mem.pkbuf)

/-- LZW.SYM, the first symbol of a stream: it becomes the match so far, and nothing is written (R156). -/
def Obligations.LzwSymFirstSymbol : Prop :=
  ∀ (c : Byte) (s : State), s.lzw.active = true → s.lzw.havePrefix = false →
    c.toNat < 2 ^ (s.lzw.initBits.toNat - 1) →
    exec (.lzwSym c) s =
      .next (s.withLzw { s.lzw with prefixCode := BitVec.ofNat 12 c.toNat, havePrefix := true })

/-- LZW.SYM, the pair is in the dictionary: the match becomes its code, and nothing else changes (R156). -/
def Obligations.LzwSymExtendsMatch : Prop :=
  ∀ (c : Byte) (j : Nat) (slot : HSlot) (s : State), s.lzw.active = true → s.lzw.havePrefix = true → DictOk s →
    c.toNat < 2 ^ (s.lzw.initBits.toNat - 1) → spaceRead s.mem.htab j = some slot →
    slot.key.toNat = c.toNat * 2 ^ 12 + s.lzw.prefixCode.toNat →
    exec (.lzwSym c) s = .next (s.withLzw { s.lzw with prefixCode := slot.code })

/-- LZW.SYM, the pair is not in the dictionary and a code is left: the old match is written at the width in force, the
width test sees FREE_ENT before the insertion, the pair takes the slot its probe ended on with the next code, and the
match starts again from the symbol (R155, R156, R158). -/
def Obligations.LzwSymAddsPair : Prop :=
  ∀ (c : Byte) (s : State), s.lzw.active = true → s.lzw.havePrefix = true → LzwOk s → DictOk s → AccOk s.bp →
    PacketOk s → SinkAccepts s → c.toNat < 2 ^ (s.lzw.initBits.toNat - 1) → s.lzw.freeEnt.toNat < 4096 →
    (∀ k slot, spaceRead s.mem.htab k = some slot → slot.key.toNat ≠ c.toNat * 2 ^ 12 + s.lzw.prefixCode.toNat) →
    let v := s.bp.acc.toNat + s.lzw.prefixCode.toNat % 2 ^ s.lzw.nBits.toNat * 2 ^ s.bp.cnt.toNat
    let total := s.bp.cnt.toNat + s.lzw.nBits.toNat
    let bytes := bufferedBytes s ++ bytesLsb v (total / 8)
    ∃ t j, exec (.lzwSym c) s = .next t ∧ probe s.mem.htab c s.lzw.prefixCode = .vacant j ∧ j < 5003 ∧
      spaceRead s.mem.htab j = none ∧
      (∀ k, spaceRead t.mem.htab k =
        if k = j then
          some { key := BitVec.ofNat 20 (c.toNat * 2 ^ 12 + s.lzw.prefixCode.toNat),
                 code := BitVec.ofNat 12 s.lzw.freeEnt.toNat }
        else spaceRead s.mem.htab k) ∧
      t.lzw = { s.lzw with nBits := BitVec.ofNat 4 (widened s.lzw.freeEnt.toNat s.lzw.nBits.toNat),
                           freeEnt := s.lzw.freeEnt + 1, prefixCode := BitVec.ofNat 12 c.toNat } ∧
      t.bp.acc.toNat = v / 2 ^ (8 * (total / 8)) ∧ t.bp.cnt.toNat = total % 8 ∧
      bufferedBytes t = packetLeft bytes ∧ Delivered s t (packetOut bytes) ∧
      (∀ k, ¬ packetIndex s.pkCnt.toNat (total / 8) k → spaceRead t.mem.pkbuf k = spaceRead s.mem.pkbuf k) ∧
      t = (((((s.withLzw t.lzw).withBp t.bp).withPkCnt t.pkCnt).withMem
        ((s.mem.withHtab t.mem.htab).withPkbuf t.mem.pkbuf)).withOut t.out).withSink t.sink

/-- LZW.SYM, the pair is not in the dictionary and no code is left: the old match and then the clear code are written with
12 bits, the dictionary is emptied, the width restarts, the pair is not inserted (R154, R156, R159). -/
def Obligations.LzwSymResetsDictionary : Prop :=
  ∀ (c : Byte) (s : State), s.lzw.active = true → s.lzw.havePrefix = true → LzwOk s → DictOk s → AccOk s.bp →
    PacketOk s → SinkAccepts s → c.toNat < 2 ^ (s.lzw.initBits.toNat - 1) → s.lzw.freeEnt.toNat = 4096 →
    (∀ k slot, spaceRead s.mem.htab k = some slot → slot.key.toNat ≠ c.toNat * 2 ^ 12 + s.lzw.prefixCode.toNat) →
    let clear := 2 ^ (s.lzw.initBits.toNat - 1)
    let v := s.bp.acc.toNat + packedLsb [(s.lzw.prefixCode.toNat, 12), (clear, 12)] * 2 ^ s.bp.cnt.toNat
    let total := s.bp.cnt.toNat + 24
    let bytes := bufferedBytes s ++ bytesLsb v (total / 8)
    ∃ t, exec (.lzwSym c) s = .next t ∧ (∀ k, spaceRead t.mem.htab k = none) ∧
      t.lzw = { s.lzw with nBits := s.lzw.initBits, freeEnt := BitVec.ofNat 13 (clear + 2),
                           prefixCode := BitVec.ofNat 12 c.toNat } ∧
      t.bp.acc.toNat = v / 2 ^ (8 * (total / 8)) ∧ t.bp.cnt.toNat = total % 8 ∧
      bufferedBytes t = packetLeft bytes ∧ Delivered s t (packetOut bytes) ∧
      (∀ k, ¬ packetIndex s.pkCnt.toNat (total / 8) k → spaceRead t.mem.pkbuf k = spaceRead s.mem.pkbuf k) ∧
      t = (((((s.withLzw t.lzw).withBp t.bp).withPkCnt t.pkCnt).withMem
        ((s.mem.withHtab t.mem.htab).withPkbuf t.mem.pkbuf)).withOut t.out).withSink t.sink

/-- LZW.END: the last match and the end code, each at the width in force then, the padded last byte, the trailing block
and one zero byte; the stream is closed and the packers are empty (R155, R160). -/
def Obligations.LzwEndClosesStream : Prop :=
  ∀ s : State, s.lzw.active = true → s.lzw.havePrefix = true → LzwOk s → AccOk s.bp → PacketOk s → SinkAccepts s →
    let w1 := s.lzw.nBits.toNat
    let w2 := widened s.lzw.freeEnt.toNat w1
    let codes := [(s.lzw.prefixCode.toNat, w1), (2 ^ (s.lzw.initBits.toNat - 1) + 1, w2)]
    let size := (s.bp.cnt.toNat + w1 + w2 + 7) / 8
    let bytes := bufferedBytes s ++ bytesLsb (s.bp.acc.toNat + packedLsb codes * 2 ^ s.bp.cnt.toNat) size
    ∃ t, exec .lzwEnd s = .next t ∧
      t.lzw = { s.lzw with active := false,
                           nBits := BitVec.ofNat 4 (widened s.lzw.freeEnt.toNat w2) } ∧
      t.bp = { acc := 0, cnt := 0 } ∧ t.pkCnt = 0 ∧
      Delivered s t (packetOut bytes ++ lastBlock (packetLeft bytes) ++ [0]) ∧
      (∀ k, ¬ packetIndex s.pkCnt.toNat size k → spaceRead t.mem.pkbuf k = spaceRead s.mem.pkbuf k) ∧
      t = (((((s.withLzw t.lzw).withBp t.bp).withPkCnt t.pkCnt).withMem
        (s.mem.withPkbuf t.mem.pkbuf)).withOut t.out).withSink t.sink

/-- The probe answers a slot and its code exactly when the pair is in the dictionary, and otherwise an empty slot of the
table; it always ends (R157, R164, R165). -/
def Obligations.ProbeFindsExactly : Prop :=
  ∀ (s : State) (c : Byte) (p : BitVec 12), s.lzw.active = true → LzwOk s → DictOk s →
    (∀ j code, probe s.mem.htab c p = .found j code ↔
      ∃ slot, spaceRead s.mem.htab j = some slot ∧ slot.code = code ∧
        slot.key.toNat = c.toNat * 2 ^ 12 + p.toNat) ∧
      ((∀ k slot, spaceRead s.mem.htab k = some slot → slot.key.toNat ≠ c.toNat * 2 ^ 12 + p.toNat) →
        ∃ j, probe s.mem.htab c p = .vacant j ∧ j < 5003 ∧ spaceRead s.mem.htab j = none)

/-- The transitions between the logical states of the unit, row by row (R152). The rows of a fault and of the resets are
OnlyResetLeavesFault, CtlResetRestores and FaultsOfEachCommand. -/
def Obligations.PhaseTransitions : Prop :=
  (∀ (b : Nat) (s t : State), Healthy s → exec (.lzwStart b) s = .next t → Healthy t →
    lzwPhase s.lzw = .idle ∧ lzwPhase t.lzw = .cleared) ∧
  (∀ s t : State, Healthy s → exec .lzwEnd s = .next t → Healthy t →
    lzwPhase s.lzw ≠ .idle ∧ lzwPhase t.lzw = .idle) ∧
  (∀ (c : Byte) (s t : State), Healthy s → LzwOk s → DictOk s → exec (.lzwSym c) s = .next t → Healthy t →
    let held := ∃ k slot, spaceRead s.mem.htab k = some slot ∧
      slot.key.toNat = c.toNat * 2 ^ 12 + s.lzw.prefixCode.toNat
    lzwPhase s.lzw ≠ .idle ∧
    (lzwPhase s.lzw = .cleared → s.lzw.havePrefix = false → lzwPhase t.lzw = .cleared ∧ t.lzw.havePrefix = true) ∧
    (lzwPhase s.lzw = .cleared → s.lzw.havePrefix = true → ¬ held ∧ lzwPhase t.lzw = .accumulating) ∧
    (lzwPhase s.lzw = .accumulating → s.lzw.havePrefix = true → held → lzwPhase t.lzw = .accumulating) ∧
    (lzwPhase s.lzw = .accumulating → s.lzw.havePrefix = true → ¬ held → s.lzw.freeEnt.toNat < 4095 →
      lzwPhase t.lzw = .accumulating) ∧
    (lzwPhase s.lzw = .accumulating → s.lzw.havePrefix = true → ¬ held → s.lzw.freeEnt.toNat = 4095 →
      lzwPhase t.lzw = .full) ∧
    (lzwPhase s.lzw = .full → s.lzw.havePrefix = true → held → lzwPhase t.lzw = .full) ∧
    (lzwPhase s.lzw = .full → s.lzw.havePrefix = true → ¬ held → lzwPhase t.lzw = .cleared))

/-- A whole stream writes what the abstract compressor writes: the codes of a finite map from (code, symbol) pairs to
codes, packed, cut into blocks, and the terminator, whatever the hash table looked like before (R166). -/
def Obligations.LzwStreamRefinesAbstract : Prop :=
  ∀ (b : Nat) (c : Byte) (rest : List Byte) (s : State), 3 ≤ b → b ≤ 9 →
    (∀ x ∈ c :: rest, x.toNat < 2 ^ (b - 1)) → s.lzw.active = false → SinkAccepts s →
    ∃ t, runAll (.lzwStart b :: ((c :: rest).map .lzwSym ++ [.lzwEnd])) s = .next t ∧
      t.out = s.out ++ gifData (streamCodes b c.toNat (rest.map (fun x => x.toNat))) ∧
      t.fault = s.fault ∧ t.lzw.active = false ∧ t.bp = { acc := 0, cnt := 0 } ∧ t.pkCnt = 0

/-! The quantisation scaler (42_quant.md). -/

/-- QT.BUILD: the scale of the quality law, every quantum value the scaled base entry rounded and clamped to 1..255, every
denominator eight times the quantum and the two scale factors, unshortened (R193, R194, R222). -/
def Obligations.QtBuildTables : Prop :=
  ∀ (q : Nat) (s : State), 1 ≤ q → q ≤ 100 →
    let scale := if q < 50 then 5000 / q else 200 - 2 * q
    ∃ t, exec (.qtBuild q) s = .next t ∧ t.qt.valid = true ∧ t.qt.quality.toNat = q ∧ t.qt.scale.toNat = scale ∧
      (∀ c i, c < 2 → i < 64 → ∃ u d,
        spaceRead t.mem.qtab (64 * c + i) = some u ∧ spaceRead t.mem.divt (64 * c + i) = some d ∧
          u.toNat = max 1 (min 255 ((baseq c i * scale + 50) / 100)) ∧
          d.toNat = 8 * u.toNat * sfi (i / 8) * sfi (i % 8)) ∧
      t = (s.withQt t.qt).withMem ((s.mem.withQtab t.mem.qtab).withDivt t.mem.divt)

/-- After QT.BUILD every quantum value is in 1..255 and every denominator is positive, so DCT.QUANT never divides by zero
(R195): so it is in every good state whose tables are valid. -/
def Obligations.QuantumNeverZero : Prop :=
  (∀ (q : Nat) (s t : State), Healthy s → exec (.qtBuild q) s = .next t → Healthy t → QuantOk t ∧ t.qt.valid = true) ∧
    ∀ s : State, QuantOk s → s.qt.valid = true → ∀ k, k < 128 → ∃ u d,
      spaceRead s.mem.qtab k = some u ∧ spaceRead s.mem.divt k = some d ∧ 1 ≤ u.toNat ∧ u.toNat ≤ 255 ∧
        0 < d.toNat

/-- A higher quality never gives a larger quantum value, at any position; at quality 100 all are 1, at quality 10 none is
below 50 (R196). -/
def Obligations.QuantumMonotone : Prop :=
  ∀ (q q' : Nat) (s s' t t' : State), 1 ≤ q → q ≤ q' → q' ≤ 100 → exec (.qtBuild q) s = .next t →
    exec (.qtBuild q') s' = .next t' → ∀ k, k < 128 → ∃ u u',
      spaceRead t.mem.qtab k = some u ∧ spaceRead t'.mem.qtab k = some u' ∧ u'.toNat ≤ u.toNat ∧
        (q' = 100 → u'.toNat = 1) ∧ (q = 10 → 50 ≤ u.toNat)

/-! The forward DCT and the quantiser (43_dct.md). -/

/-- DCT.FWD is the exact bilinear form of the matrix, with nothing lost in 80 bits; SB, QB and the masks are as before
(R215, R217, R218). -/
def Obligations.DctFwdBilinear : Prop :=
  ∀ s : State, s.dct.sbWr = BitVec.allOnes 64 → BuffersOk s →
    ∃ t, exec .dctFwd s = .next t ∧
      (∀ r c, r < 8 → c < 8 → ∃ v, spaceRead t.mem.cb (8 * r + c) = some v ∧
        v.toInt = sum8 (fun y => sum8 (fun x =>
          dctMatrix r y * dctMatrix c x * ((((spaceRead s.mem.sb (8 * y + x)).getD 0).toNat : Int) - 128)))) ∧
      t = (s.withMem (s.mem.withCb t.mem.cb)).withDct { s.dct with cbValid := true }

/-- DCT.QUANT: every coefficient divided by its denominator, computed here from QTAB, to the nearest integer with ties up,
and nothing lost in 16 bits; CB, the tables and the samples are as before (R220, R222, R223). -/
def Obligations.DctQuantRounds : Prop :=
  ∀ (cls : Cls) (s : State), s.dct.cbValid = true → s.qt.valid = true → CbOk s → QuantOk s →
    ∃ t, exec (.dctQuant cls) s = .next t ∧
      (∀ i, i < 64 → ∃ v, spaceRead t.mem.qb i = some v ∧
        let den : Int := 8 * ((spaceRead s.mem.qtab (64 * cls.toNat + i)).getD 0).toNat * sfi (i / 8) * sfi (i % 8)
        2 * den * v.toInt ≤ 2 * cbAt s.mem i + den ∧ 2 * cbAt s.mem i + den < 2 * den * (v.toInt + 1)) ∧
      t = (s.withMem (s.mem.withQb t.mem.qb)).withDct { s.dct with qbWr := BitVec.allOnes 64 }

/-- A mid-grey block quantises to 64 zeros, for every class and every quality (R225). -/
def Obligations.GreyBlockQuantisesToZero : Prop :=
  ∀ (cls : Cls) (s : State), s.dct.sbWr = BitVec.allOnes 64 → (∀ i, i < 64 → spaceRead s.mem.sb i = some 128) →
    s.qt.valid = true → QuantOk s →
    ∃ t u, exec .dctFwd s = .next t ∧ exec (.dctQuant cls) t = .next u ∧
      ∀ i, i < 64 → spaceRead u.mem.qb i = some 0

/-- A block that came from DCT.QUANT stays within the printed bounds and never raises COEFF_RANGE, when the predictor is a
DC value that came from DCT.QUANT too (R224). -/
def Obligations.QuantisedBlockEncodes : Prop :=
  ∀ (c cls : Cls) (comp : Nat) (s : State), comp ≤ 2 → s.dct.cbValid = true → s.qt.valid = true →
    s.huf.valid = true → CbOk s → QuantOk s → HuffOk s → AccOk s.jbp → SinkAccepts s →
    -1024 ≤ (predOf s.huf comp).toInt → (predOf s.huf comp).toInt ≤ 1016 →
    ∃ t u, exec (.dctQuant c) s = .next t ∧ exec (.hufBlock comp cls) t = .next u ∧ u.fault = s.fault ∧
      (∀ i, i < 64 → (qbAt t.mem i).natAbs ≤ quantisedBound i) ∧
      -1024 ≤ (predOf u.huf comp).toInt ∧ (predOf u.huf comp).toInt ≤ 1016

/-! The Huffman encoder and the JPEG bit-packer (44_huffman.md). -/

/-- HUF.BUILD: all 1024 elements of HUFT hold the built codes; the predictors and the bit-packer are as before (R247, R248).
A printed code of each table stands beside it (R249). -/
def Obligations.HufBuildTables : Prop :=
  (∀ s : State, ∃ t, exec .hufBuild s = .next t ∧
    (∀ a sym, a < 4 → sym < 256 → spaceRead t.mem.huft (256 * a + sym) = some (huffEntry a sym)) ∧
    t = (s.withMem (s.mem.withHuft t.mem.huft)).withHuf { s.huf with valid := true }) ∧
    huffEntry 0 11 = { len := 9, code := 0b111111110 } ∧ huffEntry 1 0xF0 = { len := 11, code := 0b11111111001 } ∧
    huffEntry 2 11 = { len := 11, code := 0b11111111110 } ∧ huffEntry 3 0xF1 = { len := 15, code := 0b111111111000011 } ∧
    huffEntry 1 0x0B = { len := 0, code := 0 }

/-- The canonical properties of the four tables: no code is a prefix of another, lengths do not decrease in histogram order,
codes of one length are consecutive, no code is all one bits (R258). -/
def Obligations.HuffmanCanonical : Prop :=
  ∀ a, a < 4 →
    (∀ x y, x < 256 → y < 256 → x ≠ y → (huffEntry a x).len ≠ 0 → (huffEntry a y).len ≠ 0 →
      ¬ symbolBits a x <+: symbolBits a y) ∧
    (∀ p, p + 1 < (hval a).length →
      let e := huffEntry a (tableAt (hval a) p)
      let f := huffEntry a (tableAt (hval a) (p + 1))
      e.len.toNat ≤ f.len.toNat ∧ (e.len = f.len → f.code.toNat = e.code.toNat + 1)) ∧
    (∀ x, x < 256 → (huffEntry a x).len ≠ 0 → (huffEntry a x).code.toNat + 1 < 2 ^ (huffEntry a x).len.toNat)

/-- HUF.START: the predictors and the bit-packer start anew, pending bits are dropped, nothing else changes (R250). -/
def Obligations.HufStartClears : Prop :=
  ∀ s : State, exec .hufStart s =
    .next ((s.withHuf { s.huf with pred0 := 0, pred1 := 0, pred2 := 0 }).withJbp { acc := 0, cnt := 0 })

/-- HUF.BLOCK writes the bit string of the block behind the pending bits: the DC code and its magnitude bits, the AC codes
in zig-zag order with ZRL and EOB, cut into bytes most significant bit first with stuffing; the predictor becomes the DC
value (R255 to R257, R259). -/
def Obligations.HufBlockBits : Prop :=
  ∀ (comp : Nat) (cls : Cls) (s : State), comp ≤ 2 → s.huf.valid = true → s.dct.qbWr = BitVec.allOnes 64 →
    BuffersOk s → HuffOk s → AccOk s.jbp → SinkAccepts s →
    bitlen (qbAt s.mem 0 - (predOf s.huf comp).toInt).natAbs ≤ 11 →
    (∀ i, 1 ≤ i → i < 64 → bitlen (qbAt s.mem i).natAbs ≤ 10) →
    let acs := (zigzag.drop 1).map (fun i => qbAt s.mem i)
    let bits := pendingBits s.jbp ++ blockBits cls (qbAt s.mem 0 - (predOf s.huf comp).toInt) acs
    ∃ t, exec (.hufBlock comp cls) s = .next t ∧ Delivered s t (jpegOut bits) ∧
      pendingBits t.jbp = jpegLeft bits ∧ AccOk t.jbp ∧
      t.huf = setPred s.huf comp ((spaceRead s.mem.qb 0).getD 0) ∧
      t = (((s.withHuf t.huf).withJbp t.jbp).withOut t.out).withSink t.sink

/-- JBP.WRITE: the low `n` bits go behind the pending ones, most significant first; whole bytes leave with stuffing, the
rest stays pending (R251, R253). -/
def Obligations.JbpWriteBits : Prop :=
  ∀ (code : BitVec 16) (n : Nat) (s : State), 1 ≤ n → n ≤ 16 → AccOk s.jbp → SinkAccepts s →
    let bits := pendingBits s.jbp ++ bitsMsb code.toNat n
    ∃ t, exec (.jbpWrite code n) s = .next t ∧ Delivered s t (jpegOut bits) ∧
      pendingBits t.jbp = jpegLeft bits ∧ AccOk t.jbp ∧
      t = ((s.withJbp t.jbp).withOut t.out).withSink t.sink

/-- JBP.FLUSH: the pending bits leave as one byte padded with zeros below, nothing when none is pending (R252, R254). -/
def Obligations.JbpFlushPads : Prop :=
  ∀ s : State, AccOk s.jbp → SinkAccepts s →
    let byte := BitVec.ofNat 8 (valueMsb (pendingBits s.jbp ++ List.replicate (8 - s.jbp.cnt.toNat) false))
    let bytes := if s.jbp.cnt = 0 then [] else [byte]
    exec .jbpFlush s =
      .next (((s.withJbp { acc := 0, cnt := 0 }).withOut (s.out ++ bytes)).withSink (s.sink.drop bytes.length))

/-! The buffer loads (45_control_and_buffers.md). -/

/-- BUF.LDS: one sample and its written bit, nothing else (R283). -/
def Obligations.BufLdsStores : Prop :=
  ∀ (idx : Nat) (val : Byte) (s : State), idx < 64 →
    ∃ t, exec (.bufLds idx val) s = .next t ∧
      (∀ k, spaceRead t.mem.sb k = if k = idx then some val else spaceRead s.mem.sb k) ∧
      (∀ k, k < 64 → (t.dct.sbWr.getLsbD k = true ↔ k = idx ∨ s.dct.sbWr.getLsbD k = true)) ∧
      t = (s.withMem (s.mem.withSb t.mem.sb)).withDct { s.dct with sbWr := t.dct.sbWr }

/-- BUF.LDQ: one coefficient, the signed value of its 16 bits, and its written bit, nothing else (R284). -/
def Obligations.BufLdqStores : Prop :=
  ∀ (idx : Nat) (val : BitVec 16) (s : State), idx < 64 →
    ∃ t, exec (.bufLdq idx val) s = .next t ∧ qbAt t.mem idx = val.toInt ∧
      (∀ k, spaceRead t.mem.qb k = if k = idx then some val else spaceRead s.mem.qb k) ∧
      (∀ k, k < 64 → (t.dct.qbWr.getLsbD k = true ↔ k = idx ∨ s.dct.qbWr.getLsbD k = true)) ∧
      t = (s.withMem (s.mem.withQb t.mem.qb)).withDct { s.dct with qbWr := t.dct.qbWr }

/-! The whole machine. -/

/-- The two pipelines are independent: a command of one that completes without a fault leaves the other's state alone, and
does the same whatever the other's state is (R4, R63, R287). -/
def Obligations.PipelinesIndependent : Prop :=
  ∀ (i : Instr) (s t g : State), Healthy s → exec i s = .next t → Healthy t →
    (jpegCommand i = true → withGifOf t s = t ∧ exec i (withGifOf s g) = .next (withGifOf t g)) ∧
      (gifCommand i = true → withJpegOf t s = t ∧ exec i (withJpegOf s g) = .next (withJpegOf t g))

/-- Nothing a command does depends on OUT: over another OUT the same command appends the same bytes and leaves the same
state otherwise, faults included (R36, R75). -/
def Obligations.CommandsIgnoreOut : Prop :=
  ∀ (i : Instr) (s t : State) (other : List Byte), exec i s = .next t →
    ∃ bs, t.out = s.out ++ bs ∧ exec i (s.withOut other) = .next (t.withOut (other ++ bs))

/-- What the read port answers between commands: the registers, the four mapped spaces with their extensions, zero at every
other address (R37, R66). Elements without a value are not spoken of (R66; log entry 10); LZW_PHASE of registers that no
row of R151 covers is the model's choice (log entry 20). -/
def Obligations.ReadPortMap : Prop :=
  ∀ s : State,
    ((readPort s 0x000).getLsbD 0 = s.fault.faulted ∧
      (readPort s 0x000).getLsbD 1 = s.lzw.active ∧ (readPort s 0x000).getLsbD 2 = s.lzw.havePrefix ∧
      (readPort s 0x000).toNat / 2 ^ 3 % 4 = (lzwPhase s.lzw).toNat ∧
      (readPort s 0x000).getLsbD 5 = s.qt.valid ∧ (readPort s 0x000).getLsbD 6 = s.huf.valid ∧
      (readPort s 0x000).getLsbD 7 = s.dct.cbValid ∧ (readPort s 0x000).toNat < 2 ^ 8) ∧
    ((readPort s 0x001).toNat = s.fault.code.toNat ∧ readPort s 0x002 = s.fault.cmd ∧
      readPort s 0x009 = s.bp.acc ∧ (readPort s 0x00A).toNat = s.bp.cnt.toNat ∧
      (readPort s 0x00B).toNat = s.pkCnt.toNat ∧ readPort s 0x00C = s.jbp.acc ∧
      (readPort s 0x00D).toNat = s.jbp.cnt.toNat ∧ (readPort s 0x010).toInt = s.huf.pred0.toInt ∧
      (readPort s 0x011).toInt = s.huf.pred1.toInt ∧ (readPort s 0x012).toInt = s.huf.pred2.toInt ∧
      (readPort s 0x014).toNat * 2 ^ 32 + (readPort s 0x013).toNat = s.dct.sbWr.toNat ∧
      (readPort s 0x016).toNat * 2 ^ 32 + (readPort s 0x015).toNat = s.dct.qbWr.toNat) ∧
    (s.lzw.active = true → 3 ≤ s.lzw.initBits.toNat → s.lzw.initBits.toNat ≤ 9 →
      (readPort s 0x003).toNat = s.lzw.initBits.toNat ∧ (readPort s 0x004).toNat = s.lzw.nBits.toNat ∧
      (readPort s 0x005).toNat = s.lzw.freeEnt.toNat ∧ (readPort s 0x006).toNat = s.lzw.prefixCode.toNat ∧
      (readPort s 0x007).toNat = 2 ^ (s.lzw.initBits.toNat - 1) ∧
      (readPort s 0x008).toNat = 2 ^ (s.lzw.initBits.toNat - 1) + 1) ∧
    (s.qt.valid = true → (readPort s 0x00E).toNat = s.qt.quality.toNat ∧
      (readPort s 0x00F).toNat = s.qt.scale.toNat) ∧
    (∀ i v, i < 64 → s.dct.sbWr.getLsbD i = true → spaceRead s.mem.sb i = some v →
      (readPort s (BitVec.ofNat 12 (0x100 + i))).toNat = v.toNat) ∧
    (∀ i v, i < 64 → s.dct.qbWr.getLsbD i = true → spaceRead s.mem.qb i = some v →
      (readPort s (BitVec.ofNat 12 (0x140 + i))).toInt = v.toInt) ∧
    (∀ k v, k < 128 → s.qt.valid = true → spaceRead s.mem.qtab k = some v →
      (readPort s (BitVec.ofNat 12 (0x200 + k))).toNat = v.toNat) ∧
    (∀ k v, k < 1024 → s.huf.valid = true → spaceRead s.mem.huft k = some v →
      (readPort s (BitVec.ofNat 12 (0x400 + k))).toNat = v.len.toNat * 2 ^ 16 + v.code.toNat) ∧
    (∀ a : BitVec 12, (0x016 < a.toNat ∧ a.toNat < 0x100) ∨ (0x180 ≤ a.toNat ∧ a.toNat < 0x200) ∨
      (0x280 ≤ a.toNat ∧ a.toNat < 0x400) ∨ 0x800 ≤ a.toNat → readPort s a = 0)
end

