-- ==== Sys2Proof/Laws/Space.lean ====
section
/-! SUPPORT. The laws of a memory space: a read after a write, a read after a fill, and that every operation keeps
the canonical form. -/

namespace Sys2Proof.Machine

variable {α : Type}

@[simp] theorem spaceRead_nil (i : Nat) : spaceRead ([] : Space α) i = none := rfl

theorem spaceRead_cons (j : Nat) (v : α) (rest : Space α) (i : Nat) :
    spaceRead ((j, v) :: rest) i = if i = j then some v else spaceRead rest i := rfl

/-- Reading the element just written gives it. -/
@[simp] theorem spaceRead_write_same (m : Space α) (i : Nat) (v : α) : spaceRead (spaceWrite m i v) i = some v := by
  induction m with
  | nil => simp [spaceWrite, spaceRead]
  | cons x rest ih =>
    obtain ⟨j, u⟩ := x
    unfold spaceWrite
    split
    · simp [spaceRead]
    · split
      · simp [spaceRead]
      · next h1 h2 => simp [spaceRead, h2, ih]

/-- Reading any other element gives what it gave before. -/
theorem spaceRead_write_other (m : Space α) {i k : Nat} (v : α) (h : k ≠ i) :
    spaceRead (spaceWrite m i v) k = spaceRead m k := by
  induction m with
  | nil => simp [spaceWrite, spaceRead, h]
  | cons x rest ih =>
    obtain ⟨j, u⟩ := x
    unfold spaceWrite
    split
    · simp [spaceRead, h]
    · split
      · next h1 h2 => subst h2; simp [spaceRead, h]
      · simp [spaceRead, ih]

theorem spaceRead_write (m : Space α) (i k : Nat) (v : α) :
    spaceRead (spaceWrite m i v) k = if k = i then some v else spaceRead m k := by
  split
  · next h => subst h; simp
  · next h => exact spaceRead_write_other m v h

/-- Everything a store can do (20_memory.md R61). -/
theorem spaceStore_eq_some {size : Nat} {m m' : Space α} {i : Nat} {v : α} (h : spaceStore size m i v = some m') :
    i < size ∧ m' = spaceWrite m i v := by
  unfold spaceStore at h
  split at h
  · exact ⟨by assumption, by simpa using h.symm⟩
  · cases h

theorem spaceStore_of_lt {size : Nat} (m : Space α) {i : Nat} (v : α) (h : i < size) :
    spaceStore size m i v = some (spaceWrite m i v) := by simp [spaceStore, h]

theorem spaceRead_mapped (f : Nat → α) (l : List Nat) (i : Nat) :
    spaceRead (l.map (fun k => (k, f k))) i = if i ∈ l then some (f i) else none := by
  induction l with
  | nil => simp
  | cons k rest ih =>
    rw [List.map_cons, spaceRead_cons, ih]
    by_cases h : i = k
    · subst h; simp
    · simp [h]

/-- Reading a filled space. -/
theorem spaceRead_fill (n : Nat) (f : Nat → α) (i : Nat) :
    spaceRead (spaceFill n f) i = if i < n then some (f i) else none := by
  simp [spaceFill, spaceRead_mapped]

/-- A read that gives a value in a rising list is of an index in its range. -/
theorem spaceRising_read {lo size : Nat} {m : Space α} (h : spaceRising lo size m = true) {i : Nat} {v : α}
    (hr : spaceRead m i = some v) : lo ≤ i ∧ i < size := by
  induction m generalizing lo with
  | nil => cases hr
  | cons x rest ih =>
    obtain ⟨j, u⟩ := x
    simp only [spaceRising, Bool.and_eq_true, decide_eq_true_eq] at h
    rw [spaceRead_cons] at hr
    split at hr
    · omega
    · have := ih h.2 hr
      omega

theorem spaceRising_mono {lo lo' size : Nat} {m : Space α} (h : spaceRising lo size m = true) (hl : lo' ≤ lo) :
    spaceRising lo' size m = true := by
  cases m with
  | nil => rfl
  | cons x rest =>
    obtain ⟨j, u⟩ := x
    simp only [spaceRising, Bool.and_eq_true, decide_eq_true_eq] at h ⊢
    exact ⟨⟨by omega, h.1.2⟩, h.2⟩

theorem spaceRising_write {lo size : Nat} {m : Space α} (h : spaceRising lo size m = true) {i : Nat} (hlo : lo ≤ i)
    (hi : i < size) (v : α) : spaceRising lo size (spaceWrite m i v) = true := by
  induction m generalizing lo with
  | nil => simp [spaceWrite, spaceRising, hlo, hi]
  | cons x rest ih =>
    obtain ⟨j, u⟩ := x
    simp only [spaceRising, Bool.and_eq_true, decide_eq_true_eq] at h
    unfold spaceWrite
    split
    · simp only [spaceRising, Bool.and_eq_true, decide_eq_true_eq]
      exact ⟨⟨hlo, hi⟩, ⟨by omega, h.1.2⟩, h.2⟩
    · split
      · next h2 =>
        subst h2
        simp only [spaceRising, Bool.and_eq_true, decide_eq_true_eq]
        exact ⟨⟨hlo, hi⟩, h.2⟩
      · simp only [spaceRising, Bool.and_eq_true, decide_eq_true_eq]
        exact ⟨h.1, ih h.2 (by omega)⟩

/-- A store keeps the canonical form. -/
theorem spaceWf_write {size : Nat} {m : Space α} (h : spaceWf size m = true) {i : Nat} (hi : i < size) (v : α) :
    spaceWf size (spaceWrite m i v) = true := spaceRising_write h (Nat.zero_le i) hi v

theorem spaceWf_store {size : Nat} {m m' : Space α} (h : spaceWf size m = true) {i : Nat} {v : α}
    (hs : spaceStore size m i v = some m') : spaceWf size m' = true := by
  obtain ⟨hi, rfl⟩ := spaceStore_eq_some hs
  exact spaceWf_write h hi v

@[simp] theorem spaceWf_nil (size : Nat) : spaceWf size ([] : Space α) = true := rfl

theorem spaceRising_range' (f : Nat → α) (lo n : Nat) :
    spaceRising lo (lo + n) ((List.range' lo n).map (fun k => (k, f k))) = true := by
  induction n generalizing lo with
  | zero => rfl
  | succ n ih =>
    rw [List.range'_succ, List.map_cons]
    simp only [spaceRising, Bool.and_eq_true, decide_eq_true_eq]
    refine ⟨⟨Nat.le_refl _, by omega⟩, ?_⟩
    have := ih (lo + 1)
    rwa [show lo + 1 + n = lo + (n + 1) by omega] at this

/-- A filled space is in canonical form. -/
@[simp] theorem spaceWf_fill (n : Nat) (f : Nat → α) : spaceWf n (spaceFill n f) = true := by
  have := spaceRising_range' f 0 n
  simpa [spaceWf, spaceFill, List.range_eq_range'] using this

/-- Two spaces in canonical form that read the same are the same list. -/
theorem spaceRising_ext {lo size : Nat} {m n : Space α} (hm : spaceRising lo size m = true)
    (hn : spaceRising lo size n = true) (h : ∀ i, spaceRead m i = spaceRead n i) : m = n := by
  induction m generalizing lo n with
  | nil =>
    cases n with
    | nil => rfl
    | cons y ns =>
      obtain ⟨k, w⟩ := y
      have := h k
      simp [spaceRead] at this
  | cons x ms ih =>
    obtain ⟨j, u⟩ := x
    cases n with
    | nil =>
      have := h j
      simp [spaceRead] at this
    | cons y ns =>
      obtain ⟨k, w⟩ := y
      simp only [spaceRising, Bool.and_eq_true, decide_eq_true_eq] at hm hn
      have hjk : j = k := by
        by_contra hne
        have hj := h j
        have hk := h k
        simp only [spaceRead, if_true, hne, if_false, Ne.symm hne] at hj hk
        have h1 := spaceRising_read hn.2 hj.symm
        have h2 := spaceRising_read hm.2 hk
        omega
      subst hjk
      have huw : u = w := by simpa [spaceRead] using h j
      subst huw
      congr 1
      refine ih hm.2 hn.2 (fun i => ?_)
      by_cases hij : i = j
      · subst hij
        have hlow : ∀ p : Space α, spaceRising (i + 1) size p = true → spaceRead p i = none := by
          intro p hp
          cases hr : spaceRead p i with
          | none => rfl
          | some v => have := spaceRising_read hp hr; omega
        rw [hlow ms hm.2, hlow ns hn.2]
      · simpa [spaceRead, hij] using h i

theorem spaceWf_ext {size : Nat} {m n : Space α} (hm : spaceWf size m = true) (hn : spaceWf size n = true)
    (h : ∀ i, spaceRead m i = spaceRead n i) : m = n := spaceRising_ext hm hn h

/-- Writing an element that held no value makes the list one longer. -/
theorem length_spaceWrite_of_none {m : Space α} {i : Nat} (h : spaceRead m i = none) (v : α) :
    (spaceWrite m i v).length = m.length + 1 := by
  induction m with
  | nil => rfl
  | cons x rest ih =>
    obtain ⟨j, u⟩ := x
    rw [spaceRead_cons] at h
    unfold spaceWrite
    split at h
    · cases h
    · next hne =>
      split
      · simp
      · simp [ih h]

/-- What a slice holds: as many elements as asked for, each the one the space reads as. -/
theorem spaceSlice_eq_some {m : Space α} {i n : Nat} {l : List α} (h : spaceSlice m i n = some l) :
    l.length = n ∧ ∀ k, k < n → l[k]? = spaceRead m (i + k) := by
  induction n generalizing i l with
  | zero => cases h; simp
  | succ n ih =>
    unfold spaceSlice at h
    split at h
    · next v vs hv hvs =>
      cases h
      obtain ⟨h1, h2⟩ := ih hvs
      refine ⟨by simp [h1], fun k hk => ?_⟩
      cases k with
      | zero => simp [hv]
      | succ k => simpa [Nat.add_assoc, Nat.add_comm 1 k] using h2 k (by omega)
    · cases h

/-- A slice exists when all its elements hold values. -/
theorem spaceSlice_isSome {m : Space α} {i n : Nat} (h : ∀ k, k < n → (spaceRead m (i + k)).isSome) :
    ∃ l, spaceSlice m i n = some l := by
  induction n generalizing i with
  | zero => exact ⟨[], rfl⟩
  | succ n ih =>
    obtain ⟨v, hv⟩ := Option.isSome_iff_exists.mp (h 0 (by omega))
    obtain ⟨l, hl⟩ := ih (i := i + 1) (fun k hk => by
      have := h (k + 1) (by omega)
      rwa [show i + (k + 1) = i + 1 + k by omega] at this)
    refine ⟨v :: l, ?_⟩
    rw [Nat.add_zero] at hv
    simp [spaceSlice, hv, hl]

theorem spaceFull_iff (n : Nat) (m : Space α) : spaceFull n m = true ↔ ∀ i, i < n → (spaceRead m i).isSome := by
  simp [spaceFull]

@[simp] theorem spaceFull_fill (n : Nat) (f : Nat → α) : spaceFull n (spaceFill n f) = true := by
  rw [spaceFull_iff]
  intro i hi
  simp [spaceRead_fill, hi]

/-- The canonical form of the memory, space by space. -/
theorem Memory.wf_iff (m : Memory) : m.wf = true ↔
    spaceWf 5003 m.htab = true ∧ spaceWf 255 m.pkbuf = true ∧ spaceWf 64 m.sb = true ∧ spaceWf 64 m.cb = true ∧
      spaceWf 64 m.qb = true ∧ spaceWf 128 m.qtab = true ∧ spaceWf 128 m.divt = true ∧ spaceWf 1024 m.huft = true := by
  simp [Memory.wf, and_assoc]

/-- The memory right after reset is in canonical form. -/
theorem Memory.wf_blank : Memory.blank.wf = true := rfl

end Sys2Proof.Machine
end

