-- ==== Sys2Proof/Laws/State.lean ====
section
/-! SUPPORT. One lemma per field per update of `State` and of `Memory`, each true by unfolding once, so that no later
proof unfolds a record update. -/

namespace Sys2Proof.Machine

@[simp] theorem State.withFault_fault (s : State) (v : FaultRegs) : (s.withFault v).fault = v := rfl
@[simp] theorem State.withFault_lzw (s : State) (v : FaultRegs) : (s.withFault v).lzw = s.lzw := rfl
@[simp] theorem State.withFault_bp (s : State) (v : FaultRegs) : (s.withFault v).bp = s.bp := rfl
@[simp] theorem State.withFault_pkCnt (s : State) (v : FaultRegs) : (s.withFault v).pkCnt = s.pkCnt := rfl
@[simp] theorem State.withFault_qt (s : State) (v : FaultRegs) : (s.withFault v).qt = s.qt := rfl
@[simp] theorem State.withFault_dct (s : State) (v : FaultRegs) : (s.withFault v).dct = s.dct := rfl
@[simp] theorem State.withFault_huf (s : State) (v : FaultRegs) : (s.withFault v).huf = s.huf := rfl
@[simp] theorem State.withFault_jbp (s : State) (v : FaultRegs) : (s.withFault v).jbp = s.jbp := rfl
@[simp] theorem State.withFault_mem (s : State) (v : FaultRegs) : (s.withFault v).mem = s.mem := rfl
@[simp] theorem State.withFault_out (s : State) (v : FaultRegs) : (s.withFault v).out = s.out := rfl
@[simp] theorem State.withFault_events (s : State) (v : FaultRegs) : (s.withFault v).events = s.events := rfl
@[simp] theorem State.withFault_sink (s : State) (v : FaultRegs) : (s.withFault v).sink = s.sink := rfl
@[simp] theorem State.withFault_freeCount (s : State) (v : FaultRegs) : (s.withFault v).freeCount = s.freeCount := rfl
@[simp] theorem State.withFault_self (s : State) : s.withFault s.fault = s := rfl
@[simp] theorem State.withFault_twice (s : State) (v w : FaultRegs) : (s.withFault v).withFault w = s.withFault w := rfl

@[simp] theorem State.withLzw_fault (s : State) (v : LzwRegs) : (s.withLzw v).fault = s.fault := rfl
@[simp] theorem State.withLzw_lzw (s : State) (v : LzwRegs) : (s.withLzw v).lzw = v := rfl
@[simp] theorem State.withLzw_bp (s : State) (v : LzwRegs) : (s.withLzw v).bp = s.bp := rfl
@[simp] theorem State.withLzw_pkCnt (s : State) (v : LzwRegs) : (s.withLzw v).pkCnt = s.pkCnt := rfl
@[simp] theorem State.withLzw_qt (s : State) (v : LzwRegs) : (s.withLzw v).qt = s.qt := rfl
@[simp] theorem State.withLzw_dct (s : State) (v : LzwRegs) : (s.withLzw v).dct = s.dct := rfl
@[simp] theorem State.withLzw_huf (s : State) (v : LzwRegs) : (s.withLzw v).huf = s.huf := rfl
@[simp] theorem State.withLzw_jbp (s : State) (v : LzwRegs) : (s.withLzw v).jbp = s.jbp := rfl
@[simp] theorem State.withLzw_mem (s : State) (v : LzwRegs) : (s.withLzw v).mem = s.mem := rfl
@[simp] theorem State.withLzw_out (s : State) (v : LzwRegs) : (s.withLzw v).out = s.out := rfl
@[simp] theorem State.withLzw_events (s : State) (v : LzwRegs) : (s.withLzw v).events = s.events := rfl
@[simp] theorem State.withLzw_sink (s : State) (v : LzwRegs) : (s.withLzw v).sink = s.sink := rfl
@[simp] theorem State.withLzw_freeCount (s : State) (v : LzwRegs) : (s.withLzw v).freeCount = s.freeCount := rfl
@[simp] theorem State.withLzw_self (s : State) : s.withLzw s.lzw = s := rfl
@[simp] theorem State.withLzw_twice (s : State) (v w : LzwRegs) : (s.withLzw v).withLzw w = s.withLzw w := rfl

@[simp] theorem State.withBp_fault (s : State) (v : BitAcc) : (s.withBp v).fault = s.fault := rfl
@[simp] theorem State.withBp_lzw (s : State) (v : BitAcc) : (s.withBp v).lzw = s.lzw := rfl
@[simp] theorem State.withBp_bp (s : State) (v : BitAcc) : (s.withBp v).bp = v := rfl
@[simp] theorem State.withBp_pkCnt (s : State) (v : BitAcc) : (s.withBp v).pkCnt = s.pkCnt := rfl
@[simp] theorem State.withBp_qt (s : State) (v : BitAcc) : (s.withBp v).qt = s.qt := rfl
@[simp] theorem State.withBp_dct (s : State) (v : BitAcc) : (s.withBp v).dct = s.dct := rfl
@[simp] theorem State.withBp_huf (s : State) (v : BitAcc) : (s.withBp v).huf = s.huf := rfl
@[simp] theorem State.withBp_jbp (s : State) (v : BitAcc) : (s.withBp v).jbp = s.jbp := rfl
@[simp] theorem State.withBp_mem (s : State) (v : BitAcc) : (s.withBp v).mem = s.mem := rfl
@[simp] theorem State.withBp_out (s : State) (v : BitAcc) : (s.withBp v).out = s.out := rfl
@[simp] theorem State.withBp_events (s : State) (v : BitAcc) : (s.withBp v).events = s.events := rfl
@[simp] theorem State.withBp_sink (s : State) (v : BitAcc) : (s.withBp v).sink = s.sink := rfl
@[simp] theorem State.withBp_freeCount (s : State) (v : BitAcc) : (s.withBp v).freeCount = s.freeCount := rfl
@[simp] theorem State.withBp_self (s : State) : s.withBp s.bp = s := rfl
@[simp] theorem State.withBp_twice (s : State) (v w : BitAcc) : (s.withBp v).withBp w = s.withBp w := rfl

@[simp] theorem State.withPkCnt_fault (s : State) (v : BitVec 8) : (s.withPkCnt v).fault = s.fault := rfl
@[simp] theorem State.withPkCnt_lzw (s : State) (v : BitVec 8) : (s.withPkCnt v).lzw = s.lzw := rfl
@[simp] theorem State.withPkCnt_bp (s : State) (v : BitVec 8) : (s.withPkCnt v).bp = s.bp := rfl
@[simp] theorem State.withPkCnt_pkCnt (s : State) (v : BitVec 8) : (s.withPkCnt v).pkCnt = v := rfl
@[simp] theorem State.withPkCnt_qt (s : State) (v : BitVec 8) : (s.withPkCnt v).qt = s.qt := rfl
@[simp] theorem State.withPkCnt_dct (s : State) (v : BitVec 8) : (s.withPkCnt v).dct = s.dct := rfl
@[simp] theorem State.withPkCnt_huf (s : State) (v : BitVec 8) : (s.withPkCnt v).huf = s.huf := rfl
@[simp] theorem State.withPkCnt_jbp (s : State) (v : BitVec 8) : (s.withPkCnt v).jbp = s.jbp := rfl
@[simp] theorem State.withPkCnt_mem (s : State) (v : BitVec 8) : (s.withPkCnt v).mem = s.mem := rfl
@[simp] theorem State.withPkCnt_out (s : State) (v : BitVec 8) : (s.withPkCnt v).out = s.out := rfl
@[simp] theorem State.withPkCnt_events (s : State) (v : BitVec 8) : (s.withPkCnt v).events = s.events := rfl
@[simp] theorem State.withPkCnt_sink (s : State) (v : BitVec 8) : (s.withPkCnt v).sink = s.sink := rfl
@[simp] theorem State.withPkCnt_freeCount (s : State) (v : BitVec 8) : (s.withPkCnt v).freeCount = s.freeCount := rfl
@[simp] theorem State.withPkCnt_self (s : State) : s.withPkCnt s.pkCnt = s := rfl
@[simp] theorem State.withPkCnt_twice (s : State) (v w : BitVec 8) : (s.withPkCnt v).withPkCnt w = s.withPkCnt w := rfl

@[simp] theorem State.withQt_fault (s : State) (v : QtRegs) : (s.withQt v).fault = s.fault := rfl
@[simp] theorem State.withQt_lzw (s : State) (v : QtRegs) : (s.withQt v).lzw = s.lzw := rfl
@[simp] theorem State.withQt_bp (s : State) (v : QtRegs) : (s.withQt v).bp = s.bp := rfl
@[simp] theorem State.withQt_pkCnt (s : State) (v : QtRegs) : (s.withQt v).pkCnt = s.pkCnt := rfl
@[simp] theorem State.withQt_qt (s : State) (v : QtRegs) : (s.withQt v).qt = v := rfl
@[simp] theorem State.withQt_dct (s : State) (v : QtRegs) : (s.withQt v).dct = s.dct := rfl
@[simp] theorem State.withQt_huf (s : State) (v : QtRegs) : (s.withQt v).huf = s.huf := rfl
@[simp] theorem State.withQt_jbp (s : State) (v : QtRegs) : (s.withQt v).jbp = s.jbp := rfl
@[simp] theorem State.withQt_mem (s : State) (v : QtRegs) : (s.withQt v).mem = s.mem := rfl
@[simp] theorem State.withQt_out (s : State) (v : QtRegs) : (s.withQt v).out = s.out := rfl
@[simp] theorem State.withQt_events (s : State) (v : QtRegs) : (s.withQt v).events = s.events := rfl
@[simp] theorem State.withQt_sink (s : State) (v : QtRegs) : (s.withQt v).sink = s.sink := rfl
@[simp] theorem State.withQt_freeCount (s : State) (v : QtRegs) : (s.withQt v).freeCount = s.freeCount := rfl
@[simp] theorem State.withQt_self (s : State) : s.withQt s.qt = s := rfl
@[simp] theorem State.withQt_twice (s : State) (v w : QtRegs) : (s.withQt v).withQt w = s.withQt w := rfl

@[simp] theorem State.withDct_fault (s : State) (v : DctRegs) : (s.withDct v).fault = s.fault := rfl
@[simp] theorem State.withDct_lzw (s : State) (v : DctRegs) : (s.withDct v).lzw = s.lzw := rfl
@[simp] theorem State.withDct_bp (s : State) (v : DctRegs) : (s.withDct v).bp = s.bp := rfl
@[simp] theorem State.withDct_pkCnt (s : State) (v : DctRegs) : (s.withDct v).pkCnt = s.pkCnt := rfl
@[simp] theorem State.withDct_qt (s : State) (v : DctRegs) : (s.withDct v).qt = s.qt := rfl
@[simp] theorem State.withDct_dct (s : State) (v : DctRegs) : (s.withDct v).dct = v := rfl
@[simp] theorem State.withDct_huf (s : State) (v : DctRegs) : (s.withDct v).huf = s.huf := rfl
@[simp] theorem State.withDct_jbp (s : State) (v : DctRegs) : (s.withDct v).jbp = s.jbp := rfl
@[simp] theorem State.withDct_mem (s : State) (v : DctRegs) : (s.withDct v).mem = s.mem := rfl
@[simp] theorem State.withDct_out (s : State) (v : DctRegs) : (s.withDct v).out = s.out := rfl
@[simp] theorem State.withDct_events (s : State) (v : DctRegs) : (s.withDct v).events = s.events := rfl
@[simp] theorem State.withDct_sink (s : State) (v : DctRegs) : (s.withDct v).sink = s.sink := rfl
@[simp] theorem State.withDct_freeCount (s : State) (v : DctRegs) : (s.withDct v).freeCount = s.freeCount := rfl
@[simp] theorem State.withDct_self (s : State) : s.withDct s.dct = s := rfl
@[simp] theorem State.withDct_twice (s : State) (v w : DctRegs) : (s.withDct v).withDct w = s.withDct w := rfl

@[simp] theorem State.withHuf_fault (s : State) (v : HufRegs) : (s.withHuf v).fault = s.fault := rfl
@[simp] theorem State.withHuf_lzw (s : State) (v : HufRegs) : (s.withHuf v).lzw = s.lzw := rfl
@[simp] theorem State.withHuf_bp (s : State) (v : HufRegs) : (s.withHuf v).bp = s.bp := rfl
@[simp] theorem State.withHuf_pkCnt (s : State) (v : HufRegs) : (s.withHuf v).pkCnt = s.pkCnt := rfl
@[simp] theorem State.withHuf_qt (s : State) (v : HufRegs) : (s.withHuf v).qt = s.qt := rfl
@[simp] theorem State.withHuf_dct (s : State) (v : HufRegs) : (s.withHuf v).dct = s.dct := rfl
@[simp] theorem State.withHuf_huf (s : State) (v : HufRegs) : (s.withHuf v).huf = v := rfl
@[simp] theorem State.withHuf_jbp (s : State) (v : HufRegs) : (s.withHuf v).jbp = s.jbp := rfl
@[simp] theorem State.withHuf_mem (s : State) (v : HufRegs) : (s.withHuf v).mem = s.mem := rfl
@[simp] theorem State.withHuf_out (s : State) (v : HufRegs) : (s.withHuf v).out = s.out := rfl
@[simp] theorem State.withHuf_events (s : State) (v : HufRegs) : (s.withHuf v).events = s.events := rfl
@[simp] theorem State.withHuf_sink (s : State) (v : HufRegs) : (s.withHuf v).sink = s.sink := rfl
@[simp] theorem State.withHuf_freeCount (s : State) (v : HufRegs) : (s.withHuf v).freeCount = s.freeCount := rfl
@[simp] theorem State.withHuf_self (s : State) : s.withHuf s.huf = s := rfl
@[simp] theorem State.withHuf_twice (s : State) (v w : HufRegs) : (s.withHuf v).withHuf w = s.withHuf w := rfl

@[simp] theorem State.withJbp_fault (s : State) (v : BitAcc) : (s.withJbp v).fault = s.fault := rfl
@[simp] theorem State.withJbp_lzw (s : State) (v : BitAcc) : (s.withJbp v).lzw = s.lzw := rfl
@[simp] theorem State.withJbp_bp (s : State) (v : BitAcc) : (s.withJbp v).bp = s.bp := rfl
@[simp] theorem State.withJbp_pkCnt (s : State) (v : BitAcc) : (s.withJbp v).pkCnt = s.pkCnt := rfl
@[simp] theorem State.withJbp_qt (s : State) (v : BitAcc) : (s.withJbp v).qt = s.qt := rfl
@[simp] theorem State.withJbp_dct (s : State) (v : BitAcc) : (s.withJbp v).dct = s.dct := rfl
@[simp] theorem State.withJbp_huf (s : State) (v : BitAcc) : (s.withJbp v).huf = s.huf := rfl
@[simp] theorem State.withJbp_jbp (s : State) (v : BitAcc) : (s.withJbp v).jbp = v := rfl
@[simp] theorem State.withJbp_mem (s : State) (v : BitAcc) : (s.withJbp v).mem = s.mem := rfl
@[simp] theorem State.withJbp_out (s : State) (v : BitAcc) : (s.withJbp v).out = s.out := rfl
@[simp] theorem State.withJbp_events (s : State) (v : BitAcc) : (s.withJbp v).events = s.events := rfl
@[simp] theorem State.withJbp_sink (s : State) (v : BitAcc) : (s.withJbp v).sink = s.sink := rfl
@[simp] theorem State.withJbp_freeCount (s : State) (v : BitAcc) : (s.withJbp v).freeCount = s.freeCount := rfl
@[simp] theorem State.withJbp_self (s : State) : s.withJbp s.jbp = s := rfl
@[simp] theorem State.withJbp_twice (s : State) (v w : BitAcc) : (s.withJbp v).withJbp w = s.withJbp w := rfl

@[simp] theorem State.withMem_fault (s : State) (v : Memory) : (s.withMem v).fault = s.fault := rfl
@[simp] theorem State.withMem_lzw (s : State) (v : Memory) : (s.withMem v).lzw = s.lzw := rfl
@[simp] theorem State.withMem_bp (s : State) (v : Memory) : (s.withMem v).bp = s.bp := rfl
@[simp] theorem State.withMem_pkCnt (s : State) (v : Memory) : (s.withMem v).pkCnt = s.pkCnt := rfl
@[simp] theorem State.withMem_qt (s : State) (v : Memory) : (s.withMem v).qt = s.qt := rfl
@[simp] theorem State.withMem_dct (s : State) (v : Memory) : (s.withMem v).dct = s.dct := rfl
@[simp] theorem State.withMem_huf (s : State) (v : Memory) : (s.withMem v).huf = s.huf := rfl
@[simp] theorem State.withMem_jbp (s : State) (v : Memory) : (s.withMem v).jbp = s.jbp := rfl
@[simp] theorem State.withMem_mem (s : State) (v : Memory) : (s.withMem v).mem = v := rfl
@[simp] theorem State.withMem_out (s : State) (v : Memory) : (s.withMem v).out = s.out := rfl
@[simp] theorem State.withMem_events (s : State) (v : Memory) : (s.withMem v).events = s.events := rfl
@[simp] theorem State.withMem_sink (s : State) (v : Memory) : (s.withMem v).sink = s.sink := rfl
@[simp] theorem State.withMem_freeCount (s : State) (v : Memory) : (s.withMem v).freeCount = s.freeCount := rfl
@[simp] theorem State.withMem_self (s : State) : s.withMem s.mem = s := rfl
@[simp] theorem State.withMem_twice (s : State) (v w : Memory) : (s.withMem v).withMem w = s.withMem w := rfl

@[simp] theorem State.withOut_fault (s : State) (v : List Byte) : (s.withOut v).fault = s.fault := rfl
@[simp] theorem State.withOut_lzw (s : State) (v : List Byte) : (s.withOut v).lzw = s.lzw := rfl
@[simp] theorem State.withOut_bp (s : State) (v : List Byte) : (s.withOut v).bp = s.bp := rfl
@[simp] theorem State.withOut_pkCnt (s : State) (v : List Byte) : (s.withOut v).pkCnt = s.pkCnt := rfl
@[simp] theorem State.withOut_qt (s : State) (v : List Byte) : (s.withOut v).qt = s.qt := rfl
@[simp] theorem State.withOut_dct (s : State) (v : List Byte) : (s.withOut v).dct = s.dct := rfl
@[simp] theorem State.withOut_huf (s : State) (v : List Byte) : (s.withOut v).huf = s.huf := rfl
@[simp] theorem State.withOut_jbp (s : State) (v : List Byte) : (s.withOut v).jbp = s.jbp := rfl
@[simp] theorem State.withOut_mem (s : State) (v : List Byte) : (s.withOut v).mem = s.mem := rfl
@[simp] theorem State.withOut_out (s : State) (v : List Byte) : (s.withOut v).out = v := rfl
@[simp] theorem State.withOut_events (s : State) (v : List Byte) : (s.withOut v).events = s.events := rfl
@[simp] theorem State.withOut_sink (s : State) (v : List Byte) : (s.withOut v).sink = s.sink := rfl
@[simp] theorem State.withOut_freeCount (s : State) (v : List Byte) : (s.withOut v).freeCount = s.freeCount := rfl
@[simp] theorem State.withOut_self (s : State) : s.withOut s.out = s := rfl
@[simp] theorem State.withOut_twice (s : State) (v w : List Byte) : (s.withOut v).withOut w = s.withOut w := rfl

@[simp] theorem State.withEvents_fault (s : State) (v : List HostEvent) : (s.withEvents v).fault = s.fault := rfl
@[simp] theorem State.withEvents_lzw (s : State) (v : List HostEvent) : (s.withEvents v).lzw = s.lzw := rfl
@[simp] theorem State.withEvents_bp (s : State) (v : List HostEvent) : (s.withEvents v).bp = s.bp := rfl
@[simp] theorem State.withEvents_pkCnt (s : State) (v : List HostEvent) : (s.withEvents v).pkCnt = s.pkCnt := rfl
@[simp] theorem State.withEvents_qt (s : State) (v : List HostEvent) : (s.withEvents v).qt = s.qt := rfl
@[simp] theorem State.withEvents_dct (s : State) (v : List HostEvent) : (s.withEvents v).dct = s.dct := rfl
@[simp] theorem State.withEvents_huf (s : State) (v : List HostEvent) : (s.withEvents v).huf = s.huf := rfl
@[simp] theorem State.withEvents_jbp (s : State) (v : List HostEvent) : (s.withEvents v).jbp = s.jbp := rfl
@[simp] theorem State.withEvents_mem (s : State) (v : List HostEvent) : (s.withEvents v).mem = s.mem := rfl
@[simp] theorem State.withEvents_out (s : State) (v : List HostEvent) : (s.withEvents v).out = s.out := rfl
@[simp] theorem State.withEvents_events (s : State) (v : List HostEvent) : (s.withEvents v).events = v := rfl
@[simp] theorem State.withEvents_sink (s : State) (v : List HostEvent) : (s.withEvents v).sink = s.sink := rfl
@[simp] theorem State.withEvents_freeCount (s : State) (v : List HostEvent) : (s.withEvents v).freeCount = s.freeCount := rfl
@[simp] theorem State.withEvents_self (s : State) : s.withEvents s.events = s := rfl
@[simp] theorem State.withEvents_twice (s : State) (v w : List HostEvent) : (s.withEvents v).withEvents w = s.withEvents w := rfl

@[simp] theorem State.withSink_fault (s : State) (v : List SinkReply) : (s.withSink v).fault = s.fault := rfl
@[simp] theorem State.withSink_lzw (s : State) (v : List SinkReply) : (s.withSink v).lzw = s.lzw := rfl
@[simp] theorem State.withSink_bp (s : State) (v : List SinkReply) : (s.withSink v).bp = s.bp := rfl
@[simp] theorem State.withSink_pkCnt (s : State) (v : List SinkReply) : (s.withSink v).pkCnt = s.pkCnt := rfl
@[simp] theorem State.withSink_qt (s : State) (v : List SinkReply) : (s.withSink v).qt = s.qt := rfl
@[simp] theorem State.withSink_dct (s : State) (v : List SinkReply) : (s.withSink v).dct = s.dct := rfl
@[simp] theorem State.withSink_huf (s : State) (v : List SinkReply) : (s.withSink v).huf = s.huf := rfl
@[simp] theorem State.withSink_jbp (s : State) (v : List SinkReply) : (s.withSink v).jbp = s.jbp := rfl
@[simp] theorem State.withSink_mem (s : State) (v : List SinkReply) : (s.withSink v).mem = s.mem := rfl
@[simp] theorem State.withSink_out (s : State) (v : List SinkReply) : (s.withSink v).out = s.out := rfl
@[simp] theorem State.withSink_events (s : State) (v : List SinkReply) : (s.withSink v).events = s.events := rfl
@[simp] theorem State.withSink_sink (s : State) (v : List SinkReply) : (s.withSink v).sink = v := rfl
@[simp] theorem State.withSink_freeCount (s : State) (v : List SinkReply) : (s.withSink v).freeCount = s.freeCount := rfl
@[simp] theorem State.withSink_self (s : State) : s.withSink s.sink = s := rfl
@[simp] theorem State.withSink_twice (s : State) (v w : List SinkReply) : (s.withSink v).withSink w = s.withSink w := rfl

@[simp] theorem State.withFreeCount_fault (s : State) (v : Nat) : (s.withFreeCount v).fault = s.fault := rfl
@[simp] theorem State.withFreeCount_lzw (s : State) (v : Nat) : (s.withFreeCount v).lzw = s.lzw := rfl
@[simp] theorem State.withFreeCount_bp (s : State) (v : Nat) : (s.withFreeCount v).bp = s.bp := rfl
@[simp] theorem State.withFreeCount_pkCnt (s : State) (v : Nat) : (s.withFreeCount v).pkCnt = s.pkCnt := rfl
@[simp] theorem State.withFreeCount_qt (s : State) (v : Nat) : (s.withFreeCount v).qt = s.qt := rfl
@[simp] theorem State.withFreeCount_dct (s : State) (v : Nat) : (s.withFreeCount v).dct = s.dct := rfl
@[simp] theorem State.withFreeCount_huf (s : State) (v : Nat) : (s.withFreeCount v).huf = s.huf := rfl
@[simp] theorem State.withFreeCount_jbp (s : State) (v : Nat) : (s.withFreeCount v).jbp = s.jbp := rfl
@[simp] theorem State.withFreeCount_mem (s : State) (v : Nat) : (s.withFreeCount v).mem = s.mem := rfl
@[simp] theorem State.withFreeCount_out (s : State) (v : Nat) : (s.withFreeCount v).out = s.out := rfl
@[simp] theorem State.withFreeCount_events (s : State) (v : Nat) : (s.withFreeCount v).events = s.events := rfl
@[simp] theorem State.withFreeCount_sink (s : State) (v : Nat) : (s.withFreeCount v).sink = s.sink := rfl
@[simp] theorem State.withFreeCount_freeCount (s : State) (v : Nat) : (s.withFreeCount v).freeCount = v := rfl
@[simp] theorem State.withFreeCount_self (s : State) : s.withFreeCount s.freeCount = s := rfl
@[simp] theorem State.withFreeCount_twice (s : State) (v w : Nat) : (s.withFreeCount v).withFreeCount w = s.withFreeCount w := rfl

@[simp] theorem Memory.withHtab_htab (m : Memory) (v : Space HSlot) : (m.withHtab v).htab = v := rfl
@[simp] theorem Memory.withHtab_pkbuf (m : Memory) (v : Space HSlot) : (m.withHtab v).pkbuf = m.pkbuf := rfl
@[simp] theorem Memory.withHtab_sb (m : Memory) (v : Space HSlot) : (m.withHtab v).sb = m.sb := rfl
@[simp] theorem Memory.withHtab_cb (m : Memory) (v : Space HSlot) : (m.withHtab v).cb = m.cb := rfl
@[simp] theorem Memory.withHtab_qb (m : Memory) (v : Space HSlot) : (m.withHtab v).qb = m.qb := rfl
@[simp] theorem Memory.withHtab_qtab (m : Memory) (v : Space HSlot) : (m.withHtab v).qtab = m.qtab := rfl
@[simp] theorem Memory.withHtab_divt (m : Memory) (v : Space HSlot) : (m.withHtab v).divt = m.divt := rfl
@[simp] theorem Memory.withHtab_huft (m : Memory) (v : Space HSlot) : (m.withHtab v).huft = m.huft := rfl
@[simp] theorem Memory.withHtab_self (m : Memory) : m.withHtab m.htab = m := rfl
@[simp] theorem Memory.withHtab_twice (m : Memory) (v w : Space HSlot) : (m.withHtab v).withHtab w = m.withHtab w := rfl

@[simp] theorem Memory.withPkbuf_htab (m : Memory) (v : Space Byte) : (m.withPkbuf v).htab = m.htab := rfl
@[simp] theorem Memory.withPkbuf_pkbuf (m : Memory) (v : Space Byte) : (m.withPkbuf v).pkbuf = v := rfl
@[simp] theorem Memory.withPkbuf_sb (m : Memory) (v : Space Byte) : (m.withPkbuf v).sb = m.sb := rfl
@[simp] theorem Memory.withPkbuf_cb (m : Memory) (v : Space Byte) : (m.withPkbuf v).cb = m.cb := rfl
@[simp] theorem Memory.withPkbuf_qb (m : Memory) (v : Space Byte) : (m.withPkbuf v).qb = m.qb := rfl
@[simp] theorem Memory.withPkbuf_qtab (m : Memory) (v : Space Byte) : (m.withPkbuf v).qtab = m.qtab := rfl
@[simp] theorem Memory.withPkbuf_divt (m : Memory) (v : Space Byte) : (m.withPkbuf v).divt = m.divt := rfl
@[simp] theorem Memory.withPkbuf_huft (m : Memory) (v : Space Byte) : (m.withPkbuf v).huft = m.huft := rfl
@[simp] theorem Memory.withPkbuf_self (m : Memory) : m.withPkbuf m.pkbuf = m := rfl
@[simp] theorem Memory.withPkbuf_twice (m : Memory) (v w : Space Byte) : (m.withPkbuf v).withPkbuf w = m.withPkbuf w := rfl

@[simp] theorem Memory.withSb_htab (m : Memory) (v : Space Byte) : (m.withSb v).htab = m.htab := rfl
@[simp] theorem Memory.withSb_pkbuf (m : Memory) (v : Space Byte) : (m.withSb v).pkbuf = m.pkbuf := rfl
@[simp] theorem Memory.withSb_sb (m : Memory) (v : Space Byte) : (m.withSb v).sb = v := rfl
@[simp] theorem Memory.withSb_cb (m : Memory) (v : Space Byte) : (m.withSb v).cb = m.cb := rfl
@[simp] theorem Memory.withSb_qb (m : Memory) (v : Space Byte) : (m.withSb v).qb = m.qb := rfl
@[simp] theorem Memory.withSb_qtab (m : Memory) (v : Space Byte) : (m.withSb v).qtab = m.qtab := rfl
@[simp] theorem Memory.withSb_divt (m : Memory) (v : Space Byte) : (m.withSb v).divt = m.divt := rfl
@[simp] theorem Memory.withSb_huft (m : Memory) (v : Space Byte) : (m.withSb v).huft = m.huft := rfl
@[simp] theorem Memory.withSb_self (m : Memory) : m.withSb m.sb = m := rfl
@[simp] theorem Memory.withSb_twice (m : Memory) (v w : Space Byte) : (m.withSb v).withSb w = m.withSb w := rfl

@[simp] theorem Memory.withCb_htab (m : Memory) (v : Space (BitVec 80)) : (m.withCb v).htab = m.htab := rfl
@[simp] theorem Memory.withCb_pkbuf (m : Memory) (v : Space (BitVec 80)) : (m.withCb v).pkbuf = m.pkbuf := rfl
@[simp] theorem Memory.withCb_sb (m : Memory) (v : Space (BitVec 80)) : (m.withCb v).sb = m.sb := rfl
@[simp] theorem Memory.withCb_cb (m : Memory) (v : Space (BitVec 80)) : (m.withCb v).cb = v := rfl
@[simp] theorem Memory.withCb_qb (m : Memory) (v : Space (BitVec 80)) : (m.withCb v).qb = m.qb := rfl
@[simp] theorem Memory.withCb_qtab (m : Memory) (v : Space (BitVec 80)) : (m.withCb v).qtab = m.qtab := rfl
@[simp] theorem Memory.withCb_divt (m : Memory) (v : Space (BitVec 80)) : (m.withCb v).divt = m.divt := rfl
@[simp] theorem Memory.withCb_huft (m : Memory) (v : Space (BitVec 80)) : (m.withCb v).huft = m.huft := rfl
@[simp] theorem Memory.withCb_self (m : Memory) : m.withCb m.cb = m := rfl
@[simp] theorem Memory.withCb_twice (m : Memory) (v w : Space (BitVec 80)) : (m.withCb v).withCb w = m.withCb w := rfl

@[simp] theorem Memory.withQb_htab (m : Memory) (v : Space (BitVec 16)) : (m.withQb v).htab = m.htab := rfl
@[simp] theorem Memory.withQb_pkbuf (m : Memory) (v : Space (BitVec 16)) : (m.withQb v).pkbuf = m.pkbuf := rfl
@[simp] theorem Memory.withQb_sb (m : Memory) (v : Space (BitVec 16)) : (m.withQb v).sb = m.sb := rfl
@[simp] theorem Memory.withQb_cb (m : Memory) (v : Space (BitVec 16)) : (m.withQb v).cb = m.cb := rfl
@[simp] theorem Memory.withQb_qb (m : Memory) (v : Space (BitVec 16)) : (m.withQb v).qb = v := rfl
@[simp] theorem Memory.withQb_qtab (m : Memory) (v : Space (BitVec 16)) : (m.withQb v).qtab = m.qtab := rfl
@[simp] theorem Memory.withQb_divt (m : Memory) (v : Space (BitVec 16)) : (m.withQb v).divt = m.divt := rfl
@[simp] theorem Memory.withQb_huft (m : Memory) (v : Space (BitVec 16)) : (m.withQb v).huft = m.huft := rfl
@[simp] theorem Memory.withQb_self (m : Memory) : m.withQb m.qb = m := rfl
@[simp] theorem Memory.withQb_twice (m : Memory) (v w : Space (BitVec 16)) : (m.withQb v).withQb w = m.withQb w := rfl

@[simp] theorem Memory.withQtab_htab (m : Memory) (v : Space Byte) : (m.withQtab v).htab = m.htab := rfl
@[simp] theorem Memory.withQtab_pkbuf (m : Memory) (v : Space Byte) : (m.withQtab v).pkbuf = m.pkbuf := rfl
@[simp] theorem Memory.withQtab_sb (m : Memory) (v : Space Byte) : (m.withQtab v).sb = m.sb := rfl
@[simp] theorem Memory.withQtab_cb (m : Memory) (v : Space Byte) : (m.withQtab v).cb = m.cb := rfl
@[simp] theorem Memory.withQtab_qb (m : Memory) (v : Space Byte) : (m.withQtab v).qb = m.qb := rfl
@[simp] theorem Memory.withQtab_qtab (m : Memory) (v : Space Byte) : (m.withQtab v).qtab = v := rfl
@[simp] theorem Memory.withQtab_divt (m : Memory) (v : Space Byte) : (m.withQtab v).divt = m.divt := rfl
@[simp] theorem Memory.withQtab_huft (m : Memory) (v : Space Byte) : (m.withQtab v).huft = m.huft := rfl
@[simp] theorem Memory.withQtab_self (m : Memory) : m.withQtab m.qtab = m := rfl
@[simp] theorem Memory.withQtab_twice (m : Memory) (v w : Space Byte) : (m.withQtab v).withQtab w = m.withQtab w := rfl

@[simp] theorem Memory.withDivt_htab (m : Memory) (v : Space (BitVec 72)) : (m.withDivt v).htab = m.htab := rfl
@[simp] theorem Memory.withDivt_pkbuf (m : Memory) (v : Space (BitVec 72)) : (m.withDivt v).pkbuf = m.pkbuf := rfl
@[simp] theorem Memory.withDivt_sb (m : Memory) (v : Space (BitVec 72)) : (m.withDivt v).sb = m.sb := rfl
@[simp] theorem Memory.withDivt_cb (m : Memory) (v : Space (BitVec 72)) : (m.withDivt v).cb = m.cb := rfl
@[simp] theorem Memory.withDivt_qb (m : Memory) (v : Space (BitVec 72)) : (m.withDivt v).qb = m.qb := rfl
@[simp] theorem Memory.withDivt_qtab (m : Memory) (v : Space (BitVec 72)) : (m.withDivt v).qtab = m.qtab := rfl
@[simp] theorem Memory.withDivt_divt (m : Memory) (v : Space (BitVec 72)) : (m.withDivt v).divt = v := rfl
@[simp] theorem Memory.withDivt_huft (m : Memory) (v : Space (BitVec 72)) : (m.withDivt v).huft = m.huft := rfl
@[simp] theorem Memory.withDivt_self (m : Memory) : m.withDivt m.divt = m := rfl
@[simp] theorem Memory.withDivt_twice (m : Memory) (v w : Space (BitVec 72)) : (m.withDivt v).withDivt w = m.withDivt w := rfl

@[simp] theorem Memory.withHuft_htab (m : Memory) (v : Space HCode) : (m.withHuft v).htab = m.htab := rfl
@[simp] theorem Memory.withHuft_pkbuf (m : Memory) (v : Space HCode) : (m.withHuft v).pkbuf = m.pkbuf := rfl
@[simp] theorem Memory.withHuft_sb (m : Memory) (v : Space HCode) : (m.withHuft v).sb = m.sb := rfl
@[simp] theorem Memory.withHuft_cb (m : Memory) (v : Space HCode) : (m.withHuft v).cb = m.cb := rfl
@[simp] theorem Memory.withHuft_qb (m : Memory) (v : Space HCode) : (m.withHuft v).qb = m.qb := rfl
@[simp] theorem Memory.withHuft_qtab (m : Memory) (v : Space HCode) : (m.withHuft v).qtab = m.qtab := rfl
@[simp] theorem Memory.withHuft_divt (m : Memory) (v : Space HCode) : (m.withHuft v).divt = m.divt := rfl
@[simp] theorem Memory.withHuft_huft (m : Memory) (v : Space HCode) : (m.withHuft v).huft = v := rfl
@[simp] theorem Memory.withHuft_self (m : Memory) : m.withHuft m.huft = m := rfl
@[simp] theorem Memory.withHuft_twice (m : Memory) (v w : Space HCode) : (m.withHuft v).withHuft w = m.withHuft w := rfl

/-- Two states are equal when all thirteen fields are. -/
theorem State.ext_fields (s t : State) (h_fault : s.fault = t.fault) (h_lzw : s.lzw = t.lzw) (h_bp : s.bp = t.bp) (h_pkCnt : s.pkCnt = t.pkCnt) (h_qt : s.qt = t.qt) (h_dct : s.dct = t.dct) (h_huf : s.huf = t.huf)
    (h_jbp : s.jbp = t.jbp) (h_mem : s.mem = t.mem) (h_out : s.out = t.out) (h_events : s.events = t.events) (h_sink : s.sink = t.sink) (h_freeCount : s.freeCount = t.freeCount) : s = t := by
  cases s; cases t; simp_all

end Sys2Proof.Machine
end

