-- ==== Sys2Proof/Laws/Ops.lean ====
section
/-! SUPPORT. What the shared operations can do: how a result goes on, what the sink does with bytes, what trap entry
and the resets leave. -/

namespace Sys2Proof.Machine

@[simp] theorem Res.andThen_done (s : State) (k : State → Res) : (Res.done s).andThen k = k s := rfl
@[simp] theorem Res.andThen_raised (c : Cause) (s : State) (k : State → Res) :
    (Res.raised c s).andThen k = .raised c s := rfl
@[simp] theorem Res.andThen_stopped (f : Fault) (k : State → Res) : (Res.stopped f).andThen k = .stopped f := rfl

theorem Res.andThen_assoc (r : Res) (k l : State → Res) :
    (r.andThen k).andThen l = r.andThen (fun s => (k s).andThen l) := by
  cases r <;> rfl

/-- A sequence runs to its end exactly when both parts do. -/
theorem Res.andThen_eq_done {r : Res} {k : State → Res} {t : State} (h : r.andThen k = .done t) :
    ∃ s, r = .done s ∧ k s = .done t := by
  cases r with
  | done s => exact ⟨s, rfl, h⟩
  | raised c s => cases h
  | stopped f => cases h

/-- A sequence raises what its first part raises, or what its second part raises after the first ran to its end. -/
theorem Res.andThen_eq_raised {r : Res} {k : State → Res} {c : Cause} {t : State} (h : r.andThen k = .raised c t) :
    r = .raised c t ∨ ∃ s, r = .done s ∧ k s = .raised c t := by
  cases r with
  | done s => exact .inr ⟨s, rfl, h⟩
  | raised c' s => exact .inl h
  | stopped f => cases h

theorem Res.andThen_eq_stopped {r : Res} {k : State → Res} {f : Fault} (h : r.andThen k = .stopped f) :
    r = .stopped f ∨ ∃ s, r = .done s ∧ k s = .stopped f := by
  cases r with
  | done s => exact .inr ⟨s, rfl, h⟩
  | raised c s => cases h
  | stopped f' => exact .inl h

/-- Every state that `r` ends in satisfies `P` when it ran to its end and `Q` when it raised a fault; the stops it
can make satisfy `F`. One predicate for all that a procedure can do. -/
def Res.Ends (P : State → Prop) (Q : Cause → State → Prop) (F : Fault → Prop) (r : Res) : Prop :=
  match r with
  | .done s => P s
  | .raised c s => Q c s
  | .stopped f => F f

@[simp] theorem Res.ends_done {P : State → Prop} {Q : Cause → State → Prop} {F : Fault → Prop} (s : State) :
    (Res.done s).Ends P Q F ↔ P s := Iff.rfl
@[simp] theorem Res.ends_raised {P : State → Prop} {Q : Cause → State → Prop} {F : Fault → Prop} (c : Cause)
    (s : State) : (Res.raised c s).Ends P Q F ↔ Q c s := Iff.rfl
@[simp] theorem Res.ends_stopped {P : State → Prop} {Q : Cause → State → Prop} {F : Fault → Prop} (f : Fault) :
    (Res.stopped f).Ends P Q F ↔ F f := Iff.rfl

theorem Res.Ends.andThen {P R : State → Prop} {Q : Cause → State → Prop} {F : Fault → Prop} {r : Res}
    {k : State → Res} (hr : r.Ends P Q F) (hk : ∀ s, P s → (k s).Ends R Q F) : (r.andThen k).Ends R Q F := by
  cases r with
  | done s => exact hk s hr
  | raised c s => exact hr
  | stopped f => exact hr

theorem Res.Ends.mono {P P' : State → Prop} {Q Q' : Cause → State → Prop} {F F' : Fault → Prop} {r : Res}
    (hr : r.Ends P Q F) (hP : ∀ s, P s → P' s) (hQ : ∀ c s, Q c s → Q' c s) (hF : ∀ f, F f → F' f) :
    r.Ends P' Q' F' := by
  cases r with
  | done s => exact hP s hr
  | raised c s => exact hQ c s hr
  | stopped f => exact hF f hr

/-- `require` passes on or raises its cause. -/
theorem require_true {p : Bool} {c : Cause} {k : State → Res} {s : State} (h : p = true) : require p c k s = k s := by
  simp [require, h]

theorem require_false {p : Bool} {c : Cause} {k : State → Res} {s : State} (h : p = false) :
    require p c k s = .raised c s := by simp [require, h]

theorem withValues_true {p : Bool} {k : State → Res} {s : State} (h : p = true) : withValues p k s = k s := by
  simp [withValues, h]

theorem withValues_false {p : Bool} {k : State → Res} {s : State} (h : p = false) :
    withValues p k s = .stopped .noValue := by simp [withValues, h]

@[simp] theorem conclude_done (w : Word) (s : State) : conclude w (.done s) = .next s := rfl
@[simp] theorem conclude_raised (w : Word) (c : Cause) (s : State) :
    conclude w (.raised c s) = .next (trapEntry c w s) := rfl
@[simp] theorem conclude_stopped (w : Word) (f : Fault) : conclude w (.stopped f) = .fault f := rfl

/-- A command that answers a next state ran to its end or took a fault. -/
theorem conclude_eq_next {w : Word} {r : Res} {t : State} (h : conclude w r = .next t) :
    r = .done t ∨ ∃ c s, r = .raised c s ∧ t = trapEntry c w s := by
  cases r with
  | done s => cases h; exact .inl rfl
  | raised c s => cases h; exact .inr ⟨c, s, rfl, rfl⟩
  | stopped f => cases h

theorem conclude_eq_fault {w : Word} {r : Res} {f : Fault} (h : conclude w r = .fault f) : r = .stopped f := by
  cases r with
  | done s => cases h
  | raised c s => cases h
  | stopped f' => cases h; rfl

/-- Everything `SinkWrite` can do (00_scope.md R15, 20_memory.md R77, R81). -/
theorem sinkWrite_cases (b : Byte) (s : State) :
    (sinkWrite b s = .done ((s.withOut (s.out ++ [b])).withSink s.sink.tail) ∧ s.sink.head? ≠ some .refuse ∧
        s.sink.head? ≠ some .never) ∨
      (sinkWrite b s = .raised .sinkError (s.withSink s.sink.tail) ∧ s.sink.head? = some .refuse) ∨
      (sinkWrite b s = .stopped .sinkNeverReady ∧ s.sink.head? = some .never) := by
  obtain ⟨f, l, bp, pk, qt, d, h, j, m, o, e, sink, n⟩ := s
  cases sink with
  | nil => exact .inl ⟨rfl, by simp, by simp⟩
  | cons r rest =>
    cases r with
    | accept => exact .inl ⟨rfl, by simp, by simp⟩
    | refuse => exact .inr (.inl ⟨rfl, rfl⟩)
    | never => exact .inr (.inr ⟨rfl, rfl⟩)

/-- Consecutive writes to a sink that accepts as many bytes: all of them go to OUT, in order (R76). -/
theorem sinkWrites_of_accept (bs : List Byte) (s : State) (h : ∀ r ∈ s.sink.take bs.length, r = SinkReply.accept) :
    sinkWrites bs s = .done ((s.withOut (s.out ++ bs)).withSink (s.sink.drop bs.length)) := by
  induction bs generalizing s with
  | nil => simp [sinkWrites]
  | cons b rest ih =>
    unfold sinkWrites
    cases hs : s.sink with
    | nil =>
      have hw : sinkWrite b s = .done (s.withOut (s.out ++ [b])) := by simp [sinkWrite, hs]
      rw [hw, Res.andThen_done, ih _ (by simp [hs])]
      simp [State.withOut, State.withSink, hs]
    | cons r sink =>
      have hr : r = .accept := h r (by simp [hs])
      subst hr
      have hw : sinkWrite b s = .done ((s.withOut (s.out ++ [b])).withSink sink) := by simp [sinkWrite, hs]
      rw [hw, Res.andThen_done, ih _ (by
        intro r hr
        refine h r ?_
        rw [hs]
        simp only [List.length_cons, List.take_succ_cons, List.mem_cons]
        exact .inr (by simpa using hr))]
      simp [State.withOut, State.withSink]

/-- Everything consecutive writes can do: OUT grows by what was accepted, the answers are used up, nothing else
changes. -/
theorem sinkWrites_ends (bs : List Byte) (s : State) :
    (sinkWrites bs s).Ends
      (fun t => t = (s.withOut (s.out ++ bs)).withSink (s.sink.drop bs.length))
      (fun c t => c = .sinkError ∧ ∃ k, k < bs.length ∧
        t = (s.withOut (s.out ++ bs.take k)).withSink (s.sink.drop (k + 1)))
      (fun f => f = .sinkNeverReady) := by
  induction bs generalizing s with
  | nil => simp [sinkWrites]
  | cons b rest ih =>
    unfold sinkWrites
    rcases sinkWrite_cases b s with ⟨h, -, -⟩ | ⟨h, -⟩ | ⟨h, -⟩
    · rw [h, Res.andThen_done]
      refine (ih _).mono ?_ ?_ (fun f hf => hf)
      · rintro t rfl
        simp [State.withOut, State.withSink, Nat.add_comm]
      · rintro c t ⟨rfl, k, hk, rfl⟩
        refine ⟨rfl, k + 1, by simpa using hk, ?_⟩
        simp [State.withOut, State.withSink, Nat.add_comm]
    · rw [h]
      refine ⟨rfl, 0, by simp, ?_⟩
      simp [State.withOut, State.withSink]
    · rw [h]; rfl

/-- What trap entry leaves in the elements that R312 fixes. -/
@[simp] theorem trapEntry_fault (c : Cause) (w : Word) (s : State) :
    (trapEntry c w s).fault = { faulted := true, code := c.toCode, cmd := w } := rfl
@[simp] theorem trapEntry_out (c : Cause) (w : Word) (s : State) : (trapEntry c w s).out = s.out := rfl
@[simp] theorem trapEntry_events (c : Cause) (w : Word) (s : State) : (trapEntry c w s).events = s.events := rfl
@[simp] theorem trapEntry_sink (c : Cause) (w : Word) (s : State) : (trapEntry c w s).sink = s.sink := rfl
@[simp] theorem trapEntry_mem (c : Cause) (w : Word) (s : State) : (trapEntry c w s).mem = Memory.blank := rfl

/-- What CTL.RESET leaves in the elements that R39 fixes. -/
@[simp] theorem resetElements_fault (s : State) :
    (resetElements s).fault = { faulted := false, code := 0, cmd := 0 } := rfl
@[simp] theorem resetElements_active (s : State) : (resetElements s).lzw.active = false := rfl
@[simp] theorem resetElements_havePrefix (s : State) : (resetElements s).lzw.havePrefix = false := rfl
@[simp] theorem resetElements_bp (s : State) : (resetElements s).bp = { acc := 0, cnt := 0 } := rfl
@[simp] theorem resetElements_pkCnt (s : State) : (resetElements s).pkCnt = 0 := rfl
@[simp] theorem resetElements_qtValid (s : State) : (resetElements s).qt.valid = false := rfl
@[simp] theorem resetElements_dct (s : State) :
    (resetElements s).dct = { sbWr := 0, cbValid := false, qbWr := 0 } := rfl
@[simp] theorem resetElements_huf (s : State) :
    (resetElements s).huf = { valid := false, pred0 := 0, pred1 := 0, pred2 := 0 } := rfl
@[simp] theorem resetElements_jbp (s : State) : (resetElements s).jbp = { acc := 0, cnt := 0 } := rfl
@[simp] theorem resetElements_mem (s : State) : (resetElements s).mem = Memory.blank := rfl
@[simp] theorem resetElements_out (s : State) : (resetElements s).out = s.out := rfl
@[simp] theorem resetElements_events (s : State) : (resetElements s).events = s.events := rfl
@[simp] theorem resetElements_sink (s : State) : (resetElements s).sink = s.sink := rfl

end Sys2Proof.Machine
end

