-- ==== Sys2Proof/Laws/Dct.lean ====
section
/-! SUPPORT. The JPEG arithmetic and the flags: what the one-dimensional pass computes (43_dct.md R215), what the rounding
division answers (R220), the range of a quantum value (42_quant.md R195), the written-masks (10_state.md R32), and a
fault raised by a check at the head of a command (60_exceptions.md R313). -/

namespace Sys2Proof.Machine

/-- `Pass1D` is the printed matrix (R215). -/
theorem rowGet_pass1D (d : Row8) {k : Nat} (hk : k < 8) :
    rowGet (pass1D d) k = sum8 (fun n => dctMatrix k n * rowGet d n) := by
  interval_cases k <;> simp [rowGet, pass1D, sum8, dctMatrix, e9, k707, k382, k541, k1306] <;> ring

/-- `RoundDiv` is the nearest integer, a tie going up (R220). -/
theorem roundDiv_spec (num : Int) {den : Nat} (h : 0 < den) :
    2 * den * roundDiv num den ≤ 2 * num + den ∧ 2 * num + den < 2 * den * (roundDiv num den + 1) := by
  unfold roundDiv
  have hpos : (0 : Int) < 2 * den := by positivity
  refine ⟨Int.mul_ediv_self_le (ne_of_gt hpos), ?_⟩
  have := Int.lt_mul_ediv_self_add (x := 2 * num + den) hpos
  linarith

/-- A quantum value is in 1..255 (R195). -/
theorem quantum_range (scale base : Nat) : 1 ≤ quantum scale base ∧ quantum scale base ≤ 255 := by
  unfold quantum clamp quantMin quantMax
  split
  · omega
  · split <;> omega

theorem allOnes_iff (m : BitVec 64) : allOnes m = true ↔ m = BitVec.allOnes 64 := by simp [allOnes]

theorem allOnes_eq_false {m : BitVec 64} {k : Nat} (hk : k < 64) (h : m.getLsbD k = false) : allOnes m = false := by
  rw [Bool.eq_false_iff, Ne, allOnes_iff]
  rintro rfl
  rw [BitVec.getLsbD_allOnes] at h
  simp [hk] at h

/-- The written bit of one index, and no other (R283, R284). -/
theorem markWritten_getLsbD (m : BitVec 64) {idx k : Nat} (hk : k < 64) :
    (markWritten m idx).getLsbD k = true ↔ k = idx ∨ m.getLsbD k = true := by
  unfold markWritten
  rw [BitVec.getLsbD_or, BitVec.getLsbD_twoPow]
  simp only [Bool.or_eq_true, Bool.and_eq_true, decide_eq_true_eq]
  constructor
  · rintro (h | ⟨-, rfl⟩)
    · exact .inr h
    · exact .inl rfl
  · rintro (rfl | h)
    · exact .inr ⟨hk, rfl⟩
    · exact .inl h

/-- A check that fails at the head of a command raises its fault from the command's first state (R16, R313). -/
theorem raisesAtOnce_conclude (c : Cause) (w : Word) (s : State) :
    RaisesAtOnce c.toCode w s (conclude w (.raised c s)) := ⟨_, rfl, rfl, rfl, rfl, rfl⟩

end Sys2Proof.Machine
end

