-- ==== Sys2Proof/Laws/Issue.lean ====
section
/-! SUPPORT. What a step can do: how a command word is taken, and what the reset pin leaves, between commands and in the
middle of one. -/

namespace Sys2Proof.Machine

/-- The reset pin leaves what CTL.RESET leaves, and a new OUT (70_reset_and_hazards.md R342). -/
@[simp] theorem hardReset_fault (s : State) : (hardReset s).fault = { faulted := false, code := 0, cmd := 0 } := rfl
@[simp] theorem hardReset_active (s : State) : (hardReset s).lzw.active = false := rfl
@[simp] theorem hardReset_mem (s : State) : (hardReset s).mem = Memory.blank := rfl
@[simp] theorem hardReset_out (s : State) : (hardReset s).out = [] := rfl
@[simp] theorem hardReset_events (s : State) : (hardReset s).events = s.events := rfl
@[simp] theorem hardReset_sink (s : State) : (hardReset s).sink = s.sink := rfl

@[simp] theorem withdrawOffer_events (s : State) : (withdrawOffer s).events = s.events := rfl
@[simp] theorem withdrawOffer_sink (s : State) : (withdrawOffer s).sink = repliesAfterOffer s.sink := rfl
@[simp] theorem withdrawOffer_out (s : State) : (withdrawOffer s).out = [] := rfl

/-- After `k` accepted bytes the byte not taken is the next one: its answer goes with it, the later ones stay. -/
@[simp] theorem repliesAfterOffer_accepted (k : Nat) (rest : List SinkReply) :
    repliesAfterOffer (List.replicate k .accept ++ .never :: rest) = rest := by
  induction k with
  | zero => rfl
  | succ j ih => exact ih

/-- The answers left are the tail of those there were. -/
theorem repliesAfterOffer_suffix (rs : List SinkReply) : repliesAfterOffer rs <:+ rs := by
  induction rs with
  | nil => exact List.suffix_rfl
  | cons r rest ih =>
    cases r with
    | accept => exact ih.trans (List.suffix_cons _ _)
    | refuse => exact ih.trans (List.suffix_cons _ _)
    | never => exact List.suffix_cons _ _

/-- What one command word can do (45_control_and_buffers.md R280): it is discarded, runs, or is illegal. -/
theorem runCommand_cases (w : Word) (s : State) :
    (discards s w = true ∧ runCommand w s = .next s) ∨
      (discards s w = false ∧ ∃ i, decode w = .ok i ∧ runCommand w s = exec i s) ∨
      (discards s w = false ∧ (∃ e, decode w = .error e) ∧
        runCommand w s = .next (trapEntry .illegalCommand w s)) := by
  unfold runCommand
  cases hd : discards s w with
  | true => exact .inl ⟨rfl, rfl⟩
  | false =>
    cases hw : decode w with
    | ok i => exact .inr (.inl ⟨rfl, i, rfl, rfl⟩)
    | error e => exact .inr (.inr ⟨rfl, ⟨e, rfl⟩, rfl⟩)

/-- The two ways in which a taken command word leads to a next state: its command ends, or the reset pin ends its wait
for the sink. -/
theorem takeCommand_cases {w : Word} {s t : State} (h : takeCommand w s = .next t) :
    runCommand w s = .next t ∨
      (runCommand w s = .fault .sinkNeverReady ∧ HostEvent.resetPin ∈ s.events ∧
        t = withdrawOffer (s.withEvents (s.events.erase HostEvent.resetPin))) := by
  unfold takeCommand at h
  split at h
  next _ hr => cases h; exact .inl hr
  next hr =>
    unfold pinEndsWait at h
    split at h
    next hp => cases h; exact .inr ⟨hr, hp, rfl⟩
    next => cases h
  next => cases h
  next => cases h

/-- The two ways in which an abandoned command leads to a next state. -/
theorem takeAbandoned_cases {w : Word} {s t : State} (h : takeAbandoned w s = .next t) :
    (∃ u, runCommand w s = .next u ∧ t = hardReset u) ∨
      (runCommand w s = .fault .sinkNeverReady ∧ t = withdrawOffer s) := by
  unfold takeAbandoned at h
  split at h
  next u hr => cases h; exact .inl ⟨u, hr, rfl⟩
  next hr => cases h; exact .inr ⟨hr, rfl⟩
  next => cases h
  next => cases h

/-- Everything a step can do: nothing is offered; a command ends; the pin is pulsed between commands; or it ends a
command that waits or runs. -/
theorem step_cases {s t : State} (h : step s = .next t) :
    (s.events = [] ∧ t = s) ∨
      (∃ w rest, s.events = .command w :: rest ∧ runCommand w (s.withEvents rest) = .next t) ∨
      (∃ w rest, s.events = .command w :: rest ∧ runCommand w (s.withEvents rest) = .fault .sinkNeverReady ∧
        HostEvent.resetPin ∈ rest ∧ t = withdrawOffer (s.withEvents (rest.erase HostEvent.resetPin))) ∨
      (∃ rest, s.events = .resetPin :: rest ∧ t = hardReset (s.withEvents rest)) ∨
      (∃ w rest u, s.events = .resetDuring w :: rest ∧ runCommand w (s.withEvents rest) = .next u ∧
        t = hardReset u) ∨
      (∃ w rest, s.events = .resetDuring w :: rest ∧ runCommand w (s.withEvents rest) = .fault .sinkNeverReady ∧
        t = withdrawOffer (s.withEvents rest)) := by
  unfold step runEvent at h
  split at h
  next he => cases h; exact .inl ⟨he, rfl⟩
  next w rest he =>
    rcases takeCommand_cases h with hr | ⟨hr, hp, ht⟩
    · exact .inr (.inl ⟨w, rest, he, hr⟩)
    · exact .inr (.inr (.inl ⟨w, rest, he, hr, hp, ht⟩))
  next rest he => cases h; exact .inr (.inr (.inr (.inl ⟨rest, he, rfl⟩)))
  next w rest he =>
    rcases takeAbandoned_cases h with ⟨u, hr, ht⟩ | ⟨hr, ht⟩
    · exact .inr (.inr (.inr (.inr (.inl ⟨w, rest, u, he, hr, ht⟩))))
    · exact .inr (.inr (.inr (.inr (.inr ⟨w, rest, he, hr, ht⟩))))

end Sys2Proof.Machine
end

