-- ==== Sys2Proof/Laws/Jpeg.lean ====
section
/-! SUPPORT. The JPEG bit-packer and the Huffman encoder (44_huffman.md): what each procedure can do. -/

namespace Sys2Proof.Machine

/-- Only the JPEG bit-packer, OUT and the sink's answers may differ (20_memory.md R63). -/
def JbpFrame (s t : State) : Prop := t = ((s.withJbp t.jbp).withOut t.out).withSink t.sink

theorem JbpFrame.refl (s : State) : JbpFrame s s := rfl

theorem JbpFrame.trans {s t u : State} (h1 : JbpFrame s t) (h2 : JbpFrame t u) : JbpFrame s u := by
  unfold JbpFrame at *
  rw [h2, h1]
  rfl

theorem JbpFrame.mem {s t : State} (h : JbpFrame s t) : t.mem = s.mem := by rw [h]; rfl
theorem JbpFrame.huf {s t : State} (h : JbpFrame s t) : t.huf = s.huf := by rw [h]; rfl
theorem JbpFrame.dct {s t : State} (h : JbpFrame s t) : t.dct = s.dct := by rw [h]; rfl
theorem JbpFrame.qt {s t : State} (h : JbpFrame s t) : t.qt = s.qt := by rw [h]; rfl
theorem JbpFrame.lzw {s t : State} (h : JbpFrame s t) : t.lzw = s.lzw := by rw [h]; rfl
theorem JbpFrame.bp {s t : State} (h : JbpFrame s t) : t.bp = s.bp := by rw [h]; rfl
theorem JbpFrame.pkCnt {s t : State} (h : JbpFrame s t) : t.pkCnt = s.pkCnt := by rw [h]; rfl
theorem JbpFrame.fault {s t : State} (h : JbpFrame s t) : t.fault = s.fault := by rw [h]; rfl
theorem JbpFrame.events {s t : State} (h : JbpFrame s t) : t.events = s.events := by rw [h]; rfl
theorem JbpFrame.freeCount {s t : State} (h : JbpFrame s t) : t.freeCount = s.freeCount := by rw [h]; rfl

/-- What any procedure of the Huffman encoder can do: the frame, OUT only grows, the one fault is SINK_ERROR, and the
stops are those of a code without a value or of a sink that is never ready. -/
def JbpEnds (s : State) (P : State → Prop) (r : Res) : Prop :=
  r.Ends (fun t => JbpFrame s t ∧ s.out <+: t.out ∧ P t)
    (fun c t => c = .sinkError ∧ JbpFrame s t ∧ s.out <+: t.out)
    (fun f => f = .noValue ∨ f = .sinkNeverReady)

theorem JbpEnds.mono {s : State} {P P' : State → Prop} {r : Res} (h : JbpEnds s P r)
    (hP : ∀ t, JbpFrame s t → P t → P' t) : JbpEnds s P' r :=
  Res.Ends.mono h (fun t ht => ⟨ht.1, ht.2.1, hP t ht.1 ht.2.2⟩) (fun _ _ h => h) (fun _ h => h)

theorem JbpEnds.andThen {s : State} {P Q : State → Prop} {r : Res} {k : State → Res} (h : JbpEnds s P r)
    (hk : ∀ t, JbpFrame s t → P t → JbpEnds t Q (k t)) : JbpEnds s Q (r.andThen k) := by
  refine Res.Ends.andThen h (fun t ht => ?_)
  refine Res.Ends.mono (hk t ht.1 ht.2.2) ?_ ?_ (fun _ h => h)
  · rintro u ⟨hf, ho, hq⟩
    exact ⟨ht.1.trans hf, ht.2.1.trans ho, hq⟩
  · rintro c u ⟨hc, hf, ho⟩
    exact ⟨hc, ht.1.trans hf, ht.2.1.trans ho⟩

theorem jbpEnds_withJbp {s : State} {P : State → Prop} {r : Res} (b : BitAcc) (h : JbpEnds (s.withJbp b) P r) :
    JbpEnds s P r :=
  Res.Ends.mono h (fun _ ht => ⟨JbpFrame.trans (by rfl) ht.1, ht.2⟩)
    (fun _ _ ht => ⟨ht.1, JbpFrame.trans (by rfl) ht.2.1, ht.2.2⟩) (fun _ h => h)

theorem sinkWrites_jbpEnds (bs : List Byte) (s : State) :
    JbpEnds s (fun t => t = (s.withOut (s.out ++ bs)).withSink (s.sink.drop bs.length)) (sinkWrites bs s) := by
  refine Res.Ends.mono (sinkWrites_ends bs s) ?_ ?_ ?_
  · rintro t rfl
    exact ⟨rfl, ⟨bs, rfl⟩, rfl⟩
  · rintro c t ⟨hc, k, -, rfl⟩
    exact ⟨hc, rfl, ⟨bs.take k, rfl⟩⟩
  · rintro f rfl
    exact .inr rfl

/-- One round of the drain loop of `JBPWrite`: the accumulator after the eight oldest bits have left. -/
def dropOldest (a : BitAcc) : BitAcc :=
  { acc := BitVec.ofNat 32 (low a.acc.toNat (a.cnt.toNat - 8)), cnt := BitVec.ofNat 6 (a.cnt.toNat - 8) }

/-- Everything the drain loop of `JBPWrite` can do (R251). -/
theorem jbpDrain_jbpEnds (k : Nat) (s : State) :
    JbpEnds s (fun t => t.jbp = (dropOldest^[k]) s.jbp) (jbpDrain k s) := by
  induction k generalizing s with
  | zero => exact ⟨rfl, ⟨[], by simp⟩, rfl⟩
  | succ k ih =>
    unfold jbpDrain
    refine (sinkWrites_jbpEnds _ s).andThen (fun t ht hP => ?_)
    have hj : t.jbp = s.jbp := by rw [hP]; rfl
    refine jbpEnds_withJbp _ ((ih _).mono (fun u _ hu => ?_))
    rw [hu, Function.iterate_succ_apply, ← hj]
    rfl

/-- The accumulator as `JBPWrite` loads it (R251), before bytes leave. -/
def loadJbp (a : BitAcc) (code n : Nat) : BitAcc :=
  { acc := BitVec.ofNat 32 ((a.acc.toNat * 2 ^ n) ||| low code n), cnt := BitVec.ofNat 6 (a.cnt.toNat + n) }

/-- Everything `JBPWrite` can do (R251). -/
theorem jbpWrite_jbpEnds (code n : Nat) (s : State) :
    JbpEnds s (fun t => t.jbp = (dropOldest^[(loadJbp s.jbp code n).cnt.toNat / 8]) (loadJbp s.jbp code n))
      (jbpWrite code n s) :=
  jbpEnds_withJbp (loadJbp s.jbp code n) (jbpDrain_jbpEnds _ _)

/-- Everything `JBPFlush` can do (R252). -/
theorem jbpFlush_jbpEnds (s : State) :
    JbpEnds s (fun t => t.jbp.cnt = 0 ∧ (s.jbp.cnt = 0 → t = s)) (jbpFlush s) := by
  unfold jbpFlush
  split
  · next h => exact ⟨rfl, ⟨[], by simp⟩, h, fun _ => rfl⟩
  · next h =>
    have := sinkWrites_jbpEnds [BitVec.ofNat 8 (s.jbp.acc.toNat * 2 ^ (8 - s.jbp.cnt.toNat))] s
    have hone : ∀ b, sinkWrites [b] s = sinkWrite b s := by
      intro b
      show (sinkWrite b s).andThen Res.done = sinkWrite b s
      cases sinkWrite b s <;> rfl
    rw [hone] at this
    refine this.andThen (fun t _ _ => ⟨rfl, ⟨[], by simp⟩, rfl, fun h0 => absurd h0 h⟩)

/-- Everything `EmitSym` can do (R256). -/
theorem emitSym_jbpEnds (t sym : Nat) (s : State) : JbpEnds s (fun _ => True) (emitSym t sym s) := by
  unfold emitSym
  split
  · exact .inl rfl
  · exact (jbpWrite_jbpEnds _ _ s).mono (fun _ _ _ => trivial)

theorem emitZrl_jbpEnds (acT k : Nat) (s : State) : JbpEnds s (fun _ => True) (emitZrl acT k s) := by
  induction k generalizing s with
  | zero => exact ⟨rfl, ⟨[], by simp⟩, trivial⟩
  | succ k ih => exact (emitSym_jbpEnds acT zrl s).andThen (fun t _ _ => ih t)

theorem emitCoeff_jbpEnds (acT r : Nat) (v : Int) (s : State) : JbpEnds s (fun _ => True) (emitCoeff acT r v s) :=
  (emitZrl_jbpEnds acT _ s).andThen (fun t _ _ => (emitSym_jbpEnds acT _ t).andThen (fun u _ _ =>
    (jbpWrite_jbpEnds _ _ u).mono (fun _ _ _ => trivial)))

/-- Everything the AC scan can do (R257). -/
theorem scanAc_jbpEnds (acT : Nat) (vs : List Int) (r : Nat) (s : State) :
    JbpEnds s (fun _ => True) (scanAc acT vs r s) := by
  induction vs generalizing r s with
  | nil =>
    unfold scanAc
    split
    · exact emitSym_jbpEnds acT eob s
    · exact ⟨rfl, ⟨[], by simp⟩, trivial⟩
  | cons v rest ih =>
    unfold scanAc
    split
    · exact ih (r + 1) s
    · exact (emitCoeff_jbpEnds acT r v s).andThen (fun t _ _ => ih 0 t)

/-- Everything the DC term can do (R257). -/
theorem emitDc_jbpEnds (dcT : Nat) (diff : Int) (s : State) : JbpEnds s (fun _ => True) (emitDc dcT diff s) := by
  unfold emitDc
  refine (emitSym_jbpEnds dcT _ s).andThen (fun t _ _ => ?_)
  split
  · exact (jbpWrite_jbpEnds _ _ t).mono (fun _ _ _ => trivial)
  · exact ⟨rfl, ⟨[], by simp⟩, trivial⟩

end Sys2Proof.Machine
end

