-- ==== Sys2Proof/Laws/Packer.lean ====
section
/-! SUPPORT. The packet writer and the GIF bit-packer (40_bitpacker_packetizer.md): what each procedure leaves alone in
every outcome, and what it does when the sink accepts. -/

namespace Sys2Proof.Machine

/-- Only the packers' state, PKBUF, OUT and the sink's answers may differ (20_memory.md R63). -/
def PackFrame (s t : State) : Prop :=
  t = ((((s.withBp t.bp).withPkCnt t.pkCnt).withMem (s.mem.withPkbuf t.mem.pkbuf)).withOut t.out).withSink t.sink

theorem PackFrame.refl (s : State) : PackFrame s s := rfl

theorem PackFrame.trans {s t u : State} (h1 : PackFrame s t) (h2 : PackFrame t u) : PackFrame s u := by
  unfold PackFrame at *
  rw [h2, h1]
  rfl

theorem PackFrame.fault {s t : State} (h : PackFrame s t) : t.fault = s.fault := by rw [h]; rfl
theorem PackFrame.lzw {s t : State} (h : PackFrame s t) : t.lzw = s.lzw := by rw [h]; rfl
theorem PackFrame.qt {s t : State} (h : PackFrame s t) : t.qt = s.qt := by rw [h]; rfl
theorem PackFrame.dct {s t : State} (h : PackFrame s t) : t.dct = s.dct := by rw [h]; rfl
theorem PackFrame.huf {s t : State} (h : PackFrame s t) : t.huf = s.huf := by rw [h]; rfl
theorem PackFrame.jbp {s t : State} (h : PackFrame s t) : t.jbp = s.jbp := by rw [h]; rfl
theorem PackFrame.events {s t : State} (h : PackFrame s t) : t.events = s.events := by rw [h]; rfl
theorem PackFrame.freeCount {s t : State} (h : PackFrame s t) : t.freeCount = s.freeCount := by rw [h]; rfl
theorem PackFrame.mem {s t : State} (h : PackFrame s t) : t.mem = s.mem.withPkbuf t.mem.pkbuf := by
  conv_lhs => rw [h]
  rfl

/-- What any packer procedure can do: the frame, OUT only grows, the one fault is SINK_ERROR, and the stops are those
of an access without a value, of an index past PKBUF, or of a sink that is never ready. -/
def PackEnds (s : State) (P : State → Prop) (r : Res) : Prop :=
  r.Ends (fun t => PackFrame s t ∧ s.out <+: t.out ∧ P t)
    (fun c t => c = .sinkError ∧ PackFrame s t ∧ s.out <+: t.out)
    (fun f => f = .noValue ∨ f = .noSuchElement ∨ f = .sinkNeverReady)

theorem PackEnds.mono {s : State} {P P' : State → Prop} {r : Res} (h : PackEnds s P r)
    (hP : ∀ t, PackFrame s t → P t → P' t) : PackEnds s P' r :=
  Res.Ends.mono h (fun t ht => ⟨ht.1, ht.2.1, hP t ht.1 ht.2.2⟩) (fun _ _ h => h) (fun _ h => h)

theorem PackEnds.andThen {s : State} {P Q : State → Prop} {r : Res} {k : State → Res} (h : PackEnds s P r)
    (hk : ∀ t, PackFrame s t → P t → PackEnds t Q (k t)) : PackEnds s Q (r.andThen k) := by
  refine Res.Ends.andThen h (fun t ht => ?_)
  refine Res.Ends.mono (hk t ht.1 ht.2.2) ?_ ?_ (fun _ h => h)
  · rintro u ⟨hf, ho, hq⟩
    exact ⟨ht.1.trans hf, ht.2.1.trans ho, hq⟩
  · rintro c u ⟨hc, hf, ho⟩
    exact ⟨hc, ht.1.trans hf, ht.2.1.trans ho⟩

theorem packFrame_withBp (s : State) (b : BitAcc) : PackFrame s (s.withBp b) := rfl
theorem packFrame_withPkCnt (s : State) (v : BitVec 8) : PackFrame s (s.withPkCnt v) := rfl
theorem packFrame_withOutSink (s : State) (o : List Byte) (k : List SinkReply) :
    PackFrame s ((s.withOut o).withSink k) := rfl
theorem packFrame_withPkbuf (s : State) (m : Space Byte) : PackFrame s (s.withMem (s.mem.withPkbuf m)) := rfl

/-- `SinkWrite` calls, in the packers' terms. -/
theorem sinkWrites_packEnds (bs : List Byte) (s : State) :
    PackEnds s (fun t => t = (s.withOut (s.out ++ bs)).withSink (s.sink.drop bs.length)) (sinkWrites bs s) := by
  refine Res.Ends.mono (sinkWrites_ends bs s) ?_ ?_ ?_
  · rintro t rfl
    exact ⟨rfl, ⟨bs, rfl⟩, rfl⟩
  · rintro c t ⟨hc, k, -, rfl⟩
    exact ⟨hc, rfl, ⟨bs.take k, rfl⟩⟩
  · rintro f rfl
    exact .inr (.inr rfl)

/-- Everything `PKFlush` can do (R135). -/
theorem pkFlush_packEnds (s : State) :
    PackEnds s (fun t => t.bp = s.bp ∧ t.mem = s.mem ∧ t.pkCnt = 0) (pkFlush s) := by
  unfold pkFlush
  split
  · next h => exact ⟨rfl, ⟨[], by simp⟩, rfl, rfl, h⟩
  · split
    · exact .inl rfl
    · refine (sinkWrites_packEnds _ s).andThen ?_
      rintro t - rfl
      exact ⟨rfl, ⟨[], by simp⟩, rfl, rfl, rfl⟩

/-- Everything `PKWrite` can do (R134): one byte stored at index PK_CNT, nothing else of PKBUF. -/
theorem pkWrite_packEnds (b : Byte) (s : State) :
    PackEnds s (fun t => t.bp = s.bp ∧ s.pkCnt.toNat < 255 ∧ t.mem.pkbuf = spaceWrite s.mem.pkbuf s.pkCnt.toNat b ∧
        t.pkCnt.toNat = (s.pkCnt.toNat + 1) % 255) (pkWrite b s) := by
  unfold pkWrite
  split
  · exact .inr (.inl rfl)
  · next m hm =>
    obtain ⟨hlt, rfl⟩ := spaceStore_eq_some hm
    have hlt' : s.pkCnt.toNat < 255 := hlt
    simp only
    split
    · next hfull =>
      have h254 : s.pkCnt.toNat + 1 = 255 := by
        simpa [pkBlockMax, Nat.mod_eq_of_lt (show s.pkCnt.toNat + 1 < 256 by omega)] using hfull
      refine Res.Ends.mono (pkFlush_packEnds _) ?_ ?_ (fun _ h => h)
      · rintro t ⟨hf, ho, hbp, hmem, hcnt⟩
        refine ⟨PackFrame.trans (by rfl) hf, ho, hbp, hlt', ?_, ?_⟩
        · rw [hmem]; rfl
        · rw [hcnt, h254]; rfl
      · rintro c t ⟨hc, hf, ho⟩
        exact ⟨hc, PackFrame.trans (by rfl) hf, ho⟩
    · next hpart =>
      have hne : s.pkCnt.toNat + 1 ≠ 255 := by
        simpa [pkBlockMax, Nat.mod_eq_of_lt (show s.pkCnt.toNat + 1 < 256 by omega)] using hpart
      refine ⟨rfl, ⟨[], by simp⟩, rfl, hlt', rfl, ?_⟩
      simp only [State.withPkCnt_pkCnt, BitVec.toNat_ofNat]
      omega

/-- The buffer's contents do not depend on what was there, and its first bytes survive a store past them. -/
theorem packetOk_of_write {s t : State} {b : Byte} (hs : PacketOk s)
    (hbuf : t.mem.pkbuf = spaceWrite s.mem.pkbuf s.pkCnt.toNat b)
    (hcnt : t.pkCnt.toNat = (s.pkCnt.toNat + 1) % 255) : PacketOk t := by
  refine ⟨by omega, fun i hi => ?_⟩
  rw [hbuf, spaceRead_write]
  split
  · rfl
  · exact hs.2 i (by omega)

/-- `PKWrite` keeps the packet buffer good. -/
theorem pkWrite_keeps_packet {b : Byte} {s t : State} (hs : PacketOk s) (h : pkWrite b s = .done t) : PacketOk t := by
  have := pkWrite_packEnds b s
  rw [h] at this
  obtain ⟨-, -, -, -, hbuf, hcnt⟩ := this
  exact packetOk_of_write hs hbuf hcnt

/-- `PKFlush` keeps the packet buffer good. -/
theorem pkFlush_keeps_packet {s t : State} (h : pkFlush s = .done t) : PacketOk t := by
  have := pkFlush_packEnds s
  rw [h] at this
  obtain ⟨-, -, -, -, hcnt⟩ := this
  refine ⟨by rw [hcnt]; decide, fun i hi => ?_⟩
  rw [hcnt] at hi
  exact absurd hi (Nat.not_lt_zero i)

/-- One round of the drain loop of `BPWrite`: the accumulator after a byte has left. -/
def dropByte (a : BitAcc) : BitAcc :=
  { acc := BitVec.ofNat 32 (a.acc.toNat / 2 ^ 8), cnt := BitVec.ofNat 6 (a.cnt.toNat - 8) }

/-- The accumulator after `k` bytes have left. -/
theorem dropBytes_acc (k : Nat) (a : BitAcc) :
    ((dropByte^[k]) a).acc.toNat = a.acc.toNat / 2 ^ (8 * k) := by
  induction k generalizing a with
  | zero => simp
  | succ k ih =>
    rw [Function.iterate_succ_apply, ih]
    have h1 : a.acc.toNat / 2 ^ 8 < 2 ^ 32 := lt_of_le_of_lt (Nat.div_le_self _ _) a.acc.isLt
    simp only [dropByte, BitVec.toNat_ofNat, Nat.mod_eq_of_lt h1, Nat.div_div_eq_div_mul, ← pow_add]
    congr 2
    ring

theorem dropBytes_cnt (k : Nat) (a : BitAcc) : ((dropByte^[k]) a).cnt.toNat = a.cnt.toNat - 8 * k := by
  induction k generalizing a with
  | zero => simp
  | succ k ih =>
    rw [Function.iterate_succ_apply, ih]
    have h1 : a.cnt.toNat - 8 < 2 ^ 6 := lt_of_le_of_lt (Nat.sub_le _ _) a.cnt.isLt
    simp only [dropByte, BitVec.toNat_ofNat, Nat.mod_eq_of_lt h1]
    omega

/-- Everything the drain loop of `BPWrite` can do (R131). -/
theorem bpDrain_packEnds (k : Nat) (s : State) :
    PackEnds s (fun t => t.bp = (dropByte^[k]) s.bp ∧ (PacketOk s → PacketOk t)) (bpDrain k s) := by
  induction k generalizing s with
  | zero => exact ⟨rfl, ⟨[], by simp⟩, rfl, fun h => h⟩
  | succ k ih =>
    unfold bpDrain
    refine (pkWrite_packEnds _ s).andThen (fun t ht hP => ?_)
    obtain ⟨hbp, -, hbuf, hcnt⟩ := hP
    have := ih (t.withBp (dropByte t.bp))
    refine Res.Ends.mono this ?_ ?_ (fun _ h => h)
    · rintro u ⟨hf, ho, hu, hok⟩
      refine ⟨PackFrame.trans (packFrame_withBp t _) hf, ho, ?_, fun hs => hok (packetOk_of_write hs hbuf hcnt)⟩
      rw [hu, State.withBp_bp, hbp, Function.iterate_succ_apply]
    · rintro c u ⟨hc, hf, ho⟩
      exact ⟨hc, PackFrame.trans (packFrame_withBp t _) hf, ho⟩

theorem low_natCast (v n : Nat) : low (v : Int) n = v % 2 ^ n := by
  unfold low
  exact_mod_cast Int.toNat_natCast _

/-- The pending bits and new bits above them, as one number. -/
theorem or_shifted_eq_add {a c v n : Nat} (ha : a < 2 ^ c) : a ||| (v % 2 ^ n * 2 ^ c) = a + v % 2 ^ n * 2 ^ c := by
  rw [Nat.or_comm, Nat.mul_comm, Nat.add_comm, Nat.two_pow_add_eq_or_of_lt ha]

/-- The accumulator as `BPWrite` loads it (R131), before bytes leave. -/
def loadAcc (a : BitAcc) (code n : Nat) : BitAcc :=
  { acc := BitVec.ofNat 32 (a.acc.toNat ||| (low code n * 2 ^ a.cnt.toNat)), cnt := BitVec.ofNat 6 (a.cnt.toNat + n) }

/-- On a good accumulator and a width of at most 16 nothing is lost (R131: at most 23 bits). -/
theorem loadAcc_toNat {a : BitAcc} (ha : AccOk a) (code : Nat) {n : Nat} (hn : n ≤ 16) :
    (loadAcc a code n).acc.toNat = a.acc.toNat + code % 2 ^ n * 2 ^ a.cnt.toNat ∧
      (loadAcc a code n).cnt.toNat = a.cnt.toNat + n := by
  obtain ⟨hc, hlt⟩ := ha
  have hb : a.acc.toNat + code % 2 ^ n * 2 ^ a.cnt.toNat < 2 ^ (a.cnt.toNat + n) := by
    have h1 : code % 2 ^ n < 2 ^ n := Nat.mod_lt _ (by positivity)
    have h2 : (code % 2 ^ n + 1) * 2 ^ a.cnt.toNat ≤ 2 ^ n * 2 ^ a.cnt.toNat := Nat.mul_le_mul_right _ h1
    rw [pow_add, Nat.mul_comm (2 ^ a.cnt.toNat)]
    nlinarith
  have h32 : 2 ^ (a.cnt.toNat + n) ≤ 2 ^ 32 := Nat.pow_le_pow_right (by norm_num) (by omega)
  constructor
  · simp only [loadAcc, low_natCast, or_shifted_eq_add hlt, BitVec.toNat_ofNat]
    exact Nat.mod_eq_of_lt (lt_of_lt_of_le hb h32)
  · simp only [loadAcc, BitVec.toNat_ofNat]
    exact Nat.mod_eq_of_lt (by omega)

/-- The value of the loaded accumulator fits its count. -/
theorem loadAcc_fits {a : BitAcc} (ha : AccOk a) (code : Nat) {n : Nat} (hn : n ≤ 16) :
    (loadAcc a code n).acc.toNat < 2 ^ (loadAcc a code n).cnt.toNat := by
  obtain ⟨h1, h2⟩ := loadAcc_toNat ha code hn
  rw [h1, h2]
  have hm : code % 2 ^ n < 2 ^ n := Nat.mod_lt _ (by positivity)
  have h3 : (code % 2 ^ n + 1) * 2 ^ a.cnt.toNat ≤ 2 ^ n * 2 ^ a.cnt.toNat := Nat.mul_le_mul_right _ hm
  have h4 := ha.2
  rw [pow_add, Nat.mul_comm (2 ^ a.cnt.toNat)]
  nlinarith

/-- Taking all whole bytes out of an accumulator whose value fits leaves a good one (R131). -/
theorem accOk_dropBytes {a : BitAcc} (h : a.acc.toNat < 2 ^ a.cnt.toNat) :
    AccOk ((dropByte^[a.cnt.toNat / 8]) a) := by
  unfold AccOk
  rw [dropBytes_acc, dropBytes_cnt]
  refine ⟨by omega, ?_⟩
  rw [Nat.div_lt_iff_lt_mul (by positivity), ← pow_add]
  exact lt_of_lt_of_le h (Nat.pow_le_pow_right (by norm_num) (by omega))

/-- Everything `BPWrite` can do (R131). -/
theorem bpWrite_packEnds (code n : Nat) (s : State) :
    PackEnds s (fun t => t.bp = (dropByte^[(loadAcc s.bp code n).cnt.toNat / 8]) (loadAcc s.bp code n) ∧
      (PacketOk s → PacketOk t)) (bpWrite code n s) := by
  unfold bpWrite
  refine Res.Ends.mono (bpDrain_packEnds _ _) ?_ ?_ (fun _ h => h)
  · rintro t ⟨hf, ho, hb, hok⟩
    exact ⟨PackFrame.trans (packFrame_withBp s _) hf, ho, hb, fun hs => hok hs⟩
  · rintro c t ⟨hc, hf, ho⟩
    exact ⟨hc, PackFrame.trans (packFrame_withBp s _) hf, ho⟩

/-- Everything `BPFlush` can do (R132). -/
theorem bpFlush_packEnds (s : State) :
    PackEnds s (fun t => t.bp.cnt = 0 ∧ (s.bp.cnt = 0 → t.bp = s.bp) ∧ (s.bp.cnt ≠ 0 → t.bp.acc = 0) ∧ t.pkCnt = 0)
      (bpFlush s) := by
  unfold bpFlush
  split
  · next h =>
    refine (pkFlush_packEnds s).mono ?_
    rintro t - ⟨hb, -, hc⟩
    exact ⟨by rw [hb, h], fun _ => hb, fun hne => absurd h hne, hc⟩
  · next h =>
    refine (pkWrite_packEnds _ s).andThen (fun t ht hP => ?_)
    refine Res.Ends.mono (pkFlush_packEnds _) ?_ ?_ (fun _ h => h)
    · rintro u ⟨hf, ho, hb, -, hc⟩
      refine ⟨PackFrame.trans (packFrame_withBp t _) hf, ho, ?_, fun h0 => absurd h0 h, fun _ => ?_, hc⟩
      · rw [hb]; rfl
      · rw [hb]; rfl
    · rintro c u ⟨hc, hf, ho⟩
      exact ⟨hc, PackFrame.trans (packFrame_withBp t _) hf, ho⟩

end Sys2Proof.Machine
end

