-- ==== Sys2Proof/Laws/PackerOut.lean ====
section
/-! SUPPORT. What the packers hand to a sink that accepts: the block structure of 40_bitpacker_packetizer.md R140 and the
bytes of R133. -/

namespace Sys2Proof.Machine

theorem fullBlocks_succ (k : Nat) (bs : List Byte) :
    fullBlocks (k + 1) bs = 255 :: bs.take 255 ++ fullBlocks k (bs.drop 255) := rfl

theorem fullBlocks_append (k : Nat) (xs ys : List Byte) (h : 255 * k ≤ xs.length) :
    fullBlocks k (xs ++ ys) = fullBlocks k xs := by
  induction k generalizing xs with
  | zero => rfl
  | succ k ih =>
    rw [fullBlocks_succ, fullBlocks_succ, List.take_append_of_le_length (by omega),
      List.drop_append_of_le_length (by omega), ih _ (by rw [List.length_drop]; omega)]

theorem fullBlocks_add (j k : Nat) (xs : List Byte) :
    fullBlocks (j + k) xs = fullBlocks j xs ++ fullBlocks k (xs.drop (255 * j)) := by
  induction j generalizing xs with
  | zero => simp [fullBlocks]
  | succ j ih =>
    rw [show j + 1 + k = (j + k) + 1 by omega]
    rw [fullBlocks_succ, fullBlocks_succ, ih, List.drop_drop, List.append_assoc, show 255 + 255 * j = 255 * (j + 1) by omega]

theorem packetLeft_length (xs : List Byte) : (packetLeft xs).length = xs.length % 255 := by
  unfold packetLeft
  rw [List.length_drop]
  omega

theorem packetLeft_length_lt (xs : List Byte) : (packetLeft xs).length < 255 := by
  rw [packetLeft_length]; omega

/-- Blocks come out one after another: what was left over goes in front of what follows (R140). -/
theorem packetOut_append (xs ys : List Byte) : packetOut (xs ++ ys) = packetOut xs ++ packetOut (packetLeft xs ++ ys) := by
  unfold packetOut
  have hlen : (packetLeft xs ++ ys).length = (xs ++ ys).length - 255 * (xs.length / 255) := by
    rw [List.length_append, packetLeft_length, List.length_append]; omega
  have hk : (xs ++ ys).length / 255 = xs.length / 255 + (packetLeft xs ++ ys).length / 255 := by
    rw [hlen, List.length_append]; omega
  rw [hk, fullBlocks_add, fullBlocks_append _ _ _ (by omega), packetLeft,
    List.drop_append_of_le_length (by omega)]

theorem packetLeft_append (xs ys : List Byte) : packetLeft (xs ++ ys) = packetLeft (packetLeft xs ++ ys) := by
  have h : packetLeft xs ++ ys = (xs ++ ys).drop (255 * (xs.length / 255)) := by
    rw [packetLeft, List.drop_append_of_le_length (by omega)]
  rw [h]
  unfold packetLeft
  rw [List.drop_drop, List.length_drop, List.length_append]
  congr 1
  omega

theorem packetOut_of_short {xs : List Byte} (h : xs.length < 255) : packetOut xs = [] := by
  unfold packetOut
  rw [Nat.div_eq_of_lt h]
  rfl

theorem packetLeft_of_short {xs : List Byte} (h : xs.length < 255) : packetLeft xs = xs := by
  unfold packetLeft
  rw [Nat.div_eq_of_lt h]
  rfl

theorem packetOut_of_full {xs : List Byte} (h : xs.length = 255) : packetOut xs = 255 :: xs := by
  unfold packetOut
  rw [h]
  simp [fullBlocks, List.take_of_length_le (Nat.le_of_eq h)]

theorem packetLeft_of_full {xs : List Byte} (h : xs.length = 255) : packetLeft xs = [] := by
  unfold packetLeft
  rw [h]
  simp [h]

@[simp] theorem bufferedBytes_length (s : State) : (bufferedBytes s).length = s.pkCnt.toNat := by
  simp [bufferedBytes]

theorem bufferedBytes_of_zero {s : State} (h : s.pkCnt = 0) : bufferedBytes s = [] := by
  simp [bufferedBytes, h]

/-- The buffered bytes are the slice that `PKFlush` reads. -/
theorem spaceSlice_bufferedBytes {s : State} (hs : PacketOk s) :
    spaceSlice s.mem.pkbuf 0 s.pkCnt.toNat = some (bufferedBytes s) := by
  obtain ⟨l, hl⟩ := spaceSlice_isSome (m := s.mem.pkbuf) (i := 0) (n := s.pkCnt.toNat)
    (fun k hk => by simpa using hs.2 k hk)
  rw [hl]
  obtain ⟨hlen, hget⟩ := spaceSlice_eq_some hl
  congr 1
  refine List.ext_getElem (by simp [hlen]) (fun k h1 h2 => ?_)
  have hk : k < s.pkCnt.toNat := by omega
  have h3 := hget k hk
  rw [Nat.zero_add, List.getElem?_eq_getElem h1] at h3
  simp [bufferedBytes, ← h3]

theorem sinkAccepts_drop {s : State} (h : SinkAccepts s) (n : Nat) (o : List Byte) :
    SinkAccepts ((s.withOut o).withSink (s.sink.drop n)) := fun r hr => h r (List.mem_of_mem_drop hr)

/-- Consecutive writes to an accepting sink. -/
theorem sinkWrites_accepts {s : State} (h : SinkAccepts s) (bs : List Byte) :
    sinkWrites bs s = .done ((s.withOut (s.out ++ bs)).withSink (s.sink.drop bs.length)) :=
  sinkWrites_of_accept bs s (fun r hr => h r (List.mem_of_mem_take hr))

/-- `PKFlush` with an accepting sink (R135). -/
theorem pkFlush_accepts {s : State} (hs : PacketOk s) (ha : SinkAccepts s) :
    ∃ t, pkFlush s = .done t ∧ SinkAccepts t ∧ t.out = s.out ++ lastBlock (bufferedBytes s) := by
  unfold pkFlush
  split
  · next h => exact ⟨s, rfl, ha, by simp [lastBlock, bufferedBytes_of_zero h]⟩
  · next h =>
    rw [spaceSlice_bufferedBytes hs]
    simp only [sinkWrites_accepts ha, Res.andThen_done]
    refine ⟨_, rfl, fun r hr => ha r (List.mem_of_mem_drop hr), ?_⟩
    have hne : bufferedBytes s ≠ [] := by
      intro h0
      have := congrArg List.length h0
      rw [bufferedBytes_length] at this
      exact h (BitVec.eq_of_toNat_eq (by simpa using this))
    simp [lastBlock, hne]

/-- The buffer after a byte was stored at PK_CNT and counted. -/
theorem bufferedBytes_store {s t : State} {b : Byte} (hbuf : t.mem.pkbuf = spaceWrite s.mem.pkbuf s.pkCnt.toNat b)
    (hcnt : t.pkCnt.toNat = s.pkCnt.toNat + 1) : bufferedBytes t = bufferedBytes s ++ [b] := by
  unfold bufferedBytes
  rw [hcnt, List.range_succ, List.map_append, hbuf]
  congr 1
  · refine List.map_congr_left (fun i hi => ?_)
    have : i ≠ s.pkCnt.toNat := by have := List.mem_range.mp hi; omega
    rw [spaceRead_write_other _ _ this]
  · simp

/-- `PKWrite` with an accepting sink: one more byte through the packet writer (R134, R140). -/
theorem pkWrite_accepts {s : State} (b : Byte) (hs : PacketOk s) (ha : SinkAccepts s) :
    ∃ t, pkWrite b s = .done t ∧ SinkAccepts t ∧ t.out = s.out ++ packetOut (bufferedBytes s ++ [b]) ∧
      bufferedBytes t = packetLeft (bufferedBytes s ++ [b]) := by
  have hlt : s.pkCnt.toNat < 255 := by have := hs.1; omega
  have h256 : (s.pkCnt.toNat + 1) % 256 = s.pkCnt.toNat + 1 := Nat.mod_eq_of_lt (by omega)
  unfold pkWrite
  rw [show pkBlockMax = 255 from rfl, spaceStore_of_lt _ _ hlt]
  simp only
  set u := (s.withMem (s.mem.withPkbuf (spaceWrite s.mem.pkbuf s.pkCnt.toNat b))).withPkCnt
    (BitVec.ofNat 8 (s.pkCnt.toNat + 1)) with hu
  have hucnt : u.pkCnt.toNat = s.pkCnt.toNat + 1 := by
    rw [hu]; simpa using h256
  have hubuf : bufferedBytes u = bufferedBytes s ++ [b] := bufferedBytes_store (s := s) rfl hucnt
  have hulen : (bufferedBytes s ++ [b]).length = s.pkCnt.toNat + 1 := by simp
  have hua : SinkAccepts u := ha
  by_cases h : u.pkCnt.toNat = 255
  · rw [if_pos h]
    have hfull : (bufferedBytes s ++ [b]).length = 255 := by omega
    have hslice : spaceSlice u.mem.pkbuf 0 u.pkCnt.toNat = some (bufferedBytes u) := by
      obtain ⟨l, hl⟩ := spaceSlice_isSome (m := u.mem.pkbuf) (i := 0) (n := u.pkCnt.toNat) (fun k hk => by
        rw [Nat.zero_add]
        show (spaceRead (spaceWrite s.mem.pkbuf s.pkCnt.toNat b) k).isSome = true
        rw [spaceRead_write]
        split
        · rfl
        · exact hs.2 k (by omega))
      rw [hl]
      obtain ⟨hlen, hget⟩ := spaceSlice_eq_some hl
      congr 1
      refine List.ext_getElem (by simp [hlen]) (fun k h1 h2 => ?_)
      have h3 := hget k (by omega)
      rw [Nat.zero_add, List.getElem?_eq_getElem h1] at h3
      simp [bufferedBytes, ← h3]
    unfold pkFlush
    rw [if_neg (by intro h0; rw [h0] at h; exact absurd h (by decide)), hslice]
    simp only [sinkWrites_accepts hua, Res.andThen_done]
    refine ⟨_, rfl, fun r hr => ha r (List.mem_of_mem_drop hr), ?_, ?_⟩
    · have h255 : u.pkCnt = 255 := BitVec.eq_of_toNat_eq h
      simp only [State.withPkCnt_out, State.withSink_out, State.withOut_out, hubuf, h255, packetOut_of_full hfull]
      rfl
    · rw [packetLeft_of_full hfull]
      exact bufferedBytes_of_zero rfl
  · rw [if_neg h]
    have hshort : (bufferedBytes s ++ [b]).length < 255 := by omega
    exact ⟨u, rfl, hua, by rw [packetOut_of_short hshort, List.append_nil]; rfl,
      by rw [packetLeft_of_short hshort, hubuf]⟩

theorem bytesLsb_succ (v k : Nat) : bytesLsb v (k + 1) = BitVec.ofNat 8 v :: bytesLsb (v / 2 ^ 8) k := by
  unfold bytesLsb
  rw [List.range_succ_eq_map, List.map_cons, List.map_map]
  congr 1
  · simp
  · refine List.map_congr_left (fun i _ => ?_)
    simp only [Function.comp_apply, Nat.div_div_eq_div_mul, ← pow_add]
    congr 3
    omega

theorem bytesLsb_length (v k : Nat) : (bytesLsb v k).length = k := by simp [bytesLsb]

/-- The drain loop of `BPWrite` with an accepting sink: the low `k` bytes go through the packet writer (R131, R133). -/
theorem bpDrain_accepts (k : Nat) {s : State} (hs : PacketOk s) (ha : SinkAccepts s) :
    ∃ t, bpDrain k s = .done t ∧ SinkAccepts t ∧
      t.out = s.out ++ packetOut (bufferedBytes s ++ bytesLsb s.bp.acc.toNat k) ∧
      bufferedBytes t = packetLeft (bufferedBytes s ++ bytesLsb s.bp.acc.toNat k) := by
  induction k generalizing s with
  | zero =>
    have hshort : (bufferedBytes s).length < 255 := by rw [bufferedBytes_length]; have := hs.1; omega
    exact ⟨s, rfl, ha, by simp [bytesLsb, packetOut_of_short hshort], by simp [bytesLsb, packetLeft_of_short hshort]⟩
  | succ k ih =>
    obtain ⟨u, hu, hua, huo, hub⟩ := pkWrite_accepts (BitVec.ofNat 8 s.bp.acc.toNat) hs ha
    have huk : PacketOk u := pkWrite_keeps_packet hs hu
    have hbp : u.bp = s.bp := by
      have := pkWrite_packEnds (BitVec.ofNat 8 s.bp.acc.toNat) s
      rw [hu] at this
      exact this.2.2.1
    unfold bpDrain
    rw [hu, Res.andThen_done]
    obtain ⟨t, ht, hta, hto, htb⟩ := ih (s := u.withBp (dropByte u.bp)) huk hua
    refine ⟨t, ht, hta, ?_, ?_⟩
    · have hacc : (dropByte u.bp).acc.toNat = s.bp.acc.toNat / 2 ^ 8 := by
        have := dropBytes_acc 1 u.bp
        rw [hbp] at this
        simpa [hbp] using this
      rw [hto, State.withBp_out, State.withBp_bp, hacc, huo]
      have hub' : bufferedBytes (u.withBp (dropByte u.bp)) = packetLeft (bufferedBytes s ++ [BitVec.ofNat 8 s.bp.acc.toNat]) := hub
      rw [hub', bytesLsb_succ, List.append_assoc]
      congr 1
      rw [← packetOut_append]
      simp
    · have hacc : (dropByte u.bp).acc.toNat = s.bp.acc.toNat / 2 ^ 8 := by
        have := dropBytes_acc 1 u.bp
        rw [hbp] at this
        simpa [hbp] using this
      have hub' : bufferedBytes (u.withBp (dropByte u.bp)) = packetLeft (bufferedBytes s ++ [BitVec.ofNat 8 s.bp.acc.toNat]) := hub
      rw [htb, State.withBp_bp, hacc, hub', bytesLsb_succ, ← packetLeft_append]
      simp

/-- `BPWrite` with an accepting sink and a good accumulator: the whole low bytes of the pending and the new bits go
through the packet writer, what is left stays pending (R131, R133). -/
theorem bpWrite_accepts {s : State} (code : Nat) {n : Nat} (hn : n ≤ 16) (hb : AccOk s.bp) (hs : PacketOk s)
    (ha : SinkAccepts s) :
    ∃ t, bpWrite code n s = .done t ∧ PackFrame s t ∧ SinkAccepts t ∧ AccOk t.bp ∧ PacketOk t ∧
      t.out = s.out ++ packetOut (bufferedBytes s ++
        bytesLsb (s.bp.acc.toNat + code % 2 ^ n * 2 ^ s.bp.cnt.toNat) ((s.bp.cnt.toNat + n) / 8)) ∧
      bufferedBytes t = packetLeft (bufferedBytes s ++
        bytesLsb (s.bp.acc.toNat + code % 2 ^ n * 2 ^ s.bp.cnt.toNat) ((s.bp.cnt.toNat + n) / 8)) ∧
      t.bp.acc.toNat = (s.bp.acc.toNat + code % 2 ^ n * 2 ^ s.bp.cnt.toNat) / 2 ^ (8 * ((s.bp.cnt.toNat + n) / 8)) ∧
      t.bp.cnt.toNat = (s.bp.cnt.toNat + n) % 8 := by
  obtain ⟨hacc, hcnt⟩ := loadAcc_toNat hb code hn
  obtain ⟨t, ht, hta, hto, htb⟩ := bpDrain_accepts ((loadAcc s.bp code n).cnt.toNat / 8)
    (s := s.withBp (loadAcc s.bp code n)) hs ha
  have hw : bpWrite code n s = .done t := ht
  have he := bpWrite_packEnds code n s
  rw [hw] at he
  obtain ⟨hf, -, hbp, hok⟩ := he
  refine ⟨t, hw, hf, hta, ?_, hok hs, ?_, ?_, ?_, ?_⟩
  · rw [hbp]; exact accOk_dropBytes (loadAcc_fits hb code hn)
  · rw [hto, State.withBp_out, State.withBp_bp, hacc, hcnt]; rfl
  · rw [htb, State.withBp_bp, hacc, hcnt]; rfl
  · rw [hbp, dropBytes_acc, hacc, hcnt]
  · rw [hbp, dropBytes_cnt, hcnt]; omega

/-- `BPFlush` with an accepting sink: the pending bits as one zero-padded byte, then the trailing block (R132). -/
theorem bpFlush_accepts {s : State} (hb : AccOk s.bp) (hs : PacketOk s) (ha : SinkAccepts s) :
    ∃ t, bpFlush s = .done t ∧ PackFrame s t ∧ SinkAccepts t ∧ t.bp = { acc := 0, cnt := 0 } ∧ t.pkCnt = 0 ∧
      t.out = s.out ++
        (packetOut (bufferedBytes s ++ bytesLsb s.bp.acc.toNat ((s.bp.cnt.toNat + 7) / 8)) ++
          lastBlock (packetLeft (bufferedBytes s ++ bytesLsb s.bp.acc.toNat ((s.bp.cnt.toNat + 7) / 8)))) := by
  have he := bpFlush_packEnds s
  have hlt := hb.1
  unfold bpFlush at *
  by_cases h : s.bp.cnt = 0
  · rw [if_pos h] at *
    obtain ⟨t, ht, hta, hto⟩ := pkFlush_accepts hs ha
    rw [ht] at he
    obtain ⟨hf, -, h0, hbp, -, hpk⟩ := he
    have hacc : s.bp.acc = 0 := by
      have h2 := hb.2
      rw [h] at h2
      exact BitVec.eq_of_toNat_eq (by simpa using h2)
    refine ⟨t, ht, hf, hta, ?_, hpk, ?_⟩
    · rw [hbp h, ← h, ← hacc]
    · have hshort : (bufferedBytes s).length < 255 := by rw [bufferedBytes_length]; have := hs.1; omega
      rw [hto, h]
      simp [bytesLsb, packetOut_of_short hshort, packetLeft_of_short hshort]
  · rw [if_neg h] at *
    have hne : s.bp.cnt.toNat ≠ 0 := fun h0 => h (BitVec.eq_of_toNat_eq (by simpa using h0))
    have hone : (s.bp.cnt.toNat + 7) / 8 = 1 := by omega
    obtain ⟨u, hu, hua, huo, hub⟩ := pkWrite_accepts (BitVec.ofNat 8 s.bp.acc.toNat) hs ha
    have huk : PacketOk u := pkWrite_keeps_packet hs hu
    rw [hu, Res.andThen_done] at he ⊢
    obtain ⟨t, ht, hta, hto⟩ := pkFlush_accepts (s := u.withBp { acc := 0, cnt := 0 }) huk hua
    rw [ht] at he
    obtain ⟨hf, -, h0, -, hacc, hpk⟩ := he
    refine ⟨t, ht, hf, hta, ?_, hpk, ?_⟩
    · have h1 : t.bp.acc = 0 := hacc h
      cases hx : t.bp with
      | mk a c => rw [hx] at h1 h0; simp only at h1 h0; rw [h1, h0]
    · have hb1 : bytesLsb s.bp.acc.toNat 1 = [BitVec.ofNat 8 s.bp.acc.toNat] := by simp [bytesLsb]
      have hbuf : bufferedBytes (u.withBp { acc := 0, cnt := 0 }) = bufferedBytes u := rfl
      rw [hto, hone, hb1, hbuf, hub, State.withBp_out, huo, List.append_assoc]

end Sys2Proof.Machine
end

