-- ==== Sys2Proof/Laws/Lzw.lean ====
section
/-! SUPPORT. The LZW compressor (41_lzw.md): what the hash probe answers, and what each procedure of the unit can do. -/

namespace Sys2Proof.Machine

theorem primaryHash_lt (c : Byte) (p : BitVec 12) : primaryHash c p < 4096 := by
  unfold primaryHash
  have hc : c.toNat * 2 ^ hashShift < 2 ^ 12 := by
    have := c.isLt
    simp only [hashShift]
    omega
  exact Nat.xor_lt_two_pow hc p.isLt

theorem displacement_bounds (i : Nat) (h : i < 4096) : 1 ≤ displacement i ∧ displacement i ≤ 5003 := by
  unfold displacement hashSize
  split <;> omega

theorem nextSlot_lt {i disp : Nat} (hi : i < 5003) (hd : 1 ≤ disp) (hd' : disp ≤ 5003) : nextSlot i disp < 5003 := by
  unfold nextSlot hashSize
  split <;> omega

/-- Everything the probe loop can answer (R157): a slot of the table that holds the key with its code, or an empty
slot of the table. -/
theorem probeFrom_spec {htab : Space HSlot} {key disp : Nat} (hd : 1 ≤ disp) (hd' : disp ≤ 5003) (fuel i : Nat)
    (hi : i < 5003) :
    (∀ j code, probeFrom htab key disp fuel i = .found j code →
        j < 5003 ∧ ∃ k, spaceRead htab j = some { key := k, code := code } ∧ k.toNat = key) ∧
      (∀ j, probeFrom htab key disp fuel i = .vacant j → j < 5003 ∧ spaceRead htab j = none) := by
  induction fuel generalizing i with
  | zero => exact ⟨fun _ _ h => (nomatch h), fun _ h => (nomatch h)⟩
  | succ fuel ih =>
    unfold probeFrom
    cases hr : spaceRead htab i with
    | none =>
      refine ⟨fun _ _ h => (nomatch h), fun j h => ?_⟩
      cases h
      exact ⟨hi, hr⟩
    | some slot =>
      simp only
      split
      · next hk =>
        refine ⟨fun j code h => ?_, fun _ h => (nomatch h)⟩
        cases h
        exact ⟨hi, slot.key, hr, hk⟩
      · exact ih (nextSlot i disp) (nextSlot_lt hi hd hd')

/-- Everything `Probe` can answer (R157). -/
theorem probe_spec (htab : Space HSlot) (c : Byte) (p : BitVec 12) :
    (∀ j code, probe htab c p = .found j code →
        j < 5003 ∧ ∃ k, spaceRead htab j = some { key := k, code := code } ∧ k.toNat = hashKey c p) ∧
      (∀ j, probe htab c p = .vacant j → j < 5003 ∧ spaceRead htab j = none) := by
  obtain ⟨h1, h2⟩ := displacement_bounds _ (primaryHash_lt c p)
  exact probeFrom_spec h1 h2 hashSize _ (by have := primaryHash_lt c p; omega)

/-- `Insert` at a slot of the table (R158). -/
theorem insertPair_of_lt {i : Nat} (hi : i < 5003) (key : Nat) (s : State) :
    insertPair i key s =
      .done ((s.withMem (s.mem.withHtab (spaceWrite s.mem.htab i
          { key := BitVec.ofNat 20 key, code := BitVec.ofNat 12 s.lzw.freeEnt.toNat }))).withLzw
        { s.lzw with freeEnt := BitVec.ofNat 13 (s.lzw.freeEnt.toNat + 1) }) := by
  unfold insertPair
  rw [spaceStore_of_lt (size := hashSize) _ _ hi]

/-- Everything `EmitCode` can do (R154, R155): what `BPWrite` does, and then the new width. -/
theorem emitCode_ends (c : Nat) (s : State) :
    (emitCode c s).Ends
      (fun t => ∃ u, bpWrite c s.lzw.nBits.toNat s = .done u ∧ PackFrame s u ∧
        t = u.withLzw { s.lzw with nBits := nextWidth c s.lzw })
      (fun k t => k = .sinkError ∧ PackFrame s t ∧ s.out <+: t.out)
      (fun f => f = .noValue ∨ f = .noSuchElement ∨ f = .sinkNeverReady) := by
  unfold emitCode
  have h := bpWrite_packEnds c s.lzw.nBits.toNat s
  cases hb : bpWrite c s.lzw.nBits.toNat s with
  | done u =>
    rw [hb] at h
    exact ⟨u, rfl, h.1, by simp [h.1.lzw]⟩
  | raised k t => rw [hb] at h; exact h
  | stopped f => rw [hb] at h; exact h

/-- `EmitCode` with an accepting sink on good packers: the code at the width in force goes to the bit-packer. -/
theorem emitCode_accepts {s : State} (c : Nat) (hn : s.lzw.nBits.toNat ≤ 16) (hb : AccOk s.bp) (hs : PacketOk s)
    (ha : SinkAccepts s) :
    ∃ u, bpWrite c s.lzw.nBits.toNat s = .done u ∧ PackFrame s u ∧
      emitCode c s = .done (u.withLzw { s.lzw with nBits := nextWidth c s.lzw }) := by
  obtain ⟨u, hu, hf, -⟩ := bpWrite_accepts c hn hb hs ha
  refine ⟨u, hu, hf, ?_⟩
  unfold emitCode
  rw [hu, Res.andThen_done, hf.lzw]

end Sys2Proof.Machine
end

