-- ==== Sys2Proof/Laws/PerInstr.lean ====
section
/-! SUPPORT. The per-instruction family `EncodeFields`: what the encoder puts into the fields common to every command
word (30_encoding.md R91) and into the operand field. -/

namespace Sys2Proof.Laws.EncodeFields

/-- The unit number of a command (R91). -/
def unitOf (i : Instr) : Nat :=
  match i with
  | .ctlReset => 0
  | .bpWrite _ _ => 1
  | .bpFlush => 1
  | .pkWrite _ => 2
  | .pkFlush => 2
  | .lzwStart _ => 3
  | .lzwSym _ => 3
  | .lzwEnd => 3
  | .qtBuild _ => 4
  | .dctFwd => 5
  | .dctQuant _ => 5
  | .hufBuild => 6
  | .hufStart => 6
  | .hufBlock _ _ => 6
  | .jbpWrite _ _ => 7
  | .jbpFlush => 7
  | .bufLds _ _ => 8
  | .bufLdq _ _ => 8

/-- The operation of a command inside its unit (R99). -/
def opOf (i : Instr) : Nat :=
  match i with
  | .ctlReset => 1
  | .bpWrite _ _ => 0
  | .bpFlush => 1
  | .pkWrite _ => 0
  | .pkFlush => 1
  | .lzwStart _ => 0
  | .lzwSym _ => 1
  | .lzwEnd => 2
  | .qtBuild _ => 0
  | .dctFwd => 0
  | .dctQuant _ => 1
  | .hufBuild => 0
  | .hufStart => 1
  | .hufBlock _ _ => 2
  | .jbpWrite _ _ => 0
  | .jbpFlush => 1
  | .bufLds _ _ => 0
  | .bufLdq _ _ => 1

/-- The value of `w[23:0]` (R92 to R97). -/
def operandsOf (i : Instr) : Nat :=
  match i with
  | .ctlReset => 0
  | .bpWrite code n => n * 2 ^ 16 + code.toNat
  | .bpFlush => 0
  | .pkWrite byte => byte.toNat
  | .pkFlush => 0
  | .lzwStart initBits => initBits
  | .lzwSym byte => byte.toNat
  | .lzwEnd => 0
  | .qtBuild quality => quality
  | .dctFwd => 0
  | .dctQuant cls => cls.toNat
  | .hufBuild => 0
  | .hufStart => 0
  | .hufBlock comp cls => comp * 2 + cls.toNat
  | .jbpWrite code n => n * 2 ^ 16 + code.toNat
  | .jbpFlush => 0
  | .bufLds idx val => idx * 2 ^ 8 + val.toNat
  | .bufLdq idx val => idx * 2 ^ 16 + val.toNat

/-- The word of a well-formed command carries its unit, its operation and its operands, and nothing else. -/
def Statement (i : Instr) : Prop :=
  i.wellFormed = true →
    field (encode i) 31 28 = unitOf i ∧ field (encode i) 27 24 = opOf i ∧ field (encode i) 23 0 = operandsOf i

/-- A word put together from fields that fit gives the fields back. -/
theorem field_assembleWord {unit op operands : Nat} (hu : unit < 16) (ho : op < 16) (hv : operands < 2 ^ 24) :
    field (assembleWord unit op operands) 31 28 = unit ∧ field (assembleWord unit op operands) 27 24 = op ∧
      field (assembleWord unit op operands) 23 0 = operands := by
  have hw : (assembleWord unit op operands).toNat = unit * 2 ^ 28 + op * 2 ^ 24 + operands := by
    unfold assembleWord
    rw [BitVec.toNat_ofNat, Nat.mod_eq_of_lt hv]
    exact Nat.mod_eq_of_lt (by omega)
  unfold field
  rw [hw]
  refine ⟨?_, ?_, ?_⟩ <;> norm_num <;> omega

theorem cls_lt (c : Cls) : c.toNat < 2 := by cases c <;> decide

theorem ctlReset : Statement .ctlReset := fun _ => field_assembleWord (by decide) (by decide) (by decide)

theorem bpWrite (code : BitVec 16) (n : Nat) : Statement (.bpWrite code n) := fun h => by
  have hn : n < 32 := by simpa [Instr.wellFormed] using h
  exact field_assembleWord (by decide) (by decide) (by have := code.isLt; omega)

theorem bpFlush : Statement .bpFlush := fun _ => field_assembleWord (by decide) (by decide) (by decide)

theorem pkWrite (byte : Byte) : Statement (.pkWrite byte) := fun _ =>
  field_assembleWord (by decide) (by decide) (by have := byte.isLt; omega)

theorem pkFlush : Statement .pkFlush := fun _ => field_assembleWord (by decide) (by decide) (by decide)

theorem lzwStart (initBits : Nat) : Statement (.lzwStart initBits) := fun h => by
  have hn : initBits < 256 := by simpa [Instr.wellFormed] using h
  exact field_assembleWord (by decide) (by decide) (by omega)

theorem lzwSym (byte : Byte) : Statement (.lzwSym byte) := fun _ =>
  field_assembleWord (by decide) (by decide) (by have := byte.isLt; omega)

theorem lzwEnd : Statement .lzwEnd := fun _ => field_assembleWord (by decide) (by decide) (by decide)

theorem qtBuild (quality : Nat) : Statement (.qtBuild quality) := fun h => by
  have hn : quality < 256 := by simpa [Instr.wellFormed] using h
  exact field_assembleWord (by decide) (by decide) (by omega)

theorem dctFwd : Statement .dctFwd := fun _ => field_assembleWord (by decide) (by decide) (by decide)

theorem dctQuant (cls : Cls) : Statement (.dctQuant cls) := fun _ =>
  field_assembleWord (by decide) (by decide) (by have := cls_lt cls; omega)

theorem hufBuild : Statement .hufBuild := fun _ => field_assembleWord (by decide) (by decide) (by decide)

theorem hufStart : Statement .hufStart := fun _ => field_assembleWord (by decide) (by decide) (by decide)

theorem hufBlock (comp : Nat) (cls : Cls) : Statement (.hufBlock comp cls) := fun h => by
  have hn : comp < 4 := by simpa [Instr.wellFormed] using h
  exact field_assembleWord (by decide) (by decide) (by have := cls_lt cls; omega)

theorem jbpWrite (code : BitVec 16) (n : Nat) : Statement (.jbpWrite code n) := fun h => by
  have hn : n < 32 := by simpa [Instr.wellFormed] using h
  exact field_assembleWord (by decide) (by decide) (by have := code.isLt; omega)

theorem jbpFlush : Statement .jbpFlush := fun _ => field_assembleWord (by decide) (by decide) (by decide)

theorem bufLds (idx : Nat) (val : Byte) : Statement (.bufLds idx val) := fun h => by
  have hn : idx < 64 := by simpa [Instr.wellFormed] using h
  exact field_assembleWord (by decide) (by decide) (by have := val.isLt; omega)

theorem bufLdq (idx : Nat) (val : BitVec 16) : Statement (.bufLdq idx val) := fun h => by
  have hn : idx < 64 := by simpa [Instr.wellFormed] using h
  exact field_assembleWord (by decide) (by decide) (by have := val.isLt; omega)

end Sys2Proof.Laws.EncodeFields
end

