-- ==== Sys2Proof/Machine/Assembler.lean ====
section
/-! DEFINITION. The assembler syntax (30_encoding.md R103) and the pseudo-commands (R104): host-side text, so that the
programs of the spec can be written down. No step of the core reads this file. -/

namespace Sys2Proof.Machine

/-- `LZW.STREAM ib, s0, .., sk` (R104 (a)). -/
def lzwStream (initBits : Nat) (syms : List Byte) : List Instr :=
  .lzwStart initBits :: (syms.map .lzwSym ++ [.lzwEnd])

/-- `BUF.BLOCK v0, .., v63` (R104 (b)). -/
def bufBlock (vals : List Byte) : List Instr := vals.zipIdx.map (fun x => .bufLds x.2 x.1)

/-- `JPEG.MCU comp, cls` (R104 (c)). -/
def jpegMcu (comp : Nat) (cls : Cls) : List Instr := [.dctFwd, .dctQuant cls, .hufBlock comp cls]

/-- The numerals of R103 in order of their value; a hexadecimal one may be written with a small letter. -/
def numerals : List Char := "0123456789ABCDEF".toList

/-- The value of a decimal or hexadecimal digit: its place among the numerals. -/
def digitValue (c : Char) : Option Nat := numerals.idxOf? c.toUpper

/-- A digit string in a base, most significant digit first. -/
def parseDigits (base acc : Nat) (cs : List Char) : Option Nat :=
  match cs with
  | [] => some acc
  | c :: rest =>
    match digitValue c with
    | some d => if d < base then parseDigits base (acc * base + d) rest else none
    | none => none

/-- An unsigned operand: decimal or `0x` hexadecimal (R103). -/
def parseNat (cs : List Char) : Option Nat :=
  match cs with
  | [] => none
  | '0' :: 'x' :: [] => none
  | '0' :: 'x' :: rest => parseDigits 16 0 rest
  | _ => parseDigits 10 0 cs

/-- An operand that may be negative (R103: only the `val` of BUF.LDQ). -/
def parseInt (cs : List Char) : Option Int :=
  match cs with
  | '-' :: rest => (parseNat rest).map (fun n => -(n : Int))
  | _ => (parseNat cs).map (fun n => (n : Int))

/-- Blanks at both ends removed. -/
def trimBlanks (cs : List Char) : List Char :=
  ((cs.dropWhile (fun c => c == ' ')).reverse.dropWhile (fun c => c == ' ')).reverse

/-- Cut at every comma. -/
def splitCommas (cs : List Char) : List (List Char) :=
  match cs with
  | [] => [[]]
  | c :: rest =>
    match splitCommas rest with
    | [] => [[c]]
    | part :: parts => if c = ',' then [] :: part :: parts else (c :: part) :: parts

/-- The operands of a line, each a number (R103). -/
def parseOperands (cs : List Char) : Option (List Int) :=
  if trimBlanks cs = [] then some [] else ((splitCommas cs).map (fun p => parseInt (trimBlanks p))).mapM id

/-- An operand that must lie in `0 .. 2^k - 1`. -/
def unsignedOperand (k : Nat) (v : Int) : Option Nat := if 0 ≤ v ∧ v < 2 ^ k then some v.toNat else none

/-- An operand that names a class: 0 or 1 (R97). -/
def clsOperand (v : Int) : Option Cls := (unsignedOperand 1 v).map clsOfNat

/-- The commands and pseudo-commands of R103 and R104 from a mnemonic and its operands. -/
def fromMnemonic (mnemonic : String) (ops : List Int) : Option (List Instr) :=
  match mnemonic, ops with
  | "CTL.RESET", [] => some [.ctlReset]
  | "BP.WRITE", [code, n] => do some [.bpWrite (BitVec.ofNat 16 (← unsignedOperand 16 code)) (← unsignedOperand 5 n)]
  | "BP.FLUSH", [] => some [.bpFlush]
  | "PK.WRITE", [b] => do some [.pkWrite (BitVec.ofNat 8 (← unsignedOperand 8 b))]
  | "PK.FLUSH", [] => some [.pkFlush]
  | "LZW.START", [b] => do some [.lzwStart (← unsignedOperand 8 b)]
  | "LZW.SYM", [b] => do some [.lzwSym (BitVec.ofNat 8 (← unsignedOperand 8 b))]
  | "LZW.END", [] => some [.lzwEnd]
  | "QT.BUILD", [q] => do some [.qtBuild (← unsignedOperand 8 q)]
  | "DCT.FWD", [] => some [.dctFwd]
  | "DCT.QUANT", [c] => do some [.dctQuant (← clsOperand c)]
  | "HUF.BUILD", [] => some [.hufBuild]
  | "HUF.START", [] => some [.hufStart]
  | "HUF.BLOCK", [comp, c] => do some [.hufBlock (← unsignedOperand 2 comp) (← clsOperand c)]
  | "JBP.WRITE", [code, n] => do some [.jbpWrite (BitVec.ofNat 16 (← unsignedOperand 16 code)) (← unsignedOperand 5 n)]
  | "JBP.FLUSH", [] => some [.jbpFlush]
  | "BUF.LDS", [i, v] => do some [.bufLds (← unsignedOperand 6 i) (BitVec.ofNat 8 (← unsignedOperand 8 v))]
  | "BUF.LDQ", [i, v] => do
    let idx ← unsignedOperand 6 i
    if -32768 ≤ v ∧ v ≤ 32767 then some [.bufLdq idx (BitVec.ofInt 16 v)] else none
  | "LZW.STREAM", ib :: syms => do
    let bytes ← syms.mapM (unsignedOperand 8)
    if bytes = [] then none else some (lzwStream (← unsignedOperand 8 ib) (bytes.map (BitVec.ofNat 8)))
  | "BUF.BLOCK", vals => do
    let bytes ← vals.mapM (unsignedOperand 8)
    if bytes.length = 64 then some (bufBlock (bytes.map (BitVec.ofNat 8))) else none
  | "JPEG.MCU", [comp, c] => do some (jpegMcu (← unsignedOperand 2 comp) (← clsOperand c))
  | _, _ => none

/-- One line: a mnemonic, its operands separated by commas, a comment after `;` (R103). -/
def assembleLine (line : List Char) : Option (List Instr) :=
  let text := trimBlanks (line.takeWhile (fun c => c != ';'))
  if text = [] then some []
  else
    match parseOperands (text.dropWhile (fun c => c != ' ')) with
    | some ops => fromMnemonic (String.ofList (text.takeWhile (fun c => c != ' '))) ops
    | none => none

/-- A program text, one command per line, as the words the host offers on the command port (R103). -/
def assemble (lines : List (List Char)) : Option (List Word) :=
  (lines.mapM assembleLine).map (fun parts => parts.flatten.map encode)

end Sys2Proof.Machine
end

