-- ==== Sys2Proof/Tests/Slice0.lean ====
section
/-! SUPPORT. Tests: ill-formed terms the check refuses, words of the spec decoded, one-step examples of the spec, and for
each obligation with hypotheses a state that meets them (`witness_<Name>`). The expected values are those printed in
95_test_vectors.md and 96_test_vectors_jpeg.md or in the examples of the rules named. -/

namespace Sys2Proof.Tests

open Sys2Proof.Machine

/-! WellFormed: an ill-formed term for each check. -/

theorem test_bpWrite_n_refused : Instr.wellFormed (.bpWrite 0 32) = false := by decide
theorem test_lzwStart_refused : Instr.wellFormed (.lzwStart 256) = false := by decide
theorem test_qtBuild_refused : Instr.wellFormed (.qtBuild 256) = false := by decide
theorem test_hufBlock_refused : Instr.wellFormed (.hufBlock 4 .luminance) = false := by decide
theorem test_jbpWrite_n_refused : Instr.wellFormed (.jbpWrite 0 32) = false := by decide
theorem test_bufLds_refused : Instr.wellFormed (.bufLds 64 0) = false := by decide
theorem test_bufLdq_refused : Instr.wellFormed (.bufLdq 64 0) = false := by decide

/-! Decoding: words written out from the spec's encodings (30_encoding.md R91 to R99, 95_test_vectors.md section 2). -/

theorem test_decode_ctlReset : decode 0b0000_0001_000000000000000000000000 = .ok .ctlReset := by decide
theorem test_decode_bpWrite : decode 0b0001_0000_000_10000_1010101111001101 = .ok (.bpWrite 0xABCD 16) := by decide
theorem test_decode_bpFlush : decode 0x11000000 = .ok .bpFlush := by decide
theorem test_decode_pkWrite : decode 0b0010_0000_0000000000000000_10100101 = .ok (.pkWrite 0xA5) := by decide
theorem test_decode_pkFlush : decode 0x21000000 = .ok .pkFlush := by decide
theorem test_decode_lzwStart : decode 0x30000009 = .ok (.lzwStart 9) := by decide
theorem test_decode_lzwSym : decode 0x310000FF = .ok (.lzwSym 255) := by decide
theorem test_decode_lzwEnd : decode 0x32000000 = .ok .lzwEnd := by decide
theorem test_decode_qtBuild : decode 0x40000064 = .ok (.qtBuild 100) := by decide
theorem test_decode_dctFwd : decode 0x50000000 = .ok .dctFwd := by decide
theorem test_decode_dctQuant : decode 0x51000001 = .ok (.dctQuant .chrominance) := by decide
theorem test_decode_hufBuild : decode 0x60000000 = .ok .hufBuild := by decide
theorem test_decode_hufStart : decode 0x61000000 = .ok .hufStart := by decide
theorem test_decode_hufBlock : decode 0b0110_0010_000000000000000000000_10_1 = .ok (.hufBlock 2 .chrominance) := by decide
theorem test_decode_jbpWrite : decode 0x700901FF = .ok (.jbpWrite 0x1FF 9) := by decide
theorem test_decode_jbpFlush : decode 0x71000000 = .ok .jbpFlush := by decide
theorem test_decode_bufLds : decode 0b1000_0000_0000000000_011011_01100100 = .ok (.bufLds 27 100) := by decide
theorem test_decode_bufLdq : decode 0b1000_0001_00_000001_1111111111110011 = .ok (.bufLdq 1 (-13)) := by decide
theorem test_decode_reserved_unit : decode 0x90000000 = .error .reservedUnit := by decide
theorem test_decode_undefined_op : decode 0x00000000 = .error .undefinedOp := by decide
theorem test_decode_reserved_bits : decode 0x10200000 = .error .reservedBits := by decide
theorem test_decodeTableWord : decodeTableWord 32 0x8101FFF3 = some (.bufLdq 1 (-13)) := by decide

/-! The assembler (R103, R104). -/

theorem test_assemble : assemble ["LZW.SYM 0x41 ; comment".toList, "BUF.LDQ 63, -1".toList, "HUF.BLOCK 2, 1".toList] =
    some [0x31000041, 0x813FFFFF, 0x62000005] := by decide
theorem test_assemble_pseudo : assemble ["JPEG.MCU 1, 1".toList] = some [0x50000000, 0x51000001, 0x62000003] := by decide

/-! One step each. -/

/-- A predicate on the next state; a stop answers false. -/
def nextIs (r : Host.Outcome State Fault Refusal) (p : State → Bool) : Bool :=
  match r with
  | .next t => p t
  | .fault _ => false
  | .refused _ => false

/-- The fault registers after the word `w`, run from `s` (95_test_vectors.md section 5). -/
def faultCodeAfter (w : Word) (s : State) : Nat :=
  match step (s.withEvents [.command w]) with
  | .next t => t.fault.code.toNat
  | .fault _ => 99
  | .refused _ => 99

/-- The bit-packer with 7 bits pending, the first of them set (vector B7). -/
def sevenPending : State := State.reset.withBp { acc := 1, cnt := 7 }
/-- One byte buffered (vector K1). -/
def oneBuffered : State := (State.reset.withPkCnt 1).withMem (Memory.blank.withPkbuf [(0, 0x11)])
/-- After `LZW.START 3; LZW.SYM 0` (program P1, row 2). -/
def firstTaken : State :=
  (State.reset.withLzw { active := true, havePrefix := true, initBits := 3, nBits := 3, freeEnt := 6,
                         prefixCode := 0 }).withBp { acc := 4, cnt := 3 }
/-- As in row 4 of program P1, but with the match 0: one entry, pair (0, 1) with code 6 at slot 16. -/
def oneEntry : State :=
  ((State.reset.withLzw { active := true, havePrefix := true, initBits := 3, nBits := 3, freeEnt := 7,
                          prefixCode := 0 }).withBp { acc := 4, cnt := 6 }).withMem
    (Memory.blank.withHtab [(16, { key := 4096, code := 6 })])
/-- Before row 6 of program P1: N_BITS 4, FREE_ENT 9, PREFIX 0, four bits pending, one byte buffered. -/
def beforeEnd : State :=
  ((((State.reset.withLzw { active := true, havePrefix := true, initBits := 3, nBits := 4, freeEnt := 9,
                            prefixCode := 0 }).withBp { acc := 2, cnt := 4 }).withPkCnt 1).withMem
    ((Memory.blank.withPkbuf [(0, 0x44)]).withHtab
      [(1, { key := 1, code := 8 }), (16, { key := 4096, code := 6 }), (17, { key := 4097, code := 7 })]))

theorem test_ctlReset : nextIs (exec .ctlReset (oneBuffered.withOut [1])) (fun t => t.pkCnt == 0 && t.out == [1]) = true := by
  decide
theorem test_bpWrite_b7 : nextIs (exec (.bpWrite 1 16) sevenPending)
    (fun t => t.bp == { acc := 0, cnt := 7 } && t.mem.pkbuf == [(0, 0x81), (1, 0)] && t.pkCnt == 2) = true := by decide
theorem test_bpFlush_b5 : nextIs (exec .bpFlush (State.reset.withBp { acc := 1, cnt := 1 }))
    (fun t => t.out == [1, 1] && t.pkCnt == 0) = true := by decide
theorem test_pkWrite : nextIs (exec (.pkWrite 0x22) oneBuffered)
    (fun t => t.mem.pkbuf == [(0, 0x11), (1, 0x22)] && t.pkCnt == 2) = true := by decide
theorem test_pkFlush_k1 : nextIs (exec .pkFlush oneBuffered) (fun t => t.out == [1, 0x11] && t.pkCnt == 0) = true := by
  decide
theorem test_lzwStart_p1 : nextIs (exec (.lzwStart 3) State.reset)
    (fun t => t.bp == { acc := 4, cnt := 3 } && t.lzw.freeEnt == 6 && lzwPhase t.lzw == .cleared) = true := by decide
theorem test_lzwSym_p1 : nextIs (exec (.lzwSym 1) firstTaken)
    (fun t => t.mem.htab == [(16, { key := 4096, code := 6 })] && t.lzw.prefixCode == 1 && t.bp == { acc := 4, cnt := 6 })
    = true := by decide
theorem test_lzwSym_found : nextIs (exec (.lzwSym 1) oneEntry)
    (fun t => t.lzw.prefixCode == 6 && t.bp == oneEntry.bp) = true := by decide
theorem test_lzwEnd_p1 : nextIs (exec .lzwEnd beforeEnd)
    (fun t => t.out == [0x03, 0x44, 0x02, 0x05, 0x00] && t.lzw.active == false) = true := by decide
theorem test_qtBuild_75 : nextIs (exec (.qtBuild 75) State.reset)
    (fun t => t.qt.scale == 50 && spaceRead t.mem.qtab 0 == some 8 && spaceRead t.mem.qtab 127 == some 50) = true := by
  decide +kernel
theorem test_dctFwd_white : nextIs (exec .dctFwd
      ((State.reset.withDct { sbWr := BitVec.allOnes 64, cbValid := false, qbWr := 0 }).withMem
        (Memory.blank.withSb (spaceFill 64 (fun _ => 255)))))
    (fun t => cbAt t.mem 0 == 8128000000000000000000 && cbAt t.mem 9 == 0) = true := by decide +kernel
theorem test_roundDiv : [roundDiv 127 2, roundDiv (-127) 2, roundDiv (-3) 2, roundDiv 3 2, roundDiv (-1) 3] =
    [64, -63, -1, 2, 0] := by decide
theorem test_dctQuant_tie : nextIs (exec (.dctQuant .luminance)
      (((State.reset.withDct { sbWr := 0, cbValid := true, qbWr := 0 }).withQt
          { valid := true, quality := 50, scale := 100 }).withMem
        ((Memory.blank.withCb (spaceFill 64 (fun _ => 8128000000000000000000))).withDivt
          (spaceFill 128 (fun _ => 128000000000000000000)))))
    (fun t => qbAt t.mem 0 == 64) = true := by decide +kernel
theorem test_hufBuild_zrl : nextIs (exec .hufBuild State.reset)
    (fun t => readPort t 0x5F0 == 0x000B07F9 && readPort t 0x50B == 0) = true := by decide +kernel
theorem test_hufStart : nextIs (exec .hufStart (State.reset.withJbp { acc := 5, cnt := 3 }))
    (fun t => t.jbp == { acc := 0, cnt := 0 } && t.out == []) = true := by decide
/-- Row 70 of program P3: `QB[1] = -13`, `QB[3] = -1`. -/
theorem test_hufBlock_p3 : nextIs (exec (.hufBlock 0 .luminance)
      (((State.reset.withDct { sbWr := 0, cbValid := false, qbWr := BitVec.allOnes 64 }).withHuf
          { valid := true, pred0 := 0, pred1 := 0, pred2 := 0 }).withMem
        ((Memory.blank.withQb (spaceFill 64 (fun i => if i = 1 then -13 else if i = 3 then -1 else 0))).withHuft
          (spaceFill 1024 (fun k => huffEntry (k / 256) (k % 256))))))
    (fun t => t.out == [0x2C, 0xBB] && t.jbp == { acc := 0xA, cnt := 5 }) = true := by decide +kernel
theorem test_jbpWrite_stuffing : nextIs (exec (.jbpWrite 0xFFFF 16) (State.reset.withJbp { acc := 0xF, cnt := 4 }))
    (fun t => t.out == [0xFF, 0, 0xFF, 0] && t.jbp == { acc := 0xF, cnt := 4 }) = true := by decide
theorem test_jbpFlush : nextIs (exec .jbpFlush (State.reset.withJbp { acc := 0xF, cnt := 4 }))
    (fun t => t.out == [0xF0] && t.jbp == { acc := 0, cnt := 0 }) = true := by decide
theorem test_bufLds : nextIs (exec (.bufLds 63 255) State.reset)
    (fun t => t.mem.sb == [(63, 255)] && t.dct.sbWr == 0x8000000000000000) = true := by decide
theorem test_bufLdq : nextIs (exec (.bufLdq 1 0xFFF3) State.reset)
    (fun t => qbAt t.mem 1 == -13 && t.dct.qbWr == 2 && readPort t 0x141 == 0xFFFFFFF3) = true := by decide

/-- Vectors F of section 5: one word, one cause. -/
theorem test_fault_codes :
    [faultCodeAfter 0x00000000 State.reset, faultCodeAfter 0x30000002 State.reset, faultCodeAfter 0x310000FF firstTaken,
     faultCodeAfter 0x31000000 State.reset, faultCodeAfter 0x11000000 firstTaken, faultCodeAfter 0x62000006 State.reset,
     faultCodeAfter 0x21000000 (oneBuffered.withSink [.refuse])] = [7, 3, 4, 8, 8, 7, 1] := by decide
/-- The pin in the middle of PK.FLUSH (R340, U14): the second byte is withdrawn, and the word held behind it is still on
the port. -/
theorem test_reset_during_wait :
    nextIs (step ((oneBuffered.withSink [.accept, .never]).withEvents [.command 0x21000000, .command 0, .resetPin]))
      (fun t => t.pkCnt == 0 && t.out == [] && t.events == [.command 0] && t.sink == []) = true := by decide
/-- The pin in the middle of a command that offers no byte: what LZW.START wrote is gone. -/
theorem test_reset_during_start : nextIs (step (State.reset.withEvents [.resetDuring 0x30000003]))
    (fun t => t.lzw.active == false && t.bp == { acc := 0, cnt := 0 } && t.events == []) = true := by decide
/-- Vector F15b: the second byte is refused. -/
theorem test_torn_block : nextIs (step ((oneBuffered.withSink [.accept, .refuse]).withEvents [.command 0x21000000]))
    (fun t => t.out == [1] && t.fault == { faulted := true, code := 1, cmd := 0x21000000 }) = true := by decide
/-- Vector F16: the illegal word is discarded while FAULTED, and CTL.RESET clears the fault. -/
theorem test_discarded_while_faulted :
    nextIs (step ((State.reset.withFault { faulted := true, code := 4, cmd := 0x31000004 }).withEvents [.command 0]))
      (fun t => t.fault.code == 4) = true := by decide
theorem test_reset_leaves_fault :
    nextIs (step ((State.reset.withFault { faulted := true, code := 4, cmd := 0x31000004 }).withEvents
      [.command 0x01000000])) (fun t => t.fault.code == 0 && t.fault.faulted == false) = true := by decide

/-! Witnesses: for each obligation with hypotheses, states and operands that meet all of them together, at the ends of the
ranges its clauses speak of. -/

/-- A step or command that answers a next state with FAULTED = 0. -/
def runsWell (r : Host.Outcome State Fault Refusal) : Bool := nextIs r (fun t => !t.fault.faulted)

theorem exists_of_runsWell {r : Host.Outcome State Fault Refusal} (h : runsWell r = true) :
    ∃ t, r = .next t ∧ Healthy t := by
  cases r with
  | next t => exact ⟨t, rfl, by simpa [runsWell, nextIs] using h⟩
  | fault f => cases h
  | refused f => cases h

/-- The state after a fault (vector F5). -/
def faultedState : State := State.reset.withFault { faulted := true, code := 4, cmd := 0x31000004 }
/-- 254 bytes buffered and 7 bits pending in both bit-packers: the most there is between commands. -/
def packersFull : State :=
  (((State.reset.withPkCnt 254).withMem (Memory.blank.withPkbuf (spaceFill 254 (fun i => BitVec.ofNat 8 i)))).withBp
    { acc := 0x7F, cnt := 7 }).withJbp { acc := 0x7F, cnt := 7 }
/-- As `packersFull`, in an open stream whose first symbol is to come. -/
def noSymbolYet : State :=
  packersFull.withLzw { active := true, havePrefix := false, initBits := 3, nBits := 3, freeEnt := 6, prefixCode := 0 }
/-- An open stream with `INIT_BITS = 3` and the `n` pairs (0, 0), (1, 0), .. in the dictionary, each at its own hash. -/
def bigDict (n : Nat) (prefixCode : BitVec 12) : State :=
  (State.reset.withLzw { active := true, havePrefix := true, initBits := 3, nBits := 12,
                         freeEnt := BitVec.ofNat 13 (n + 6), prefixCode := prefixCode }).withMem
    (Memory.blank.withHtab (spaceFill n (fun i => { key := BitVec.ofNat 20 i, code := BitVec.ofNat 12 (i + 6) })))
/-- Every table built, every buffer written: mid-grey samples, all coefficients zero but those given. -/
def jpegReady (q0 q63 : BitVec 16) : State :=
  ((((State.reset.withQt { valid := true, quality := 100, scale := 0 }).withDct
      { sbWr := BitVec.allOnes 64, cbValid := true, qbWr := BitVec.allOnes 64 }).withHuf
      { valid := true, pred0 := 0, pred1 := 1016, pred2 := -1024 }).withJbp { acc := 0x7F, cnt := 7 }).withMem
    { htab := [], pkbuf := [], sb := spaceFill 64 (fun _ => 128)
      cb := spaceFill 64 (fun i => BitVec.ofInt 80 (coefficient [] i))
      qb := spaceFill 64 (fun i => if i = 0 then q0 else if i = 63 then q63 else 0)
      qtab := spaceFill 128 (fun k => BitVec.ofNat 8 (quantumAt (qScale 100) k))
      divt := spaceFill 128 (fun k => BitVec.ofNat 72 (denominator (quantumAt (qScale 100) k) (k % 64)))
      huft := spaceFill 1024 (fun k => huffEntry (k / 256) (k % 256)) }

theorem bigDict_lzwOk {n : Nat} {p : BitVec 12} (hn : n ≤ 4090) (hp : p.toNat < n + 6) (h4 : p.toNat ≠ 4)
    (h5 : p.toNat ≠ 5) : LzwOk (bigDict n p) := by
  intro _
  have hfree : (bigDict n p).lzw.freeEnt.toNat = n + 6 := Nat.mod_eq_of_lt (show n + 6 < 2 ^ 13 by omega)
  have hfirst : firstCode (bigDict n p).lzw = 6 := rfl
  have hlen : (bigDict n p).mem.htab.length = n := by simp [bigDict, spaceFill]
  have hb : 3 ≤ (3 : BitVec 4).toNat ∧ (3 : BitVec 4).toNat ≤ 9 := by decide
  have hw : (3 : BitVec 4).toNat ≤ (12 : BitVec 4).toNat ∧ (12 : BitVec 4).toNat ≤ 12 := by decide
  have hw' : ¬ (12 : BitVec 4).toNat < 12 := by decide
  refine ⟨hb, hw, ⟨by omega, by omega⟩, fun _ => ⟨?_, h4, h5⟩, by omega, fun h => absurd h hw', ?_⟩
  · rw [hfree]; exact hp
  · intro e he
    obtain ⟨i, hi, rfl⟩ : ∃ i, i < n ∧ (i, ({ key := BitVec.ofNat 20 i, code := BitVec.ofNat 12 (i + 6) } : HSlot)) = e := by
      simpa [bigDict, spaceFill] using he
    have : (BitVec.ofNat 12 (i + 6)).toNat = i + 6 := Nat.mod_eq_of_lt (by omega)
    rw [hfirst, hfree]
    simp only [this]
    omega

theorem bigDict_probe {n i : Nat} {p : BitVec 12} (hn : n ≤ 4090) (hi : i < n) :
    probeKey (bigDict n p).mem.htab (BitVec.ofNat 20 i) = .found i (BitVec.ofNat 12 (i + 6)) := by
  have hk : (BitVec.ofNat 20 i).toNat = i := Nat.mod_eq_of_lt (by omega)
  have hp : (BitVec.ofNat 12 i).toNat = i := Nat.mod_eq_of_lt (by omega)
  have hc : BitVec.ofNat 8 (i / 2 ^ 12) = 0 := by rw [Nat.div_eq_of_lt (by omega)]; rfl
  have hh : primaryHash 0 (BitVec.ofNat 12 i) = i := by simp [primaryHash, hp]
  have hr : spaceRead (bigDict n p).mem.htab i = some { key := BitVec.ofNat 20 i, code := BitVec.ofNat 12 (i + 6) } := by
    show spaceRead (spaceFill n _) i = _
    rw [spaceRead_fill, if_pos hi]
  unfold probeKey probe
  rw [hk, hc, hh, show hashSize = 5002 + 1 from rfl, probeFrom, hr]
  simp [hashKey, hp, hk]

theorem bigDict_dictOk {n : Nat} {p : BitVec 12} (hn : n ≤ 4090) : DictOk (bigDict n p) := by
  intro _
  have hfree : (bigDict n p).lzw.freeEnt.toNat = n + 6 := Nat.mod_eq_of_lt (show n + 6 < 2 ^ 13 by omega)
  refine ⟨?_, ?_, ?_⟩
  · have : (bigDict n p).mem.htab.map (fun e => e.2.key) = (List.range n).map (fun i => BitVec.ofNat 20 i) := by
      simp [bigDict, spaceFill, Function.comp_def]
    rw [this]
    refine (List.nodup_range).map_on (fun a ha b hb h => ?_)
    have ha := List.mem_range.mp ha
    have hb := List.mem_range.mp hb
    have := congrArg BitVec.toNat h
    simp only [BitVec.toNat_ofNat] at this
    omega
  · have : (bigDict n p).mem.htab.map (fun e => e.2.code.toNat) = List.range' 6 n := by
      rw [List.range'_eq_map_range]
      simp only [bigDict, spaceFill, State.withMem_mem, Memory.withHtab_htab, List.map_map]
      refine List.map_congr_left (fun i hi => ?_)
      have := List.mem_range.mp hi
      simp only [Function.comp_apply, BitVec.toNat_ofNat]
      omega
    rw [this, hfree, show firstCode (bigDict n p).lzw = 6 from rfl, Nat.add_sub_cancel]
  · intro e he
    obtain ⟨i, hi, rfl⟩ : ∃ i, i < n ∧ (i, ({ key := BitVec.ofNat 20 i, code := BitVec.ofNat 12 (i + 6) } : HSlot)) = e := by
      simpa [bigDict, spaceFill] using he
    exact bigDict_probe hn hi

/-- A pair with a key outside `0 .. n-1` is not in the dictionary of `bigDict n`. -/
theorem bigDict_absent {n key : Nat} {p : BitVec 12} (hn : n ≤ 4090) (hk : n ≤ key) (k : Nat) (slot : HSlot)
    (h : spaceRead (bigDict n p).mem.htab k = some slot) : slot.key.toNat ≠ key := by
  have h' : spaceRead (spaceFill n (fun i => ({ key := BitVec.ofNat 20 i, code := BitVec.ofNat 12 (i + 6) } : HSlot))) k =
    some slot := h
  rw [spaceRead_fill] at h'
  split at h'
  · next hlt =>
    cases h'
    rw [BitVec.toNat_ofNat, Nat.mod_eq_of_lt (by omega)]
    omega
  · cases h'

theorem jpegReady_quantOk (a b : BitVec 16) : QuantOk (jpegReady a b) := by
  intro _
  have hq : (jpegReady a b).qt.quality.toNat = 100 := rfl
  have hs : (jpegReady a b).qt.scale.toNat = 0 := rfl
  have hqt : (jpegReady a b).mem.qtab = spaceFill 128 (fun k => BitVec.ofNat 8 (quantumAt (qScale 100) k)) := rfl
  have hdt : (jpegReady a b).mem.divt =
      spaceFill 128 (fun k => BitVec.ofNat 72 (denominator (quantumAt (qScale 100) k) (k % 64))) := rfl
  rw [hq, hs, hqt, hdt]
  refine ⟨by omega, by decide, fun k hk => ⟨?_, ?_⟩⟩
  · rw [spaceRead_fill, if_pos hk]
  · rw [spaceRead_fill, if_pos hk]

theorem jpegReady_huffOk (a b : BitVec 16) : HuffOk (jpegReady a b) := by
  have hh : (jpegReady a b).mem.huft = spaceFill 1024 (fun k => huffEntry (k / 256) (k % 256)) := by
    simp only [jpegReady, State.withMem_mem]
  intro _ k hk
  rw [hh, spaceRead_fill, if_pos hk]

theorem jpegReady_cbOk (a b : BitVec 16) : CbOk (jpegReady a b) := by
  have hc : (jpegReady a b).mem.cb = spaceFill 64 (fun i => BitVec.ofInt 80 (coefficient [] i)) := rfl
  refine fun _ => ⟨[], fun i hi => ?_⟩
  rw [hc, spaceRead_fill, if_pos hi]

theorem jpegReady_buffersOk (a b : BitVec 16) : BuffersOk (jpegReady a b) := by
  refine ⟨fun i hi _ => ?_, fun i hi _ => ?_, fun _ => spaceFull_fill 64 _⟩
  · show (spaceRead (spaceFill 64 _) i).isSome = true
    rw [spaceRead_fill, if_pos hi]; rfl
  · show (spaceRead (spaceFill 64 _) i).isSome = true
    rw [spaceRead_fill, if_pos hi]; rfl

/-- An untouched core, whatever is offered to it, is in a good state. -/
theorem coreOk_offered (es : List HostEvent) : CoreOk (State.reset.withEvents es) := by
  have hacc : AccOk { acc := 0, cnt := 0 } := by decide
  have hoff : (State.reset.withEvents es).lzw.active ≠ true := by simp [State.reset]
  refine ⟨rfl, ⟨fun _ => ⟨rfl, rfl⟩, fun h => absurd h (by simp [State.reset])⟩, fun _ =>
    ⟨⟨hacc, hacc, by simp [State.reset], fun i hi => absurd hi (Nat.not_lt_zero i)⟩,
      ⟨fun i _ h => absurd h (by simp [State.reset]), fun i _ h => absurd h (by simp [State.reset]),
        fun h => absurd h (by simp [State.reset])⟩,
      fun h => absurd h (by simp [State.reset]), fun h => absurd h (by simp [State.reset]),
      fun h => absurd h (by simp [State.reset]), fun h => absurd h hoff, fun h => absurd h hoff,
      fun h => absurd h hoff⟩⟩

theorem witness_DecodeEncodeAgree : Instr.wellFormed (.bpWrite 0xFFFF 31) = true ∧
    Instr.wellFormed (.lzwStart 255) = true ∧ Instr.wellFormed (.hufBlock 3 .chrominance) = true ∧
    Instr.wellFormed (.bufLds 63 255) = true ∧ Instr.wellFormed (.bufLdq 0 0x8000) = true := by decide
theorem witness_EncodeDecodeAgree : decode 0x10110001 = .ok (.bpWrite 1 17) := by decide
theorem witness_DecoderIsOpcodeMap :
    decode 0x80003FFF = .ok (.bufLds 63 255) ∧ ∃ r ∈ opcodeMap, r.hits 0x80003FFF = true := by decide
theorem witness_StepRunsDecodedCommand : State.reset.events = [] ∧
    (State.reset.withEvents [.command 0x11000000]).events = .command 0x11000000 :: [] ∧
    decode 0x11000000 = .ok .bpFlush ∧ Healthy (State.reset.withEvents [.command 0x11000000]) ∧
    exec .bpFlush (State.reset.withEvents []) ≠ .fault .sinkNeverReady ∧ HostEvent.resetPin ∉ ([] : List HostEvent) ∧
    Instr.wellFormed .bpFlush = true ∧ faultedState.fault.faulted = true ∧ decode 0x01000000 = .ok .ctlReset :=
  have ⟨_, runs, _⟩ : ∃ t, exec .bpFlush (State.reset.withEvents []) = .next t ∧ Healthy t :=
    exists_of_runsWell (by decide)
  ⟨by decide, by decide, by decide, by decide, (fun h => nomatch runs.symm.trans h), by decide, by decide, by decide,
    by decide⟩
theorem witness_FaultedCoreDiscards : (faultedState.withEvents [.command 0]).fault.faulted = true ∧
    (faultedState.withEvents [.command 0]).events = .command 0 :: [] ∧ (0 : Word) ≠ 0x01000000 := by decide
theorem witness_IllegalWordFaults : Healthy (State.reset.withEvents [.command 0x00FFFFFF]) ∧
    (∀ r ∈ opcodeMap, r.hits 0x00FFFFFF = false) ∧ 9 ≤ field 0x90000000 31 28 ∧ 9 ≤ field 0xFFFFFFFF 31 28 := by decide
theorem witness_ResetPinRestores : (faultedState.withEvents [.resetPin]).events = .resetPin :: [] ∧
    (∃ t, step (oneBuffered.withEvents [.resetDuring 0x21000000, .resetPin]) = .next t ∧ Healthy t) ∧
    decode 0x21000000 = .ok .pkFlush ∧ Healthy oneBuffered ∧
    (oneBuffered.withSink [.accept, .never, .refuse]).sink = List.replicate 1 .accept ++ .never :: [.refuse] ∧
    (∃ rest : List HostEvent, exec .pkFlush ((oneBuffered.withSink [.accept, .never, .refuse]).withEvents rest) =
      .fault .sinkNeverReady ∧ HostEvent.resetPin ∈ rest) ∧ HostEvent.resetPin ∉ [HostEvent.command 0] :=
  ⟨by decide, exists_of_runsWell (by decide), by decide, by decide, by decide,
    ⟨[.command 0, .resetPin], rfl, by decide⟩, by decide⟩
theorem witness_CtlResetRestores :
    (faultedState.withEvents [.command 0x01000000]).events = .command 0x01000000 :: [] := by decide
theorem witness_OnlyResetLeavesFault :
    (∃ t, step (faultedState.withEvents [.command 0x01000000]) = .next t ∧ Healthy t) ∧
      (∃ t, step (faultedState.withEvents [.resetPin]) = .next t ∧ Healthy t) ∧
      ∃ t, step (faultedState.withEvents [.resetDuring 0]) = .next t ∧ Healthy t :=
  ⟨exists_of_runsWell (by decide), exists_of_runsWell (by decide), exists_of_runsWell (by decide)⟩
theorem witness_FaultsOfEachCommand : Healthy State.reset ∧ ∃ t, exec (.qtBuild 101) State.reset = .next t ∧
    t.fault.faulted = true := ⟨by decide, _, rfl, rfl⟩
theorem witness_IllegalSequenceFaults : firstTaken.lzw.active = true ∧ State.reset.lzw.active = false ∧
    State.reset.dct.sbWr.getLsbD 0 = false ∧ State.reset.dct.sbWr.getLsbD 63 = false ∧
    State.reset.dct.cbValid = false ∧ ((jpegReady 0 0).withQt { valid := false, quality := 1, scale := 1 }).qt.valid = false ∧
    State.reset.huf.valid = false ∧ (State.reset.dct.qbWr.getLsbD 63 = false ∧ (jpegReady 0 0).huf.valid = true) := by
  decide
theorem witness_OperandCheckFaults : State.reset.lzw.active = false ∧ (2 < 3 ∧ 9 < 10 ∧ 100 < 101 ∧ 16 < 17) ∧
    firstTaken.lzw.active = true ∧ 2 ^ (firstTaken.lzw.initBits.toNat - 1) ≤ (4 : Byte).toNat ∧
    noSymbolYet.lzw.active = true ∧ noSymbolYet.lzw.havePrefix = false := by decide
theorem witness_CoeffRangeFaults :
    ((jpegReady 2048 0).huf.valid = true ∧ (jpegReady 2048 0).dct.qbWr = BitVec.allOnes 64 ∧
      BuffersOk (jpegReady 2048 0) ∧ 11 < bitlen (qbAt (jpegReady 2048 0).mem 0 - (predOf (jpegReady 2048 0).huf 0).toInt).natAbs) ∧
    (BuffersOk (jpegReady 0 1024) ∧ 10 < bitlen (qbAt (jpegReady 0 1024).mem 63).natAbs) :=
  ⟨⟨by decide, by decide, jpegReady_buffersOk _ _, by decide +kernel⟩, jpegReady_buffersOk _ _, by decide +kernel⟩
theorem witness_SinkRefusalTearsOutput : Healthy oneBuffered ∧ SinkAccepts oneBuffered ∧
    (∃ t, exec .pkFlush oneBuffered = .next t ∧ Healthy t) ∧
    nextIs (exec .pkFlush oneBuffered) (fun t => t.out == oneBuffered.out ++ [1, 0x11]) = true ∧ 1 < [1, 0x11].length :=
  ⟨by decide, by decide, exists_of_runsWell (by decide), by decide, by decide⟩
theorem witness_OutOnlyGrows : (∃ t, step (oneBuffered.withEvents [.command 0x21000000]) = .next t ∧ Healthy t) ∧
    nextIs (step (oneBuffered.withEvents [.command 0x21000000, .resetPin])) (fun t => pinPulses t.events == 1) = true ∧
    pinPulses [.command 0x21000000, .resetPin] = 1 :=
  ⟨exists_of_runsWell (by decide), by decide, by decide⟩
theorem witness_QuietCommandsKeepOut : sinkFree (.lzwStart 9) = true ∧ Healthy packersFull ∧
    ∃ t, exec (.lzwStart 9) packersFull = .next t ∧ Healthy t :=
  ⟨by decide, by decide, exists_of_runsWell (by decide +kernel)⟩
theorem witness_MemoryStaysCanonical : (oneEntry.withEvents [.command 0x31000002]).mem.wf = true ∧
    ∃ t, step (oneEntry.withEvents [.command 0x31000002]) = .next t ∧ Healthy t :=
  ⟨by decide, exists_of_runsWell (by decide)⟩
theorem witness_FaultRegsStayLegal : FaultRegsOk (State.reset.withEvents [.command 0]) ∧
    FaultRegsOk (faultedState.withEvents [.command 0]) ∧
    ∃ t, step (State.reset.withEvents [.command 0]) = .next t ∧ t.fault.faulted = true :=
  ⟨by unfold FaultRegsOk; decide, by unfold FaultRegsOk; decide, _, rfl, rfl⟩
theorem packersFull_ok : PackersOk packersFull := by
  refine ⟨by decide, by decide, by decide, fun i hi => ?_⟩
  show (spaceRead (spaceFill 254 _) i).isSome = true
  have : i < 254 := hi
  rw [spaceRead_fill, if_pos this]
  rfl
theorem witness_PackersStayGood : PackersOk (packersFull.withEvents [.command 0x1010FFFF]) ∧
    ∃ t, step (packersFull.withEvents [.command 0x1010FFFF]) = .next t ∧ Healthy t :=
  ⟨packersFull_ok, exists_of_runsWell (by decide +kernel)⟩
theorem witness_TablesStayBuilt :
    (BuffersOk (jpegReady 0 0) ∧ QuantOk (jpegReady 0 0) ∧ HuffOk (jpegReady 0 0) ∧ CbOk (jpegReady 0 0)) ∧
    ∃ t, step ((jpegReady 0 0).withEvents [.command 0x80003FFF]) = .next t ∧ Healthy t :=
  ⟨⟨jpegReady_buffersOk _ _, jpegReady_quantOk _ _, jpegReady_huffOk _ _, jpegReady_cbOk _ _⟩,
    exists_of_runsWell (by decide +kernel)⟩
theorem witness_LzwRegistersStayGood : LzwOk (oneEntry.withEvents [.command 0x31000002]) ∧
    ∃ t, step (oneEntry.withEvents [.command 0x31000002]) = .next t ∧ Healthy t :=
  ⟨by unfold LzwOk; decide, exists_of_runsWell (by decide)⟩
theorem witness_DictionaryStaysGood : LzwOk oneEntry ∧ DictOk oneEntry ∧ LzwOk (bigDict 4089 4091) ∧
    DictOk (bigDict 4089 4091) ∧ ∃ t, step (oneEntry.withEvents [.command 0x31000002]) = .next t ∧ Healthy t :=
  ⟨by unfold LzwOk; decide, by unfold DictOk; decide, bigDict_lzwOk (by decide) (by decide) (by decide) (by decide),
    bigDict_dictOk (by decide), exists_of_runsWell (by decide)⟩
theorem witness_WidthFollowsFreeEnt : LzwOk oneEntry ∧ WidthOk oneEntry ∧
    ∃ t, step (oneEntry.withEvents [.command 0x31000002]) = .next t ∧ Healthy t :=
  ⟨by unfold LzwOk; decide, by unfold WidthOk; decide, exists_of_runsWell (by decide)⟩
theorem witness_CoreOkKept : CoreOk (State.reset.withEvents [.command 0x30000003]) ∧
    ∃ t, step (State.reset.withEvents [.command 0x30000003]) = .next t ∧ Healthy t :=
  ⟨coreOk_offered _, exists_of_runsWell (by decide)⟩
theorem witness_NoInternalStop : CoreOk (State.reset.withEvents [.command 0x30000003]) ∧
    SinkReply.never ∉ (State.reset.withEvents [.command 0x30000003]).sink ∧
    (CoreOk (State.reset.withEvents [.command 0, .resetPin]) ∧ HostEvent.resetPin ∈ [HostEvent.command 0, .resetPin]) ∧
    CoreOk (State.reset.withEvents [.resetDuring 0x50000000]) :=
  ⟨coreOk_offered _, by decide, ⟨coreOk_offered _, by decide⟩, coreOk_offered _⟩
theorem witness_PkWriteBuffers : packersFull.lzw.active = false ∧ PacketOk packersFull ∧ SinkAccepts packersFull ∧
    PacketOk oneBuffered := ⟨by decide, packersFull_ok.2.2, by decide, by unfold PacketOk; decide⟩
theorem witness_PkFlushEmitsBlock : packersFull.lzw.active = false ∧ PacketOk packersFull ∧ SinkAccepts packersFull :=
  ⟨by decide, packersFull_ok.2.2, by decide⟩
theorem witness_BpWritePacksLsbFirst : (1 ≤ 16 ∧ 16 ≤ 16) ∧ packersFull.lzw.active = false ∧ AccOk packersFull.bp ∧
    PacketOk packersFull ∧ SinkAccepts packersFull :=
  ⟨by decide, by decide, packersFull_ok.1, packersFull_ok.2.2, by decide⟩
theorem witness_BpFlushPads : packersFull.lzw.active = false ∧ AccOk packersFull.bp ∧ PacketOk packersFull ∧
    SinkAccepts packersFull ∧ (State.reset.bp.cnt = 0 ∧ AccOk State.reset.bp) :=
  ⟨by decide, packersFull_ok.1, packersFull_ok.2.2, by decide, by decide⟩
theorem witness_PackedStreamBytes : (∀ w ∈ [((0xFFFF : BitVec 16), 16), (5, 1)], 1 ≤ w.2 ∧ w.2 ≤ 16) ∧
    State.reset.lzw.active = false ∧ State.reset.bp = { acc := 0, cnt := 0 } ∧ State.reset.pkCnt = 0 ∧
    SinkAccepts State.reset := by decide
theorem witness_LzwStartOpensStream : packersFull.lzw.active = false ∧ (3 ≤ 3 ∧ 9 ≤ 9) := by decide
theorem witness_LzwSymFirstSymbol : noSymbolYet.lzw.active = true ∧ noSymbolYet.lzw.havePrefix = false ∧
    (3 : Byte).toNat < 2 ^ (noSymbolYet.lzw.initBits.toNat - 1) := by decide
theorem witness_LzwSymExtendsMatch : oneEntry.lzw.active = true ∧ oneEntry.lzw.havePrefix = true ∧ DictOk oneEntry ∧
    (1 : Byte).toNat < 2 ^ (oneEntry.lzw.initBits.toNat - 1) ∧
    spaceRead oneEntry.mem.htab 16 = some { key := 4096, code := 6 } ∧
    (4096 : BitVec 20).toNat = (1 : Byte).toNat * 2 ^ 12 + oneEntry.lzw.prefixCode.toNat :=
  ⟨by decide, by decide, by unfold DictOk; decide, by decide, by decide, by decide⟩
theorem witness_LzwSymAddsPair : (bigDict 4089 4091).lzw.active = true ∧ (bigDict 4089 4091).lzw.havePrefix = true ∧
    LzwOk (bigDict 4089 4091) ∧ DictOk (bigDict 4089 4091) ∧ AccOk (bigDict 4089 4091).bp ∧ PacketOk (bigDict 4089 4091) ∧
    SinkAccepts (bigDict 4089 4091) ∧ (0 : Byte).toNat < 2 ^ ((bigDict 4089 4091).lzw.initBits.toNat - 1) ∧
    (bigDict 4089 4091).lzw.freeEnt.toNat < 4096 ∧
    (∀ k slot, spaceRead (bigDict 4089 4091).mem.htab k = some slot →
      slot.key.toNat ≠ (0 : Byte).toNat * 2 ^ 12 + (bigDict 4089 4091).lzw.prefixCode.toNat) :=
  ⟨rfl, rfl, bigDict_lzwOk (by decide) (by decide) (by decide) (by decide), bigDict_dictOk (by decide), by decide,
    ⟨by decide, fun i hi => absurd hi (Nat.not_lt_zero i)⟩, by decide, by decide, by decide,
    bigDict_absent (key := 4091) (by decide) (by decide)⟩
theorem witness_LzwSymResetsDictionary : (bigDict 4090 4091).lzw.active = true ∧
    (bigDict 4090 4091).lzw.havePrefix = true ∧ LzwOk (bigDict 4090 4091) ∧ DictOk (bigDict 4090 4091) ∧
    AccOk (bigDict 4090 4091).bp ∧ PacketOk (bigDict 4090 4091) ∧ SinkAccepts (bigDict 4090 4091) ∧
    (0 : Byte).toNat < 2 ^ ((bigDict 4090 4091).lzw.initBits.toNat - 1) ∧
    (bigDict 4090 4091).lzw.freeEnt.toNat = 4096 ∧
    (∀ k slot, spaceRead (bigDict 4090 4091).mem.htab k = some slot →
      slot.key.toNat ≠ (0 : Byte).toNat * 2 ^ 12 + (bigDict 4090 4091).lzw.prefixCode.toNat) :=
  ⟨rfl, rfl, bigDict_lzwOk (by decide) (by decide) (by decide) (by decide), bigDict_dictOk (by decide), by decide,
    ⟨by decide, fun i hi => absurd hi (Nat.not_lt_zero i)⟩, by decide, by decide, by decide,
    bigDict_absent (key := 4091) (by decide) (by decide)⟩
theorem witness_LzwEndClosesStream : beforeEnd.lzw.active = true ∧ beforeEnd.lzw.havePrefix = true ∧ LzwOk beforeEnd ∧
    AccOk beforeEnd.bp ∧ PacketOk beforeEnd ∧ SinkAccepts beforeEnd :=
  ⟨by decide, by decide, by unfold LzwOk; decide, by decide, by unfold PacketOk; decide, by decide⟩
theorem witness_ProbeFindsExactly : oneEntry.lzw.active = true ∧ LzwOk oneEntry ∧ DictOk oneEntry ∧
    LzwOk (bigDict 4090 4091) ∧ DictOk (bigDict 4090 4091) ∧
    (∀ k slot, spaceRead (bigDict 4090 4091).mem.htab k = some slot →
      slot.key.toNat ≠ (255 : Byte).toNat * 2 ^ 12 + (4095 : BitVec 12).toNat) :=
  ⟨by decide, by unfold LzwOk; decide, by unfold DictOk; decide,
    bigDict_lzwOk (by decide) (by decide) (by decide) (by decide), bigDict_dictOk (by decide),
    bigDict_absent (key := 255 * 2 ^ 12 + 4095) (by decide) (by decide)⟩
/-- The unit's commands complete in each state the transition table names. -/
theorem witness_PhaseTransitions :
    (∃ t, exec (.lzwStart 9) State.reset = .next t ∧ Healthy t) ∧ (∃ t, exec .lzwEnd beforeEnd = .next t ∧ Healthy t) ∧
    (∃ t, exec (.lzwSym 3) noSymbolYet = .next t ∧ Healthy t) ∧
    (∃ t, exec (.lzwSym 0) firstTaken = .next t ∧ Healthy t) ∧
    (∃ t, exec (.lzwSym 1) oneEntry = .next t ∧ Healthy t) ∧
    (∃ t, exec (.lzwSym 0) (bigDict 4088 4091) = .next t ∧ Healthy t) ∧
    (∃ t, exec (.lzwSym 0) (bigDict 4089 4091) = .next t ∧ Healthy t) ∧
    (∃ t, exec (.lzwSym 0) (bigDict 4090 7) = .next t ∧ Healthy t) ∧
    (∃ t, exec (.lzwSym 0) (bigDict 4090 4091) = .next t ∧ Healthy t) ∧
    [lzwPhase noSymbolYet.lzw, lzwPhase firstTaken.lzw, lzwPhase oneEntry.lzw, lzwPhase (bigDict 4089 4091).lzw,
      lzwPhase (bigDict 4090 7).lzw] = [.cleared, .cleared, .accumulating, .accumulating, .full] ∧
    LzwOk noSymbolYet ∧ DictOk noSymbolYet ∧ LzwOk firstTaken ∧ DictOk firstTaken ∧ LzwOk (bigDict 4090 7) ∧
    DictOk (bigDict 4090 7) :=
  ⟨exists_of_runsWell (by decide), exists_of_runsWell (by decide), exists_of_runsWell (by decide +kernel),
    exists_of_runsWell (by decide), exists_of_runsWell (by decide), exists_of_runsWell (by decide +kernel),
    exists_of_runsWell (by decide +kernel), exists_of_runsWell (by decide +kernel), exists_of_runsWell (by decide +kernel),
    by decide, by unfold LzwOk; decide, by unfold DictOk; decide, by unfold LzwOk; decide, by unfold DictOk; decide,
    bigDict_lzwOk (by decide) (by decide) (by decide) (by decide), bigDict_dictOk (by decide)⟩
theorem witness_LzwStreamRefinesAbstract : (3 ≤ 3 ∧ 9 ≤ 9) ∧ (∀ x ∈ (3 : Byte) :: [0, 1, 1, 0], x.toNat < 2 ^ (3 - 1)) ∧
    (∀ x ∈ (255 : Byte) :: [], x.toNat < 2 ^ (9 - 1)) ∧ packersFull.lzw.active = false ∧ SinkAccepts packersFull := by
  decide
theorem witness_QtBuildTables : (1 ≤ 1 ∧ 100 ≤ 100) ∧ ∃ t, exec (.qtBuild 1) packersFull = .next t ∧ Healthy t :=
  ⟨by decide, exists_of_runsWell rfl⟩
theorem witness_QuantumNeverZero : Healthy State.reset ∧ (∃ t, exec (.qtBuild 100) State.reset = .next t ∧ Healthy t) ∧
    QuantOk (jpegReady 0 0) ∧ (jpegReady 0 0).qt.valid = true :=
  ⟨by decide, exists_of_runsWell rfl, jpegReady_quantOk _ _, rfl⟩
theorem witness_QuantumMonotone : (1 ≤ 10 ∧ 10 ≤ 100 ∧ 100 ≤ 100) ∧
    (∃ t, exec (.qtBuild 10) State.reset = .next t ∧ Healthy t) ∧
    ∃ t, exec (.qtBuild 100) State.reset = .next t ∧ Healthy t :=
  ⟨by decide, exists_of_runsWell rfl, exists_of_runsWell rfl⟩
theorem witness_DctFwdBilinear : (jpegReady 0 0).dct.sbWr = BitVec.allOnes 64 ∧ BuffersOk (jpegReady 0 0) :=
  ⟨rfl, jpegReady_buffersOk _ _⟩
theorem witness_DctQuantRounds : (jpegReady 0 0).dct.cbValid = true ∧ (jpegReady 0 0).qt.valid = true ∧
    CbOk (jpegReady 0 0) ∧ QuantOk (jpegReady 0 0) := ⟨rfl, rfl, jpegReady_cbOk _ _, jpegReady_quantOk _ _⟩
theorem witness_GreyBlockQuantisesToZero : (jpegReady 0 0).dct.sbWr = BitVec.allOnes 64 ∧
    (∀ i, i < 64 → spaceRead (jpegReady 0 0).mem.sb i = some 128) ∧ (jpegReady 0 0).qt.valid = true ∧
    QuantOk (jpegReady 0 0) := by
  refine ⟨rfl, fun i hi => ?_, rfl, jpegReady_quantOk _ _⟩
  show spaceRead (spaceFill 64 _) i = _
  rw [spaceRead_fill, if_pos hi]
theorem witness_QuantisedBlockEncodes : (2 ≤ 2) ∧ (jpegReady 0 0).dct.cbValid = true ∧ (jpegReady 0 0).qt.valid = true ∧
    (jpegReady 0 0).huf.valid = true ∧ CbOk (jpegReady 0 0) ∧ QuantOk (jpegReady 0 0) ∧ HuffOk (jpegReady 0 0) ∧
    AccOk (jpegReady 0 0).jbp ∧ SinkAccepts (jpegReady 0 0) ∧
    (predOf (jpegReady 0 0).huf 2).toInt = -1024 ∧ (predOf (jpegReady 0 0).huf 1).toInt = 1016 :=
  ⟨by decide, rfl, rfl, rfl, jpegReady_cbOk _ _, jpegReady_quantOk _ _, jpegReady_huffOk _ _, by decide, by decide, by decide,
    by decide⟩
theorem witness_HufBlockBits : (2 ≤ 2) ∧ (jpegReady 2047 1023).huf.valid = true ∧
    (jpegReady 2047 1023).dct.qbWr = BitVec.allOnes 64 ∧ BuffersOk (jpegReady 2047 1023) ∧ HuffOk (jpegReady 2047 1023) ∧
    AccOk (jpegReady 2047 1023).jbp ∧ SinkAccepts (jpegReady 2047 1023) ∧
    bitlen (qbAt (jpegReady 2047 1023).mem 0 - (predOf (jpegReady 2047 1023).huf 0).toInt).natAbs ≤ 11 ∧
    (∀ i, 1 ≤ i → i < 64 → bitlen (qbAt (jpegReady 2047 1023).mem i).natAbs ≤ 10) := by
  refine ⟨by decide, rfl, rfl, jpegReady_buffersOk _ _, jpegReady_huffOk _ _, by decide, by decide, by decide +kernel,
    fun i h1 h2 => ?_⟩
  have hr : spaceRead (jpegReady 2047 1023).mem.qb i = some (if i = 0 then 2047 else if i = 63 then 1023 else 0) := by
    show spaceRead (spaceFill 64 _) i = _
    rw [spaceRead_fill, if_pos h2]
  unfold qbAt
  rw [hr, if_neg (by omega)]
  split <;> decide
theorem witness_JbpWriteBits : (1 ≤ 16 ∧ 16 ≤ 16) ∧ AccOk packersFull.jbp ∧ SinkAccepts packersFull := by decide
theorem witness_JbpFlushPads : AccOk packersFull.jbp ∧ SinkAccepts packersFull ∧ AccOk State.reset.jbp := by decide
theorem witness_BufLdsStores : 63 < 64 := by decide
theorem witness_BufLdqStores : 63 < 64 := by decide
theorem witness_PipelinesIndependent :
    (Healthy (jpegReady 0 0) ∧ jpegCommand .hufBuild = true ∧ ∃ t, exec .hufBuild (jpegReady 0 0) = .next t ∧ Healthy t) ∧
    (Healthy oneEntry ∧ gifCommand (.lzwSym 2) = true ∧ ∃ t, exec (.lzwSym 2) oneEntry = .next t ∧ Healthy t) :=
  ⟨⟨by decide, by decide, exists_of_runsWell rfl⟩, by decide, by decide, exists_of_runsWell (by decide)⟩
theorem witness_CommandsIgnoreOut : (∃ t, exec .pkFlush (oneBuffered.withOut [1]) = .next t ∧ Healthy t) ∧
    ∃ t, exec .dctFwd State.reset = .next t ∧ t.fault.faulted = true :=
  ⟨exists_of_runsWell (by decide), _, rfl, rfl⟩
theorem witness_ReadPortMap : (oneEntry.lzw.active = true ∧ 3 ≤ oneEntry.lzw.initBits.toNat ∧
      oneEntry.lzw.initBits.toNat ≤ 9) ∧ (jpegReady 0 0).dct.sbWr.getLsbD 63 = true ∧
    spaceRead (jpegReady 0 0).mem.sb 63 = some 128 ∧ (jpegReady 0 0).dct.qbWr.getLsbD 0 = true ∧
    spaceRead (jpegReady (-1) 0).mem.qb 0 = some (-1) ∧ (jpegReady 0 0).qt.valid = true ∧
    (spaceRead (jpegReady 0 0).mem.qtab 127).isSome = true ∧ (jpegReady 0 0).huf.valid = true ∧
    (spaceRead (jpegReady 0 0).mem.huft 1023).isSome = true ∧
    (0x016 < (0x017 : BitVec 12).toNat ∧ (0x0FF : BitVec 12).toNat < 0x100) ∧ 0x800 ≤ (0xFFF : BitVec 12).toNat := by
  refine ⟨by decide, by decide, by decide +kernel, by decide, by decide +kernel, rfl, ?_, rfl, ?_, by decide, by decide⟩
  · simp [jpegReady, spaceRead_fill]
  · simp [jpegReady, spaceRead_fill]
/-- The states of HUFT and the reset-free statements have no hypotheses but ranges: their ends. -/
theorem witness_HuffmanCanonical : 3 < 4 ∧ (huffEntry 3 0xFA).len ≠ 0 ∧ (huffEntry 3 0).len ≠ 0 ∧ 0 + 1 < (hval 3).length := by
  decide +kernel
theorem witness_HufBuildTables : 3 < 4 ∧ 255 < 256 := by decide

end Sys2Proof.Tests
end

section
/-! PROOFS. The two pipelines are independent (00_scope.md R4, 20_memory.md R63). One notion carries the proof: a
procedure commutes with replacing the other pipeline's state, in every outcome. That it does not read that state is the
commutation itself; that it does not change it is the commutation with a replacement by what already stands there. -/

namespace Sys2Proof.Machine

/-- The result with its state replaced by `f` of it. -/
def Res.map (f : State → State) (r : Res) : Res :=
  match r with
  | .done s => .done (f s)
  | .raised c s => .raised c (f s)
  | .stopped e => .stopped e

@[simp] theorem Res.map_done (f : State → State) (s : State) : (Res.done s).map f = .done (f s) := rfl
@[simp] theorem Res.map_raised (f : State → State) (c : Cause) (s : State) :
    (Res.raised c s).map f = .raised c (f s) := rfl
@[simp] theorem Res.map_stopped (f : State → State) (e : Fault) : (Res.stopped e).map f = .stopped e := rfl

/-- `k` neither reads nor changes what `f` replaces: replacing it before `k` or after `k` is the same. -/
def Commutes (f : State → State) (k : State → Res) : Prop := ∀ s, k (f s) = (k s).map f

/-- Two procedures in sequence. -/
theorem Commutes.andThen {f : State → State} {j k : State → Res} (hj : Commutes f j) (hk : Commutes f k) :
    Commutes f (fun s => (j s).andThen k) := by
  intro s
  show (j (f s)).andThen k = ((j s).andThen k).map f
  rw [hj s]
  cases j s with
  | done t => exact hk t
  | raised c t => rfl
  | stopped e => rfl

/-- A branch on a condition that does not depend on what `f` replaces. -/
theorem Commutes.ite {f : State → State} {p : State → Prop} [DecidablePred p] {j k : State → Res}
    (hj : Commutes f j) (hk : Commutes f k) (hp : ∀ s, p (f s) ↔ p s) :
    Commutes f (fun s => if p s then j s else k s) := by
  intro s
  by_cases h : p s
  · simp only [hp, h, if_true, hj s]
  · simp only [hp, h, if_false, hk s]

/-- A check made before `k` runs, where what comes after it may have been fixed by the same state. -/
theorem Commutes.require {f : State → State} {p : State → Bool} {c : Cause} {k : State → State → Res}
    (hk : Commutes f (fun s => k s s)) (hp : ∀ s, p (f s) = p s) :
    Commutes f (fun s => require (p s) c (k s) s) :=
  hk.ite (p := fun s => p s = true) (k := .raised c) (fun _ => rfl) (fun s => by rw [hp])

theorem Commutes.withValues {f : State → State} {p : State → Bool} {k : State → State → Res}
    (hk : Commutes f (fun s => k s s)) (hp : ∀ s, p (f s) = p s) :
    Commutes f (fun s => withValues (p s) (k s) s) :=
  hk.ite (p := fun s => p s = true) (k := fun _ => .stopped .noValue) (fun _ => rfl) (fun s => by rw [hp])

/-! The sink and OUT belong to both pipelines. -/

/-- `f` leaves OUT and the sink's answers alone and does not depend on them (10_state.md R36, R41). -/
structure KeepsSink (f : State → State) : Prop where
  sink : ∀ s, (f s).sink = s.sink
  out : ∀ s, (f s).out = s.out
  withSink : ∀ s v, (f s).withSink v = f (s.withSink v)
  withOut : ∀ s v, (f s).withOut v = f (s.withOut v)

theorem sinkWrite_commutes {f : State → State} (hf : KeepsSink f) (b : Byte) : Commutes f (sinkWrite b) := by
  intro s
  simp only [sinkWrite, hf.sink, hf.out, hf.withSink, hf.withOut]
  cases s.sink with
  | nil => rfl
  | cons r rest => cases r <;> rfl

theorem sinkWrites_commutes {f : State → State} (hf : KeepsSink f) (bs : List Byte) : Commutes f (sinkWrites bs) := by
  induction bs with
  | nil => exact fun _ => rfl
  | cons b rest ih => exact (sinkWrite_commutes hf b).andThen ih

/-! Commands. -/

/-- What a command does is `k`, concluded with the command's own word (60_exceptions.md R301). -/
def RunsAs (i : Instr) (k : State → Res) : Prop := ∀ s, exec i s = conclude (encode i) (k s)

/-- A command that completes without a fault does the same after a replacement that its procedure commutes with. A
command that faults need not: trap entry makes every element unspecified (R312). -/
theorem RunsAs.commutes {i : Instr} {k : State → Res} (hi : RunsAs i k) {f : State → State} (hf : Commutes f k)
    {s t : State} (h : exec i s = .next t) (ht : Healthy t) : k s = .done t ∧ exec i (f s) = .next (f t) := by
  rw [hi] at h
  rcases conclude_eq_next h with hk | ⟨c, u, -, rfl⟩
  · exact ⟨hk, by rw [hi, hf s, hk, Res.map_done, conclude_done]⟩
  · exact absurd ht (by simp [Healthy])

/-- Both halves of independence from the commutation alone, for `F s g` that takes part of the state from `g`. -/
theorem RunsAs.independent {i : Instr} {k : State → Res} (hi : RunsAs i k) {F : State → State → State}
    (hself : ∀ s, F s s = s) (hF : ∀ g, Commutes (F · g) k) {s t : State} (h : exec i s = .next t) (ht : Healthy t)
    (g : State) : F t s = t ∧ exec i (F s g) = .next (F t g) := by
  obtain ⟨hk, hg⟩ := hi.commutes (hF g) h ht
  have hmap : k (F s s) = (k s).map (F · s) := hF s s
  rw [hself, hk] at hmap
  exact ⟨(Res.done.inj hmap).symm, hg⟩

/-! The JPEG pipeline over another GIF state. -/

@[simp] theorem withGifOf_self (s : State) : withGifOf s s = s := rfl
@[simp] theorem withGifOf_sb (s g : State) : (withGifOf s g).mem.sb = s.mem.sb := rfl
@[simp] theorem withGifOf_qb (s g : State) : (withGifOf s g).mem.qb = s.mem.qb := rfl
@[simp] theorem withGifOf_huft (s g : State) : (withGifOf s g).mem.huft = s.mem.huft := rfl

theorem keepsSink_withGifOf (g : State) : KeepsSink (withGifOf · g) :=
  ⟨fun _ => rfl, fun _ => rfl, fun _ _ => rfl, fun _ _ => rfl⟩

theorem loadSample_commutes (g : State) (idx : Nat) (val : Byte) : Commutes (withGifOf · g) (loadSample idx val) := by
  intro s
  simp only [loadSample, withGifOf_sb]
  cases spaceStore 64 s.mem.sb idx val <;> rfl

theorem loadCoeff_commutes (g : State) (idx : Nat) (val : BitVec 16) :
    Commutes (withGifOf · g) (loadCoeff idx val) := by
  intro s
  simp only [loadCoeff, withGifOf_qb]
  cases spaceStore 64 s.mem.qb idx val <;> rfl

theorem buildQuant_commutes (g : State) (q : Nat) : Commutes (withGifOf · g) (buildQuant q) := fun _ => rfl

/-- The table is one opaque value here: its 1024 entries need no evaluation. -/
theorem buildHuff_commutes (g : State) : Commutes (withGifOf · g) buildHuff := by
  intro s
  simp only [buildHuff, Res.map_done]
  generalize spaceFill 1024 _ = m
  rfl

theorem fwdDct_commutes (g : State) : Commutes (withGifOf · g) fwdDct :=
  Commutes.withValues (fun _ => rfl) (fun _ => rfl)

theorem quantise_commutes (g : State) (cls : Cls) : Commutes (withGifOf · g) (quantise cls) :=
  Commutes.withValues (fun _ => rfl) (fun _ => rfl)

theorem jbpDrain_commutes (g : State) (k : Nat) : Commutes (withGifOf · g) (jbpDrain k) := by
  induction k with
  | zero => exact fun _ => rfl
  | succ k ih =>
    have hbyte : Commutes (withGifOf · g)
        (fun s => sinkWrites (stuffed (BitVec.ofNat 8 (s.jbp.acc.toNat / 2 ^ (s.jbp.cnt.toNat - 8)))) s) :=
      fun s => sinkWrites_commutes (keepsSink_withGifOf g) _ s
    exact hbyte.andThen (k := fun t => jbpDrain k (t.withJbp (dropOldest t.jbp))) (fun t => ih (t.withJbp _))

theorem jbpWrite_commutes (g : State) (code n : Nat) : Commutes (withGifOf · g) (jbpWrite code n) :=
  fun s => jbpDrain_commutes g _ (s.withJbp (loadJbp s.jbp code n))

theorem jbpFlush_commutes (g : State) : Commutes (withGifOf · g) jbpFlush := by
  have hbyte : Commutes (withGifOf · g)
      (fun s => sinkWrite (BitVec.ofNat 8 (s.jbp.acc.toNat * 2 ^ (8 - s.jbp.cnt.toNat))) s) :=
    fun s => sinkWrite_commutes (keepsSink_withGifOf g) _ s
  have hpad := hbyte.andThen (k := fun t => .done (t.withJbp { acc := 0, cnt := 0 })) (fun _ => rfl)
  exact Commutes.ite (p := fun s => s.jbp.cnt = 0) (j := .done) (fun _ => rfl) hpad (fun _ => Iff.rfl)

theorem emitSym_commutes (g : State) (t sym : Nat) : Commutes (withGifOf · g) (emitSym t sym) := by
  intro s
  simp only [emitSym, withGifOf_huft]
  cases spaceRead s.mem.huft (256 * t + sym) with
  | none => rfl
  | some h => exact jbpWrite_commutes g _ _ s

theorem emitZrl_commutes (g : State) (acT k : Nat) : Commutes (withGifOf · g) (emitZrl acT k) := by
  induction k with
  | zero => exact fun _ => rfl
  | succ k ih => exact (emitSym_commutes g acT zrl).andThen ih

theorem emitCoeff_commutes (g : State) (acT r : Nat) (v : Int) : Commutes (withGifOf · g) (emitCoeff acT r v) :=
  (emitZrl_commutes g acT _).andThen ((emitSym_commutes g acT _).andThen (jbpWrite_commutes g _ _))

theorem scanAc_commutes (g : State) (acT : Nat) (vs : List Int) (r : Nat) :
    Commutes (withGifOf · g) (scanAc acT vs r) := by
  induction vs generalizing r with
  | nil => exact (emitSym_commutes g acT eob).ite (p := fun _ => 0 < r) (k := .done) (fun _ => rfl) (fun _ => Iff.rfl)
  | cons v rest ih =>
    exact (ih (r + 1)).ite (p := fun _ => v = 0) ((emitCoeff_commutes g acT r v).andThen (ih 0)) (fun _ => Iff.rfl)

theorem emitDc_commutes (g : State) (dcT : Nat) (diff : Int) : Commutes (withGifOf · g) (emitDc dcT diff) :=
  (emitSym_commutes g dcT _).andThen
    ((jbpWrite_commutes g _ _).ite (p := fun _ => 0 < cat diff) (k := .done) (fun _ => rfl) (fun _ => Iff.rfl))

/-- The block's DC difference and AC values come from QB and PRED, which are the JPEG pipeline's own. -/
theorem emitBlock_commutes (g : State) (comp : Nat) (cls : Cls) : Commutes (withGifOf · g) (emitBlock comp cls) := by
  intro s
  have hpred : Commutes (withGifOf · g)
      (fun u => .done (u.withHuf (setPred u.huf comp ((spaceRead s.mem.qb 0).getD 0)))) := fun _ => rfl
  have hac := (scanAc_commutes g (acTable cls) (acValues s.mem) 0).andThen hpred
  exact (emitDc_commutes g (dcTable cls) (dcDiff comp s)).andThen hac s

/-- Every JPEG command commutes with replacing the GIF pipeline's state. -/
theorem jpegCommand_commutes {i : Instr} (hi : jpegCommand i = true) :
    ∃ k, RunsAs i k ∧ ∀ g, Commutes (withGifOf · g) k := by
  cases i with
  | qtBuild q => exact ⟨_, fun _ => rfl, fun g => (buildQuant_commutes g q).require (fun _ => rfl)⟩
  | dctFwd => exact ⟨_, fun _ => rfl, fun g => (fwdDct_commutes g).require (fun _ => rfl)⟩
  | dctQuant cls =>
    refine ⟨_, fun _ => rfl, fun g => ?_⟩
    exact .require (.require (quantise_commutes g cls) (fun _ => rfl)) (fun _ => rfl)
  | hufBuild => exact ⟨_, fun _ => rfl, buildHuff_commutes⟩
  | hufStart =>
    exact ⟨fun s => .done ((s.withHuf { s.huf with pred0 := 0, pred1 := 0, pred2 := 0 }).withJbp
      { acc := 0, cnt := 0 }), fun _ => rfl, fun _ _ => rfl⟩
  | hufBlock comp cls =>
    refine ⟨_, fun _ => rfl, fun g => ?_⟩
    exact .require (.require (.require (.withValues (.require (emitBlock_commutes g comp cls) (fun _ => rfl))
      (fun _ => rfl)) (fun _ => rfl)) (fun _ => rfl)) (fun _ => rfl)
  | jbpWrite code n => exact ⟨_, fun _ => rfl, fun g => (jbpWrite_commutes g _ n).require (fun _ => rfl)⟩
  | jbpFlush => exact ⟨_, fun _ => rfl, jbpFlush_commutes⟩
  | bufLds idx val => exact ⟨_, fun _ => rfl, fun g => loadSample_commutes g idx val⟩
  | bufLdq idx val => exact ⟨_, fun _ => rfl, fun g => loadCoeff_commutes g idx val⟩
  | _ => cases hi

/-! The GIF pipeline over another JPEG state. -/

@[simp] theorem withJpegOf_self (s : State) : withJpegOf s s = s := rfl
@[simp] theorem withJpegOf_lzw (s g : State) : (withJpegOf s g).lzw = s.lzw := rfl
@[simp] theorem withJpegOf_pkCnt (s g : State) : (withJpegOf s g).pkCnt = s.pkCnt := rfl
@[simp] theorem withJpegOf_htab (s g : State) : (withJpegOf s g).mem.htab = s.mem.htab := rfl
@[simp] theorem withJpegOf_pkbuf (s g : State) : (withJpegOf s g).mem.pkbuf = s.mem.pkbuf := rfl

theorem keepsSink_withJpegOf (g : State) : KeepsSink (withJpegOf · g) :=
  ⟨fun _ => rfl, fun _ => rfl, fun _ _ => rfl, fun _ _ => rfl⟩

theorem pkFlush_commutes (g : State) : Commutes (withJpegOf · g) pkFlush := by
  refine Commutes.ite (p := fun s => s.pkCnt = 0) (j := .done) (fun _ => rfl) (fun s => ?_) (fun _ => Iff.rfl)
  simp only [withJpegOf_pkbuf, withJpegOf_pkCnt]
  cases spaceSlice s.mem.pkbuf 0 s.pkCnt.toNat with
  | none => rfl
  | some payload => exact (sinkWrites_commutes (keepsSink_withJpegOf g) _).andThen (fun _ => rfl) s

theorem pkWrite_commutes (g : State) (b : Byte) : Commutes (withJpegOf · g) (pkWrite b) := by
  intro s
  simp only [pkWrite, withJpegOf_pkbuf, withJpegOf_pkCnt]
  cases spaceStore pkBlockMax s.mem.pkbuf s.pkCnt.toNat b with
  | none => rfl
  | some m =>
    exact (pkFlush_commutes g).ite (p := fun t => t.pkCnt.toNat = pkBlockMax) (k := .done) (fun _ => rfl)
      (fun _ => Iff.rfl) ((s.withMem (s.mem.withPkbuf m)).withPkCnt (BitVec.ofNat 8 (s.pkCnt.toNat + 1)))

theorem bpDrain_commutes (g : State) (k : Nat) : Commutes (withJpegOf · g) (bpDrain k) := by
  induction k with
  | zero => exact fun _ => rfl
  | succ k ih =>
    have hbyte : Commutes (withJpegOf · g) (fun s => pkWrite (BitVec.ofNat 8 s.bp.acc.toNat) s) :=
      fun s => pkWrite_commutes g _ s
    exact hbyte.andThen (k := fun t => bpDrain k (t.withBp (dropByte t.bp))) (fun t => ih (t.withBp _))

theorem bpWrite_commutes (g : State) (code n : Nat) : Commutes (withJpegOf · g) (bpWrite code n) :=
  fun s => bpDrain_commutes g _ (s.withBp (loadAcc s.bp code n))

theorem bpFlush_commutes (g : State) : Commutes (withJpegOf · g) bpFlush := by
  have hbyte : Commutes (withJpegOf · g) (fun s => pkWrite (BitVec.ofNat 8 s.bp.acc.toNat) s) :=
    fun s => pkWrite_commutes g _ s
  have hpad := hbyte.andThen (k := fun t => pkFlush (t.withBp { acc := 0, cnt := 0 }))
    (fun t => pkFlush_commutes g (t.withBp _))
  exact (pkFlush_commutes g).ite (p := fun s => s.bp.cnt = 0) hpad (fun _ => Iff.rfl)

theorem emitCode_commutes (g : State) (c : Nat) : Commutes (withJpegOf · g) (emitCode c) := by
  have hbp : Commutes (withJpegOf · g) (fun s => bpWrite c s.lzw.nBits.toNat s) :=
    fun s => bpWrite_commutes g c s.lzw.nBits.toNat s
  exact hbp.andThen (fun _ => rfl)

theorem insertPair_commutes (g : State) (i key : Nat) : Commutes (withJpegOf · g) (insertPair i key) := by
  intro s
  simp only [insertPair, withJpegOf_htab, withJpegOf_lzw]
  cases spaceStore hashSize s.mem.htab i
    { key := BitVec.ofNat 20 key, code := BitVec.ofNat 12 s.lzw.freeEnt.toNat } <;> rfl

theorem resetDictionary_commutes (g : State) : Commutes (withJpegOf · g) resetDictionary :=
  fun s => emitCode_commutes g (clearCode s.lzw)
    ((s.withMem (s.mem.withHtab [])).withLzw { s.lzw with freeEnt := BitVec.ofNat 13 (firstCode s.lzw) })

theorem openStream_commutes (g : State) (initBits : Nat) : Commutes (withJpegOf · g) (openStream initBits) :=
  fun s => emitCode_commutes g _
    ((((s.withLzw _).withMem (s.mem.withHtab [])).withBp { acc := 0, cnt := 0 }).withPkCnt 0)

theorem startNewMatch_commutes (g : State) (c : Byte) (i : Nat) :
    Commutes (withJpegOf · g) (startNewMatch c i) := by
  have hemit : Commutes (withJpegOf · g) (fun s => emitCode s.lzw.prefixCode.toNat s) :=
    fun s => emitCode_commutes g s.lzw.prefixCode.toNat s
  have hinsert : Commutes (withJpegOf · g) (fun t => insertPair i (hashKey c t.lzw.prefixCode) t) :=
    fun t => insertPair_commutes g i (hashKey c t.lzw.prefixCode) t
  have hdict := hinsert.ite (p := fun t => t.lzw.freeEnt.toNat < maxCodes) (resetDictionary_commutes g)
    (fun _ => Iff.rfl)
  exact hemit.andThen (hdict.andThen
    (k := fun u => .done (u.withLzw { u.lzw with prefixCode := BitVec.ofNat 12 c.toNat })) (fun _ => rfl))

theorem takeSymbol_commutes (g : State) (c : Byte) : Commutes (withJpegOf · g) (takeSymbol c) := by
  refine Commutes.ite (p := fun s => s.lzw.havePrefix = true) (fun s => ?_) (fun _ => rfl) (fun _ => Iff.rfl)
  simp only [withJpegOf_htab, withJpegOf_lzw]
  cases probe s.mem.htab c s.lzw.prefixCode with
  | found i code => rfl
  | vacant i => exact startNewMatch_commutes g c i s
  | unending => rfl

theorem closeStream_commutes (g : State) : Commutes (withJpegOf · g) closeStream := by
  have hlast : Commutes (withJpegOf · g) (fun s => emitCode s.lzw.prefixCode.toNat s) :=
    fun s => emitCode_commutes g s.lzw.prefixCode.toNat s
  have heof : Commutes (withJpegOf · g) (fun t => emitCode (eofCode t.lzw) t) :=
    fun t => emitCode_commutes g (eofCode t.lzw) t
  have hend := (sinkWrite_commutes (keepsSink_withJpegOf g) 0).andThen
    (k := fun x => .done (x.withLzw { x.lzw with active := false })) (fun _ => rfl)
  exact hlast.andThen (heof.andThen ((bpFlush_commutes g).andThen hend))

theorem unlessStream_commutes {g : State} {k : State → Res} (hk : Commutes (withJpegOf · g) k) :
    Commutes (withJpegOf · g) (unlessStream k) :=
  hk.require (p := fun s => !s.lzw.active) (fun _ => rfl)

/-- Every GIF command commutes with replacing the JPEG pipeline's state. -/
theorem gifCommand_commutes {i : Instr} (hi : gifCommand i = true) :
    ∃ k, RunsAs i k ∧ ∀ g, Commutes (withJpegOf · g) k := by
  cases i with
  | bpWrite code n =>
    exact ⟨_, fun _ => rfl, fun g => unlessStream_commutes ((bpWrite_commutes g _ n).require (fun _ => rfl))⟩
  | bpFlush => exact ⟨_, fun _ => rfl, fun g => unlessStream_commutes (bpFlush_commutes g)⟩
  | pkWrite byte => exact ⟨_, fun _ => rfl, fun g => unlessStream_commutes (pkWrite_commutes g byte)⟩
  | pkFlush => exact ⟨_, fun _ => rfl, fun g => unlessStream_commutes (pkFlush_commutes g)⟩
  | lzwStart initBits =>
    refine ⟨_, fun _ => rfl, fun g => ?_⟩
    exact .require (.require (openStream_commutes g initBits) (fun _ => rfl)) (fun _ => rfl)
  | lzwSym byte =>
    refine ⟨_, fun _ => rfl, fun g => ?_⟩
    exact .require (.require (takeSymbol_commutes g byte) (fun _ => rfl)) (fun _ => rfl)
  | lzwEnd =>
    refine ⟨_, fun _ => rfl, fun g => ?_⟩
    exact .require (.require (closeStream_commutes g) (fun _ => rfl)) (fun _ => rfl)
  | _ => cases hi

/-- Settles O58: each command's procedure commutes with replacing the other pipeline's state. -/
theorem pipelinesIndependent : Obligations.PipelinesIndependent := by
  intro i s t g _ h ht
  constructor
  · intro hi
    obtain ⟨k, hk, hcomm⟩ := jpegCommand_commutes hi
    exact hk.independent withGifOf_self hcomm h ht g
  · intro hi
    obtain ⟨k, hk, hcomm⟩ := gifCommand_commutes hi
    exact hk.independent withJpegOf_self hcomm h ht g

end Sys2Proof.Machine
end

section
/-! PROOFS. What a command neither reads nor changes: the bytes already in OUT, the events the host still holds and, but
for CTL.RESET, the fault registers (10_state.md R36, R41; 20_memory.md R75). The notion is `Commutes`, for a replacement
of all three at once; that they are unchanged is the commutation with a replacement by what already stands there. -/

namespace Sys2Proof.Machine

/-- Other surroundings of the same core: the bytes `p` in front of OUT, the events `es`, the fault registers `v`. -/
def surround (p : List Byte) (es : List HostEvent) (v : FaultRegs) (s : State) : State :=
  ((s.withOut (p ++ s.out)).withEvents es).withFault v

section
variable (p : List Byte) (es : List HostEvent) (v : FaultRegs)

@[simp] theorem surround_lzw (s : State) : (surround p es v s).lzw = s.lzw := rfl
@[simp] theorem surround_pkCnt (s : State) : (surround p es v s).pkCnt = s.pkCnt := rfl
@[simp] theorem surround_mem (s : State) : (surround p es v s).mem = s.mem := rfl
@[simp] theorem surround_sink (s : State) : (surround p es v s).sink = s.sink := rfl

/-- A byte goes behind what OUT holds, whatever that is. -/
theorem sinkWrite_surround (b : Byte) : Commutes (surround p es v) (sinkWrite b) := by
  intro s
  have hput : (surround p es v s).withOut ((p ++ s.out) ++ [b]) = surround p es v (s.withOut (s.out ++ [b])) := by
    rw [List.append_assoc]; rfl
  unfold sinkWrite
  rw [surround_sink]
  cases s.sink with
  | nil => exact congrArg Res.done hput
  | cons r rest =>
    cases r with
    | accept => exact congrArg (fun t => Res.done (t.withSink rest)) hput
    | refuse => rfl
    | never => rfl

theorem sinkWrites_surround (bs : List Byte) : Commutes (surround p es v) (sinkWrites bs) := by
  induction bs with
  | nil => exact fun _ => rfl
  | cons b rest ih => exact (sinkWrite_surround p es v b).andThen ih

/-! The packers. -/

theorem pkFlush_surround : Commutes (surround p es v) pkFlush := by
  refine Commutes.ite (p := fun s => s.pkCnt = 0) (j := .done) (fun _ => rfl) (fun s => ?_) (fun _ => Iff.rfl)
  simp only [surround_mem, surround_pkCnt]
  cases spaceSlice s.mem.pkbuf 0 s.pkCnt.toNat with
  | none => rfl
  | some payload => exact (sinkWrites_surround p es v _).andThen (fun _ => rfl) s

theorem pkWrite_surround (b : Byte) : Commutes (surround p es v) (pkWrite b) := by
  intro s
  simp only [pkWrite, surround_mem, surround_pkCnt]
  cases spaceStore pkBlockMax s.mem.pkbuf s.pkCnt.toNat b with
  | none => rfl
  | some m =>
    exact (pkFlush_surround p es v).ite (p := fun t => t.pkCnt.toNat = pkBlockMax) (k := .done) (fun _ => rfl)
      (fun _ => Iff.rfl) ((s.withMem (s.mem.withPkbuf m)).withPkCnt (BitVec.ofNat 8 (s.pkCnt.toNat + 1)))

/-- The oldest pending byte through the packet writer. -/
theorem pkWrite_pending_surround :
    Commutes (surround p es v) (fun s => pkWrite (BitVec.ofNat 8 s.bp.acc.toNat) s) :=
  fun s => pkWrite_surround p es v _ s

theorem bpDrain_surround (k : Nat) : Commutes (surround p es v) (bpDrain k) := by
  induction k with
  | zero => exact fun _ => rfl
  | succ k ih =>
    exact (pkWrite_pending_surround p es v).andThen (k := fun t => bpDrain k (t.withBp (dropByte t.bp)))
      (fun t => ih (t.withBp _))

theorem bpWrite_surround (code n : Nat) : Commutes (surround p es v) (bpWrite code n) :=
  fun s => bpDrain_surround p es v _ (s.withBp (loadAcc s.bp code n))

theorem bpFlush_surround : Commutes (surround p es v) bpFlush :=
  (pkFlush_surround p es v).ite (p := fun s => s.bp.cnt = 0)
    ((pkWrite_pending_surround p es v).andThen (k := fun t => pkFlush (t.withBp { acc := 0, cnt := 0 }))
      (fun t => pkFlush_surround p es v (t.withBp _)))
    (fun _ => Iff.rfl)

/-! The LZW compressor. -/

theorem emitCode_surround (c : LzwRegs → Nat) : Commutes (surround p es v) (fun s => emitCode (c s.lzw) s) := by
  intro s
  exact (bpWrite_surround p es v (c s.lzw) s.lzw.nBits.toNat).andThen
    (k := fun t => .done (t.withLzw { t.lzw with nBits := nextWidth (c s.lzw) t.lzw })) (fun _ => rfl) s

theorem insertPair_surround (i key : Nat) : Commutes (surround p es v) (insertPair i key) := by
  intro s
  simp only [insertPair, surround_mem, surround_lzw]
  cases spaceStore hashSize s.mem.htab i
    { key := BitVec.ofNat 20 key, code := BitVec.ofNat 12 s.lzw.freeEnt.toNat } <;> rfl

theorem resetDictionary_surround : Commutes (surround p es v) resetDictionary :=
  fun s => emitCode_surround p es v (fun _ => clearCode s.lzw)
    ((s.withMem (s.mem.withHtab [])).withLzw { s.lzw with freeEnt := BitVec.ofNat 13 (firstCode s.lzw) })

theorem openStream_surround (initBits : Nat) : Commutes (surround p es v) (openStream initBits) :=
  fun s => emitCode_surround p es v clearCode
    ((((s.withLzw _).withMem (s.mem.withHtab [])).withBp { acc := 0, cnt := 0 }).withPkCnt 0)

theorem startNewMatch_surround (c : Byte) (i : Nat) : Commutes (surround p es v) (startNewMatch c i) := by
  have hinsert : Commutes (surround p es v) (fun t => insertPair i (hashKey c t.lzw.prefixCode) t) :=
    fun t => insertPair_surround p es v i _ t
  have hdict := hinsert.ite (p := fun t => t.lzw.freeEnt.toNat < maxCodes) (resetDictionary_surround p es v)
    (fun _ => Iff.rfl)
  exact (emitCode_surround p es v (fun l => l.prefixCode.toNat)).andThen (hdict.andThen
    (k := fun u => .done (u.withLzw { u.lzw with prefixCode := BitVec.ofNat 12 c.toNat })) (fun _ => rfl))

theorem takeSymbol_surround (c : Byte) : Commutes (surround p es v) (takeSymbol c) := by
  refine Commutes.ite (p := fun s => s.lzw.havePrefix = true) (fun s => ?_) (fun _ => rfl) (fun _ => Iff.rfl)
  simp only [surround_mem, surround_lzw]
  cases probe s.mem.htab c s.lzw.prefixCode with
  | found i code => rfl
  | vacant i => exact startNewMatch_surround p es v c i s
  | unending => rfl

theorem closeStream_surround : Commutes (surround p es v) closeStream :=
  (emitCode_surround p es v (fun l => l.prefixCode.toNat)).andThen
    ((emitCode_surround p es v eofCode).andThen
      ((bpFlush_surround p es v).andThen
        ((sinkWrite_surround p es v 0).andThen
          (k := fun x => .done (x.withLzw { x.lzw with active := false })) (fun _ => rfl))))

/-! The JPEG pipeline. -/

theorem loadSample_surround (idx : Nat) (val : Byte) : Commutes (surround p es v) (loadSample idx val) := by
  intro s
  simp only [loadSample, surround_mem]
  cases spaceStore 64 s.mem.sb idx val <;> rfl

theorem loadCoeff_surround (idx : Nat) (val : BitVec 16) : Commutes (surround p es v) (loadCoeff idx val) := by
  intro s
  simp only [loadCoeff, surround_mem]
  cases spaceStore 64 s.mem.qb idx val <;> rfl

theorem buildHuff_surround : Commutes (surround p es v) buildHuff := by
  intro s
  simp only [buildHuff, Res.map_done]
  generalize spaceFill 1024 _ = m
  rfl

theorem jbpDrain_surround (k : Nat) : Commutes (surround p es v) (jbpDrain k) := by
  induction k with
  | zero => exact fun _ => rfl
  | succ k ih =>
    have hbyte : Commutes (surround p es v)
        (fun s => sinkWrites (stuffed (BitVec.ofNat 8 (s.jbp.acc.toNat / 2 ^ (s.jbp.cnt.toNat - 8)))) s) :=
      fun s => sinkWrites_surround p es v _ s
    exact hbyte.andThen (k := fun t => jbpDrain k (t.withJbp (dropOldest t.jbp))) (fun t => ih (t.withJbp _))

theorem jbpWrite_surround (code n : Nat) : Commutes (surround p es v) (jbpWrite code n) :=
  fun s => jbpDrain_surround p es v _ (s.withJbp (loadJbp s.jbp code n))

theorem jbpFlush_surround : Commutes (surround p es v) jbpFlush := by
  have hbyte : Commutes (surround p es v)
      (fun s => sinkWrite (BitVec.ofNat 8 (s.jbp.acc.toNat * 2 ^ (8 - s.jbp.cnt.toNat))) s) :=
    fun s => sinkWrite_surround p es v _ s
  exact Commutes.ite (p := fun s => s.jbp.cnt = 0) (j := .done) (fun _ => rfl)
    (hbyte.andThen (k := fun t => .done (t.withJbp { acc := 0, cnt := 0 })) (fun _ => rfl)) (fun _ => Iff.rfl)

theorem emitSym_surround (t sym : Nat) : Commutes (surround p es v) (emitSym t sym) := by
  intro s
  simp only [emitSym, surround_mem]
  cases spaceRead s.mem.huft (256 * t + sym) with
  | none => rfl
  | some h => exact jbpWrite_surround p es v _ _ s

theorem emitZrl_surround (acT k : Nat) : Commutes (surround p es v) (emitZrl acT k) := by
  induction k with
  | zero => exact fun _ => rfl
  | succ k ih => exact (emitSym_surround p es v acT zrl).andThen ih

theorem emitCoeff_surround (acT r : Nat) (x : Int) : Commutes (surround p es v) (emitCoeff acT r x) :=
  (emitZrl_surround p es v acT _).andThen ((emitSym_surround p es v acT _).andThen (jbpWrite_surround p es v _ _))

theorem scanAc_surround (acT : Nat) (xs : List Int) (r : Nat) : Commutes (surround p es v) (scanAc acT xs r) := by
  induction xs generalizing r with
  | nil =>
    exact (emitSym_surround p es v acT eob).ite (p := fun _ => 0 < r) (k := .done) (fun _ => rfl) (fun _ => Iff.rfl)
  | cons x rest ih =>
    exact (ih (r + 1)).ite (p := fun _ => x = 0) ((emitCoeff_surround p es v acT r x).andThen (ih 0))
      (fun _ => Iff.rfl)

theorem emitDc_surround (dcT : Nat) (diff : Int) : Commutes (surround p es v) (emitDc dcT diff) :=
  (emitSym_surround p es v dcT _).andThen
    ((jbpWrite_surround p es v _ _).ite (p := fun _ => 0 < cat diff) (k := .done) (fun _ => rfl) (fun _ => Iff.rfl))

theorem emitBlock_surround (comp : Nat) (cls : Cls) : Commutes (surround p es v) (emitBlock comp cls) := by
  intro s
  have hpred : Commutes (surround p es v)
      (fun u => .done (u.withHuf (setPred u.huf comp ((spaceRead s.mem.qb 0).getD 0)))) := fun _ => rfl
  exact (emitDc_surround p es v (dcTable cls) (dcDiff comp s)).andThen
    ((scanAc_surround p es v (acTable cls) (acValues s.mem) 0).andThen hpred) s

end

/-! The commands. -/

/-- Every command but CTL.RESET commutes with a change of its surroundings. -/
theorem exec_surround {i : Instr} (hi : i ≠ .ctlReset) :
    ∃ k, RunsAs i k ∧ ∀ p es v, Commutes (surround p es v) k := by
  cases i with
  | ctlReset => exact absurd rfl hi
  | bpWrite code n =>
    exact ⟨_, fun _ => rfl, fun p es v => .require (.require (bpWrite_surround p es v _ n) fun _ => rfl) fun _ => rfl⟩
  | bpFlush => exact ⟨_, fun _ => rfl, fun p es v => (bpFlush_surround p es v).require fun _ => rfl⟩
  | pkWrite byte => exact ⟨_, fun _ => rfl, fun p es v => (pkWrite_surround p es v byte).require fun _ => rfl⟩
  | pkFlush => exact ⟨_, fun _ => rfl, fun p es v => (pkFlush_surround p es v).require fun _ => rfl⟩
  | lzwStart b =>
    exact ⟨_, fun _ => rfl, fun p es v => .require (.require (openStream_surround p es v b) fun _ => rfl) fun _ => rfl⟩
  | lzwSym byte =>
    exact ⟨_, fun _ => rfl, fun p es v =>
      .require (.require (takeSymbol_surround p es v byte) fun _ => rfl) fun _ => rfl⟩
  | lzwEnd =>
    exact ⟨_, fun _ => rfl, fun p es v => .require (.require (closeStream_surround p es v) fun _ => rfl) fun _ => rfl⟩
  | qtBuild q =>
    exact ⟨_, fun _ => rfl, fun p es v => Commutes.require (k := fun _ => buildQuant q) (fun _ => rfl) fun _ => rfl⟩
  | dctFwd =>
    exact ⟨_, fun _ => rfl, fun p es v =>
      Commutes.require (k := fun _ => fwdDct) (.withValues (fun _ => rfl) fun _ => rfl) fun _ => rfl⟩
  | dctQuant cls =>
    exact ⟨_, fun _ => rfl, fun p es v =>
      .require (.require (k := fun _ => quantise cls) (.withValues (fun _ => rfl) fun _ => rfl) fun _ => rfl)
        fun _ => rfl⟩
  | hufBuild => exact ⟨_, fun _ => rfl, buildHuff_surround⟩
  | hufStart =>
    exact ⟨fun s => .done ((s.withHuf { s.huf with pred0 := 0, pred1 := 0, pred2 := 0 }).withJbp
      { acc := 0, cnt := 0 }), fun _ => rfl, fun _ _ _ _ => rfl⟩
  | hufBlock comp cls =>
    exact ⟨_, fun _ => rfl, fun p es v =>
      .require (.require (.require (.withValues (.require (emitBlock_surround p es v comp cls) fun _ => rfl)
        fun _ => rfl) fun _ => rfl) fun _ => rfl) fun _ => rfl⟩
  | jbpWrite code n => exact ⟨_, fun _ => rfl, fun p es v => (jbpWrite_surround p es v _ n).require fun _ => rfl⟩
  | jbpFlush => exact ⟨_, fun _ => rfl, jbpFlush_surround⟩
  | bufLds idx val => exact ⟨_, fun _ => rfl, fun p es v => loadSample_surround p es v idx val⟩
  | bufLdq idx val => exact ⟨_, fun _ => rfl, fun p es v => loadCoeff_surround p es v idx val⟩

/-- A procedure that commutes with a change of its surroundings leaves the host's events and the fault registers alone,
whether it ends or raises a fault. -/
theorem ends_of_surround {k : State → Res} (hk : ∀ p es v, Commutes (surround p es v) k) (s : State) :
    (k s).Ends (fun t => t.events = s.events ∧ t.fault = s.fault) (fun _ t => t.events = s.events)
      (fun _ => True) := by
  have hself : k s = (k s).map (surround [] s.events s.fault) := hk [] s.events s.fault s
  cases hr : k s with
  | done t =>
    rw [hr, Res.map_done, Res.done.injEq] at hself
    exact ⟨(congrArg State.events hself).trans rfl, (congrArg State.fault hself).trans rfl⟩
  | raised c t =>
    rw [hr, Res.map_raised, Res.raised.injEq] at hself
    exact (congrArg State.events hself.2).trans rfl
  | stopped e => trivial

/-- A command takes none of the host's events: that is the command port's part (20_memory.md R79). -/
theorem exec_events {i : Instr} {s t : State} (h : exec i s = .next t) : t.events = s.events := by
  by_cases hi : i = .ctlReset
  · subst hi; cases h; rfl
  · obtain ⟨k, hk, hc⟩ := exec_surround hi
    have hends := ends_of_surround hc s
    rw [hk] at h
    rcases conclude_eq_next h with hr | ⟨c, u, hr, rfl⟩
    · rw [hr] at hends; exact hends.1
    · rw [hr] at hends; exact hends

/-- A command that completes without a fault leaves the fault registers alone, unless it is CTL.RESET. -/
theorem exec_fault {i : Instr} {s t : State} (hi : i ≠ .ctlReset) (h : exec i s = .next t) (ht : Healthy t) :
    t.fault = s.fault := by
  obtain ⟨k, hk, hc⟩ := exec_surround hi
  have hends := ends_of_surround hc s
  rw [hk] at h
  rcases conclude_eq_next h with hr | ⟨c, u, -, rfl⟩
  · rw [hr] at hends; exact hends.2
  · exact absurd ht (by simp [Healthy])

/-- Settles O59: every command but CTL.RESET commutes with putting other bytes in front of OUT, in particular over an
empty OUT; CTL.RESET keeps OUT. -/
theorem commandsIgnoreOut : Obligations.CommandsIgnoreOut := by
  intro i s t other h
  by_cases hi : i = .ctlReset
  · subst hi
    cases h
    exact ⟨[], (List.append_nil _).symm, by rw [List.append_nil]; rfl⟩
  obtain ⟨k, hk, hc⟩ := exec_surround hi
  have hbehind : ∀ p, k (s.withOut p) = (k (s.withOut [])).map (surround p s.events s.fault) := by
    intro p
    rw [← hc p s.events s.fault (s.withOut [])]
    simp only [surround, State.withOut_out, List.append_nil]
    rfl
  rw [hk, ← State.withOut_self s, hbehind] at h
  rw [hk, hbehind]
  cases hr : k (s.withOut []) with
  | done u => rw [hr] at h; cases h; exact ⟨u.out, rfl, rfl⟩
  | raised c u => rw [hr] at h; cases h; exact ⟨u.out, rfl, rfl⟩
  | stopped e => rw [hr] at h; cases h

/-- What a command leaves in OUT starts with what was there (R36). -/
theorem exec_out_prefix {i : Instr} {s t : State} (h : exec i s = .next t) : s.out <+: t.out := by
  obtain ⟨bs, hbs, -⟩ := commandsIgnoreOut i s t [] h
  exact ⟨bs, hbs.symm⟩

/-- One command word takes none of the host's events and only appends to OUT (R280). -/
theorem runCommand_surround {w : Word} {s t : State} (h : runCommand w s = .next t) :
    t.events = s.events ∧ s.out <+: t.out := by
  rcases runCommand_cases w s with ⟨-, hr⟩ | ⟨-, i, -, hr⟩ | ⟨-, -, hr⟩
  · rw [hr] at h; cases h; exact ⟨rfl, List.prefix_rfl⟩
  · rw [hr] at h; exact ⟨exec_events h, exec_out_prefix h⟩
  · rw [hr] at h; cases h; exact ⟨rfl, List.prefix_rfl⟩

/-- Taking one pulse of the pin out of the host's events leaves one less. -/
theorem pinPulses_erase {es : List HostEvent} (h : HostEvent.resetPin ∈ es) :
    pinPulses (es.erase .resetPin) + 1 = pinPulses es := by
  induction es with
  | nil => cases h
  | cons e rest ih =>
    cases e with
    | resetPin => rw [List.erase_cons_head]; rfl
    | command w =>
      rw [List.erase_cons_tail (by simp)]
      exact ih (by simpa using h)
    | resetDuring w =>
      rw [List.erase_cons_tail (by simp)]
      exact congrArg (· + 1) (ih (by simpa using h))

/-- Settles O17: a step that only runs a command appends to OUT; every other step that changes OUT takes a pulse of
the pin from the host's events. -/
theorem outOnlyGrows : Obligations.OutOnlyGrows := by
  intro s t h hpins
  rcases step_cases h with ⟨-, rfl⟩ | ⟨w, rest, -, hr⟩ | ⟨w, rest, he, -, hp, rfl⟩ | ⟨rest, he, rfl⟩ |
    ⟨w, rest, u, he, hr, rfl⟩ | ⟨w, rest, he, -, rfl⟩
  · exact List.prefix_rfl
  · exact (runCommand_surround hr).2
  · have herase := pinPulses_erase hp
    simp only [he, withdrawOffer_events, State.withEvents_events, pinPulses] at hpins
    omega
  · simp [he, pinPulses] at hpins
  · have hevents : u.events = rest := (runCommand_surround hr).1
    simp [he, hevents, pinPulses] at hpins
  · simp [he, pinPulses] at hpins

end Sys2Proof.Machine
end

section
/-! PROOFS. What a command that completes keeps of the packers (10_state.md R29, R30, R34): the procedures of
40_bitpacker_packetizer.md and the JPEG bit-packer of 44_huffman.md. -/

namespace Sys2Proof.Machine

/-- What an outcome promises of the state it ended in. -/
theorem Res.Ends.done {P : State → Prop} {Q : Cause → State → Prop} {F : Fault → Prop} {r : Res} {t : State}
    (h : r.Ends P Q F) (hr : r = .done t) : P t := by subst hr; exact h

/-- A check before a procedure that ran to its end was passed. -/
theorem require_eq_done {p : Bool} {c : Cause} {k : State → Res} {s t : State} (h : require p c k s = .done t) :
    p = true ∧ k s = .done t := by
  cases p with
  | true => exact ⟨rfl, h⟩
  | false => cases h

theorem withValues_eq_done {p : Bool} {k : State → Res} {s t : State} (h : withValues p k s = .done t) :
    p = true ∧ k s = .done t := by
  cases p with
  | true => exact ⟨rfl, h⟩
  | false => cases h

/-- An accumulator with nothing pending. -/
theorem accOk_zero : AccOk { acc := 0, cnt := 0 } := by decide

/-! The packet writer and the GIF bit-packer. -/

/-- From `s` to `t` the GIF packers stay good: the accumulator, the packet buffer, and the canonical form of PKBUF. -/
structure PacksWell (s t : State) : Prop where
  acc : AccOk s.bp → AccOk t.bp
  packet : PacketOk s → PacketOk t
  canonical : spaceWf 255 s.mem.pkbuf = true → spaceWf 255 t.mem.pkbuf = true

theorem PacksWell.trans {s t u : State} (h1 : PacksWell s t) (h2 : PacksWell t u) : PacksWell s u :=
  ⟨h2.acc ∘ h1.acc, h2.packet ∘ h1.packet, h2.canonical ∘ h1.canonical⟩

theorem packsWell_clearBp (s : State) : PacksWell s (s.withBp { acc := 0, cnt := 0 }) :=
  ⟨fun _ => accOk_zero, id, id⟩

/-- No byte buffered is a good packet buffer. -/
theorem packetOk_of_zero {s : State} (h : s.pkCnt = 0) : PacketOk s := by
  refine ⟨by rw [h]; decide, fun i hi => ?_⟩
  rw [h] at hi
  exact absurd hi (Nat.not_lt_zero i)

theorem pkFlush_packsWell {s t : State} (h : pkFlush s = .done t) : PacksWell s t := by
  obtain ⟨-, -, hbp, hmem, hcnt⟩ := (pkFlush_packEnds s).done h
  exact ⟨fun ha => by rwa [hbp], fun _ => packetOk_of_zero hcnt, fun hw => by rwa [hmem]⟩

theorem pkWrite_packsWell {b : Byte} {s t : State} (h : pkWrite b s = .done t) : PacksWell s t := by
  obtain ⟨-, -, hbp, hlt, hbuf, hcnt⟩ := (pkWrite_packEnds b s).done h
  exact ⟨fun ha => by rwa [hbp], fun hp => packetOk_of_write hp hbuf hcnt,
    fun hw => by rw [hbuf]; exact spaceWf_write hw hlt b⟩

/-- The drain loop keeps the canonical form of PKBUF. -/
theorem bpDrain_canonical {k : Nat} {s t : State} (h : bpDrain k s = .done t)
    (hw : spaceWf 255 s.mem.pkbuf = true) : spaceWf 255 t.mem.pkbuf = true := by
  induction k generalizing s with
  | zero => cases h; exact hw
  | succ k ih =>
    obtain ⟨u, hu, hrest⟩ := Res.andThen_eq_done h
    exact ih hrest ((pkWrite_packsWell hu).canonical hw)

/-- `BPWrite` of at most 16 bits leaves fewer than 8 bits pending (R29, R131). -/
theorem bpWrite_packsWell {code n : Nat} (hn : n ≤ 16) {s t : State} (h : bpWrite code n s = .done t) :
    PacksWell s t := by
  obtain ⟨-, -, hbp, hok⟩ := (bpWrite_packEnds code n s).done h
  exact ⟨fun ha => by rw [hbp]; exact accOk_dropBytes (loadAcc_fits ha code hn), hok,
    fun hw => bpDrain_canonical (s := s.withBp (loadAcc s.bp code n)) h hw⟩

theorem bpFlush_packsWell {s t : State} (h : bpFlush s = .done t) : PacksWell s t := by
  unfold bpFlush at h
  split at h
  · exact pkFlush_packsWell h
  · obtain ⟨u, hu, hrest⟩ := Res.andThen_eq_done h
    exact (pkWrite_packsWell hu).trans ((packsWell_clearBp u).trans (pkFlush_packsWell hrest))

/-- `SinkWrite` changes OUT and the sink's answers alone. -/
theorem sinkWrite_eq_done {b : Byte} {s t : State} (h : sinkWrite b s = .done t) :
    t = (s.withOut (s.out ++ [b])).withSink s.sink.tail := by
  rcases sinkWrite_cases b s with ⟨hr, -⟩ | ⟨hr, -⟩ | ⟨hr, -⟩
  · rw [hr] at h; cases h; rfl
  · rw [hr] at h; cases h
  · rw [hr] at h; cases h

/-! The JPEG bit-packer. -/

/-- The value of the pending bits fits their count. -/
def Fits (a : BitAcc) : Prop := a.acc.toNat < 2 ^ a.cnt.toNat

/-- After a byte has left, what stays is cut to the bits that are left (R251), even where the load did not fit 32
bits. -/
theorem dropOldest_fits (a : BitAcc) : Fits (dropOldest a) := by
  have hcnt : a.cnt.toNat - 8 < 2 ^ 6 := lt_of_le_of_lt (Nat.sub_le _ _) a.cnt.isLt
  have hlow : a.acc.toNat % 2 ^ (a.cnt.toNat - 8) < 2 ^ (a.cnt.toNat - 8) := Nat.mod_lt _ (by positivity)
  simp only [Fits, dropOldest, low_natCast, BitVec.toNat_ofNat, Nat.mod_eq_of_lt hcnt]
  exact lt_of_le_of_lt (Nat.mod_le _ _) hlow

theorem dropOldests_cnt (k : Nat) (a : BitAcc) : ((dropOldest^[k]) a).cnt.toNat = a.cnt.toNat - 8 * k := by
  induction k generalizing a with
  | zero => rfl
  | succ k ih =>
    have h1 : a.cnt.toNat - 8 < 2 ^ 6 := lt_of_le_of_lt (Nat.sub_le _ _) a.cnt.isLt
    rw [Function.iterate_succ_apply, ih]
    simp only [dropOldest, BitVec.toNat_ofNat, Nat.mod_eq_of_lt h1]
    omega

theorem dropOldests_fits {k : Nat} {a : BitAcc} (h : k = 0 → Fits a) : Fits ((dropOldest^[k]) a) := by
  cases k with
  | zero => exact h rfl
  | succ k => rw [Function.iterate_succ_apply']; exact dropOldest_fits _

/-- `JBPWrite` leaves fewer than 8 bits pending, for every width that a code of HUFT can have (R33, R34, R251). -/
theorem accOk_jbpWrite {a : BitAcc} (ha : AccOk a) (code : Nat) {n : Nat} (hn : n ≤ 31) :
    AccOk ((dropOldest^[(loadJbp a code n).cnt.toNat / 8]) (loadJbp a code n)) := by
  obtain ⟨hc, hlt⟩ := ha
  have hcnt : (loadJbp a code n).cnt.toNat = a.cnt.toNat + n :=
    Nat.mod_eq_of_lt (show a.cnt.toNat + n < 2 ^ 6 by omega)
  refine ⟨by rw [dropOldests_cnt]; omega, dropOldests_fits fun hk => ?_⟩
  have hor : a.acc.toNat * 2 ^ n ||| code % 2 ^ n < 2 ^ (a.cnt.toNat + n) := by
    refine Nat.or_lt_two_pow ?_ ?_
    · rw [pow_add]; exact Nat.mul_lt_mul_of_pos_right hlt (by positivity)
    · exact lt_of_lt_of_le (Nat.mod_lt _ (by positivity)) (Nat.pow_le_pow_right (by norm_num) (by omega))
  unfold Fits
  rw [hcnt]
  simp only [loadJbp, low_natCast, BitVec.toNat_ofNat]
  exact lt_of_le_of_lt (Nat.mod_le _ _) hor

/-- What a procedure of the Huffman encoder keeps: its frame, and the JPEG bit-packer good. -/
abbrev JbpWell (s : State) (r : Res) : Prop := JbpEnds s (fun t => AccOk s.jbp → AccOk t.jbp) r

theorem JbpWell.andThen {s : State} {r : Res} {k : State → Res} (hr : JbpWell s r)
    (hk : ∀ t, JbpWell t (k t)) : JbpWell s (r.andThen k) := by
  refine Res.Ends.andThen hr fun t ⟨hf, ho, ha⟩ => ?_
  refine Res.Ends.mono (hk t) ?_ ?_ fun _ h => h
  · rintro u ⟨hf', ho', ha'⟩
    exact ⟨hf.trans hf', ho.trans ho', ha' ∘ ha⟩
  · rintro c u ⟨hc, hf', ho'⟩
    exact ⟨hc, hf.trans hf', ho.trans ho'⟩

theorem jbpWell_done (s : State) : JbpWell s (.done s) := ⟨rfl, List.prefix_rfl, id⟩

theorem jbpWrite_jbpWell (code : Nat) {n : Nat} (hn : n ≤ 31) (s : State) : JbpWell s (jbpWrite code n s) :=
  (jbpWrite_jbpEnds code n s).mono fun _ _ hj ha => by rw [hj]; exact accOk_jbpWrite ha code hn

theorem jbpFlush_jbpWell (s : State) : JbpWell s (jbpFlush s) := by
  unfold jbpFlush
  split
  · exact jbpWell_done s
  · have hbyte := sinkWrites_jbpEnds [BitVec.ofNat 8 (s.jbp.acc.toNat * 2 ^ (8 - s.jbp.cnt.toNat))] s
    simp only [sinkWrites] at hbyte
    cases hr : sinkWrite (BitVec.ofNat 8 (s.jbp.acc.toNat * 2 ^ (8 - s.jbp.cnt.toNat))) s with
    | done t =>
      rw [hr] at hbyte
      exact ⟨hbyte.1.trans rfl, hbyte.2.1, fun _ => accOk_zero⟩
    | raised c t => rw [hr] at hbyte; exact hbyte
    | stopped e => rw [hr] at hbyte; exact hbyte

/-- A code of HUFT has at most 31 bits, whatever the table holds: its length is a 5-bit register (R33). -/
theorem emitSym_jbpWell (t sym : Nat) (s : State) : JbpWell s (emitSym t sym s) := by
  unfold emitSym
  split
  · exact .inl rfl
  · next h _ => exact jbpWrite_jbpWell _ (Nat.le_of_lt_succ h.len.isLt) s

theorem emitZrl_jbpWell (acT k : Nat) (s : State) : JbpWell s (emitZrl acT k s) := by
  induction k generalizing s with
  | zero => exact jbpWell_done s
  | succ k ih => exact (emitSym_jbpWell acT zrl s).andThen ih

theorem emitCoeff_jbpWell (acT r : Nat) {v : Int} (hv : cat v ≤ 31) (s : State) :
    JbpWell s (emitCoeff acT r v s) :=
  (emitZrl_jbpWell acT _ s).andThen fun t => (emitSym_jbpWell acT _ t).andThen fun u => jbpWrite_jbpWell _ hv u

theorem scanAc_jbpWell (acT : Nat) {vs : List Int} (hvs : ∀ v ∈ vs, cat v ≤ 31) (r : Nat) (s : State) :
    JbpWell s (scanAc acT vs r s) := by
  induction vs generalizing r s with
  | nil =>
    unfold scanAc
    split
    · exact emitSym_jbpWell acT eob s
    · exact jbpWell_done s
  | cons v rest ih =>
    obtain ⟨hv, hrest⟩ := List.forall_mem_cons.mp hvs
    unfold scanAc
    split
    · exact ih hrest (r + 1) s
    · exact (emitCoeff_jbpWell acT r hv s).andThen (ih hrest 0)

theorem emitDc_jbpWell (dcT : Nat) {diff : Int} (hd : cat diff ≤ 31) (s : State) :
    JbpWell s (emitDc dcT diff s) := by
  refine (emitSym_jbpWell dcT _ s).andThen fun t => ?_
  split
  · exact jbpWrite_jbpWell _ hd t
  · exact jbpWell_done t

/-- `PRED[comp] <- v` leaves HUF_VALID alone (R257). -/
@[simp] theorem setPred_valid (h : HufRegs) (comp : Nat) (v : BitVec 16) : (setPred h comp v).valid = h.valid := by
  unfold setPred
  split <;> rfl

/-- Everything a block in range leaves: the bit-packer good, the predictors changed, and the rest as before (R257). -/
theorem emitBlock_eq_done {comp : Nat} {cls : Cls} {s t : State} (hr : blockInRange comp s = true)
    (h : emitBlock comp cls s = .done t) :
    JbpFrame s (t.withHuf s.huf) ∧ t.huf.valid = s.huf.valid ∧ (AccOk s.jbp → AccOk t.jbp) := by
  simp only [blockInRange, Bool.and_eq_true, decide_eq_true_eq, List.all_eq_true] at hr
  have hbits : JbpWell s ((emitDc (dcTable cls) (dcDiff comp s) s).andThen
      (scanAc (acTable cls) (acValues s.mem) 0)) :=
    (emitDc_jbpWell _ (by omega) s).andThen (scanAc_jbpWell _ (fun v hv => by have := hr.2 v hv; omega) 0)
  rw [emitBlock, ← Res.andThen_assoc] at h
  obtain ⟨u, hu, hpred⟩ := Res.andThen_eq_done h
  cases hpred
  obtain ⟨hf, -, ha⟩ := hbits.done hu
  refine ⟨?_, by simp [hf.huf], ha⟩
  have hback : (u.withHuf (setPred u.huf comp ((spaceRead s.mem.qb 0).getD 0))).withHuf s.huf = u := by
    rw [State.withHuf_twice, ← hf.huf, State.withHuf_self]
  rw [hback]
  exact hf

end Sys2Proof.Machine
end

section
/-! PROOFS. What a command that completes does to the LZW unit (41_lzw.md): `LzwMove` says it once, and each invariant
of 10_state.md R26 and R28 is a case analysis over it. -/

namespace Sys2Proof.Machine

/-- What a completed command can make of the LZW registers and the dictionary. The width is given by `nextWidth`, the
width test of R155. -/
inductive LzwMove (s t : State) : Prop
  /-- Neither is touched: the commands of the packers. -/
  | kept (hl : t.lzw = s.lzw) (hh : t.mem.htab = s.mem.htab)
  /-- LZW.START (R153). -/
  | opened (b : Nat) (hb : 3 ≤ b) (hb' : b ≤ 9)
      (hl : t.lzw = { active := true, havePrefix := false, initBits := BitVec.ofNat 4 b, nBits := BitVec.ofNat 4 b,
                      freeEnt := BitVec.ofNat 13 (2 ^ (b - 1) + 2), prefixCode := s.lzw.prefixCode })
      (hh : t.mem.htab = [])
  /-- LZW.SYM, the first symbol (R156). -/
  | begun (c : Byte) (ha : s.lzw.active = true) (hc : c.toNat < clearCode s.lzw)
      (hl : t.lzw = { s.lzw with prefixCode := BitVec.ofNat 12 c.toNat, havePrefix := true })
      (hh : t.mem.htab = s.mem.htab)
  /-- LZW.SYM, the pair is in the dictionary (R156). -/
  | extended (j : Nat) (slot : HSlot) (ha : s.lzw.active = true) (hj : spaceRead s.mem.htab j = some slot)
      (hl : t.lzw = { s.lzw with prefixCode := slot.code }) (hh : t.mem.htab = s.mem.htab)
  /-- LZW.SYM, the pair takes the empty slot its probe ended on (R156, R158). -/
  | added (c : Byte) (j : Nat) (ha : s.lzw.active = true) (hp : s.lzw.havePrefix = true)
      (hc : c.toNat < clearCode s.lzw) (hfree : s.lzw.freeEnt.toNat < maxCodes)
      (hj : probe s.mem.htab c s.lzw.prefixCode = .vacant j)
      (hl : t.lzw = { s.lzw with nBits := nextWidth s.lzw.prefixCode.toNat s.lzw,
                                 freeEnt := BitVec.ofNat 13 (s.lzw.freeEnt.toNat + 1),
                                 prefixCode := BitVec.ofNat 12 c.toNat })
      (hh : t.mem.htab = spaceWrite s.mem.htab j
        { key := BitVec.ofNat 20 (hashKey c s.lzw.prefixCode), code := BitVec.ofNat 12 s.lzw.freeEnt.toNat })
  /-- LZW.SYM, no code is left: the dictionary starts anew (R159). -/
  | cleared (c : Byte) (ha : s.lzw.active = true) (hc : c.toNat < clearCode s.lzw)
      (hl : t.lzw = { s.lzw with nBits := s.lzw.initBits, freeEnt := BitVec.ofNat 13 (firstCode s.lzw),
                                 prefixCode := BitVec.ofNat 12 c.toNat })
      (hh : t.mem.htab = [])
  /-- LZW.END (R160). -/
  | closed (hl : t.lzw.active = false) (hh : t.mem.htab = s.mem.htab)

/-! What each procedure of the unit leaves when it runs to its end. -/

/-- `EmitCode` moves the packers and the width alone (R154). -/
theorem emitCode_eq_done {c : Nat} {s t : State} (h : emitCode c s = .done t) :
    PacksWell s t ∧ t.lzw = { s.lzw with nBits := nextWidth c s.lzw } ∧ t.mem.htab = s.mem.htab := by
  obtain ⟨u, hu, hf, rfl⟩ := (emitCode_ends c s).done h
  have hn : s.lzw.nBits.toNat ≤ 16 := by have := s.lzw.nBits.isLt; omega
  obtain ⟨hacc, hpacket, hcanon⟩ := bpWrite_packsWell hn hu
  exact ⟨⟨hacc, hpacket, hcanon⟩, rfl, by rw [State.withLzw_mem, hf.mem]; rfl⟩

/-- A clear code puts the width back to INIT_BITS (R154). -/
theorem nextWidth_clearCode (l : LzwRegs) : nextWidth (clearCode l) l = l.initBits := if_pos rfl

/-- `ResetDictionary` (R159). -/
theorem resetDictionary_eq_done {s t : State} (h : resetDictionary s = .done t) :
    PacksWell s t ∧
      t.lzw = { s.lzw with nBits := s.lzw.initBits, freeEnt := BitVec.ofNat 13 (firstCode s.lzw) } ∧
      t.mem.htab = [] := by
  obtain ⟨⟨hacc, hpacket, hcanon⟩, hl, hh⟩ := emitCode_eq_done h
  refine ⟨⟨hacc, hpacket, hcanon⟩, ?_, hh⟩
  rw [hl, show clearCode s.lzw = clearCode { s.lzw with freeEnt := BitVec.ofNat 13 (firstCode s.lzw) } from rfl]
  rw [State.withLzw_lzw, nextWidth_clearCode]

/-- `LZW.START` after its checks (R153). -/
theorem openStream_eq_done {b : Nat} (hb : 3 ≤ b) (hb' : b ≤ 9) {s t : State} (h : openStream b s = .done t) :
    PacksWell s t ∧ LzwMove s t := by
  obtain ⟨⟨hacc, hpacket, hcanon⟩, hl, hh⟩ := emitCode_eq_done h
  refine ⟨⟨fun _ => hacc accOk_zero, fun _ => hpacket (packetOk_of_zero rfl), hcanon⟩, .opened b hb hb' ?_ hh⟩
  rw [hl]
  simp only [State.withPkCnt_lzw, State.withBp_lzw, State.withMem_lzw, State.withLzw_lzw, nextWidth_clearCode]

/-- The not-found step of `LZW.SYM` (R156). -/
theorem startNewMatch_eq_done {c : Byte} {j : Nat} {s t : State} (ha : s.lzw.active = true)
    (hp : s.lzw.havePrefix = true) (hc : c.toNat < clearCode s.lzw)
    (hj : probe s.mem.htab c s.lzw.prefixCode = .vacant j) (h : startNewMatch c j s = .done t) :
    PacksWell s t ∧ LzwMove s t := by
  obtain ⟨u, hu, hrest⟩ := Res.andThen_eq_done h
  obtain ⟨v, hv, hprefix⟩ := Res.andThen_eq_done hrest
  cases hprefix
  obtain ⟨hpack, hl, hh⟩ := emitCode_eq_done hu
  have hfree : u.lzw.freeEnt = s.lzw.freeEnt := by rw [hl]
  split at hv
  · next hlt =>
    obtain ⟨hj5003, -⟩ := (probe_spec s.mem.htab c s.lzw.prefixCode).2 j hj
    rw [insertPair_of_lt hj5003] at hv
    cases hv
    obtain ⟨hacc, hpacket, hcanon⟩ := hpack
    rw [hfree] at hlt
    refine ⟨⟨hacc, hpacket, hcanon⟩, .added c j ha hp hc hlt hj ?_ ?_⟩
    · simp [hl]
    · simp [hl, hh]
  · obtain ⟨hpack', hl', hh'⟩ := resetDictionary_eq_done hv
    obtain ⟨hacc, hpacket, hcanon⟩ := hpack.trans hpack'
    refine ⟨⟨hacc, hpacket, hcanon⟩, .cleared c ha hc ?_ hh'⟩
    rw [State.withLzw_lzw, hl', hl]
    rfl

/-- `LZW.SYM` after its checks (R156). -/
theorem takeSymbol_eq_done {c : Byte} {s t : State} (ha : s.lzw.active = true) (hc : c.toNat < clearCode s.lzw)
    (h : takeSymbol c s = .done t) : PacksWell s t ∧ LzwMove s t := by
  unfold takeSymbol at h
  split at h
  · next hp =>
    cases hr : probe s.mem.htab c s.lzw.prefixCode with
    | unending => rw [hr] at h; cases h
    | found j code =>
      rw [hr] at h
      cases h
      obtain ⟨-, key, hslot, -⟩ := (probe_spec s.mem.htab c s.lzw.prefixCode).1 j code hr
      exact ⟨⟨id, id, id⟩, .extended j ⟨key, code⟩ ha hslot rfl rfl⟩
    | vacant j =>
      rw [hr] at h
      exact startNewMatch_eq_done ha hp hc hr h
  · cases h
    exact ⟨⟨id, id, id⟩, .begun c ha hc rfl rfl⟩

/-- `LZW.END` after its checks (R160). -/
theorem closeStream_eq_done {s t : State} (h : closeStream s = .done t) : PacksWell s t ∧ LzwMove s t := by
  obtain ⟨u, hu, hrest⟩ := Res.andThen_eq_done h
  obtain ⟨v, hv, hrest⟩ := Res.andThen_eq_done hrest
  obtain ⟨x, hx, hrest⟩ := Res.andThen_eq_done hrest
  obtain ⟨y, hy, hclose⟩ := Res.andThen_eq_done hrest
  cases hclose
  cases sinkWrite_eq_done hy
  obtain ⟨hpack1, -, hh1⟩ := emitCode_eq_done hu
  obtain ⟨hpack2, -, hh2⟩ := emitCode_eq_done hv
  obtain ⟨hf, -⟩ := (bpFlush_packEnds v).done hx
  have hh3 : x.mem.htab = v.mem.htab := by rw [hf.mem]; rfl
  obtain ⟨hacc, hpacket, hcanon⟩ := hpack1.trans (hpack2.trans (bpFlush_packsWell hx))
  exact ⟨⟨hacc, hpacket, hcanon⟩, .closed rfl ((hh3.trans hh2).trans hh1)⟩

/-! The dictionary. -/

/-- Writing an element that held no value adds one entry to the list. -/
theorem spaceWrite_perm {α : Type} {m : Space α} {i : Nat} (h : spaceRead m i = none) (v : α) :
    (spaceWrite m i v).Perm ((i, v) :: m) := by
  induction m with
  | nil => exact .refl _
  | cons x rest ih =>
    obtain ⟨j, u⟩ := x
    rw [spaceRead_cons] at h
    split at h
    · cases h
    · next hne =>
      unfold spaceWrite
      rw [if_neg hne]
      split
      · exact .refl _
      · exact ((ih h).cons _).trans (.swap _ _ _)

/-- An element that is read is listed. -/
theorem mem_of_spaceRead {α : Type} {m : Space α} {i : Nat} {v : α} (h : spaceRead m i = some v) : (i, v) ∈ m := by
  induction m with
  | nil => cases h
  | cons x rest ih =>
    obtain ⟨j, u⟩ := x
    rw [spaceRead_cons] at h
    split at h
    · next hij => cases h; subst hij; exact List.mem_cons_self
    · exact List.mem_cons_of_mem _ (ih h)

/-- A probe that finds its key does not come by an empty slot, so filling one leaves it as it is (R28). -/
theorem probeFrom_found_write {htab : Space HSlot} {key disp fuel i j k : Nat} {code : BitVec 12} {slot : HSlot}
    (hk : spaceRead htab k = none) (h : probeFrom htab key disp fuel i = .found j code) :
    probeFrom (spaceWrite htab k slot) key disp fuel i = .found j code := by
  induction fuel generalizing i with
  | zero => cases h
  | succ fuel ih =>
    have hik : i ≠ k := by
      rintro rfl
      simp [probeFrom, hk] at h
    unfold probeFrom at h ⊢
    rw [spaceRead_write_other _ _ hik]
    cases hr : spaceRead htab i with
    | none => rw [hr] at h; cases h
    | some old =>
      rw [hr] at h
      simp only at h ⊢
      split at h
      · next hkey => rw [if_pos hkey]; exact h
      · next hkey => rw [if_neg hkey]; exact ih h

/-- The key stored in the empty slot where its own probe ended is found there (R28). -/
theorem probeFrom_vacant_write {htab : Space HSlot} {key disp fuel i j : Nat} {slot : HSlot}
    (hkey : slot.key.toNat = key) (h : probeFrom htab key disp fuel i = .vacant j) :
    probeFrom (spaceWrite htab j slot) key disp fuel i = .found j slot.code := by
  induction fuel generalizing i with
  | zero => cases h
  | succ fuel ih =>
    unfold probeFrom at h ⊢
    cases hr : spaceRead htab i with
    | none =>
      rw [hr] at h
      cases h
      rw [spaceRead_write_same]
      exact if_pos hkey
    | some old =>
      rw [hr] at h
      simp only at h
      split at h
      · cases h
      · next hold =>
        by_cases hij : i = j
        · subst hij
          rw [spaceRead_write_same]
          exact if_pos hkey
        · rw [spaceRead_write_other _ _ hij, hr]
          simp only [if_neg hold]
          exact ih h

/-- A hash key is the pair it was made of (R156): the symbol above, the code in the low 12 bits. -/
theorem probeKey_hashKey (htab : Space HSlot) (c : Byte) (p : BitVec 12) :
    probeKey htab (BitVec.ofNat 20 (hashKey c p)) = probe htab c p := by
  have hkey : (BitVec.ofNat 20 (hashKey c p)).toNat = hashKey c p :=
    Nat.mod_eq_of_lt (by have := c.isLt; have := p.isLt; unfold hashKey keyShift; omega)
  have hc : BitVec.ofNat 8 (hashKey c p / 2 ^ 12) = c := by
    apply BitVec.eq_of_toNat_eq
    have := c.isLt; have := p.isLt
    simp only [BitVec.toNat_ofNat, hashKey, keyShift]
    omega
  have hp : BitVec.ofNat 12 (hashKey c p) = p := by
    apply BitVec.eq_of_toNat_eq
    have := p.isLt
    simp only [BitVec.toNat_ofNat, hashKey, keyShift]
    omega
  unfold probeKey
  rw [hkey, hc, hp]

end Sys2Proof.Machine
end

section
/-! PROOFS. The invariants of an open stream (10_state.md R26, R28; 41_lzw.md R161), move by move. -/

namespace Sys2Proof.Machine

/-- The values of CLEAR_CODE in an open stream (R25, R26). -/
theorem clearCode_bounds {l : LzwRegs} (h : 3 ≤ l.initBits.toNat) (h' : l.initBits.toNat ≤ 9) :
    4 ≤ clearCode l ∧ clearCode l ≤ 256 ∧ 2 ^ l.initBits.toNat = 2 * clearCode l := by
  unfold clearCode
  refine ⟨?_, ?_, ?_⟩
  · exact Nat.pow_le_pow_right (n := 2) (i := 2) (by norm_num) (by omega)
  · exact Nat.pow_le_pow_right (n := 2) (j := 8) (by norm_num) (by omega)
  · rw [← pow_succ']; congr 1; omega

/-- FIRST_CODE is two above CLEAR_CODE (R25). -/
theorem firstCode_eq (l : LzwRegs) : firstCode l = clearCode l + 2 := rfl

/-- The width after a code that is no clear code (R155). -/
theorem nextWidth_of_ne {c : Nat} {l : LzwRegs} (hc : c ≠ clearCode l) :
    (nextWidth c l).toNat = widened l.freeEnt.toNat l.nBits.toNat := by
  unfold nextWidth widened maxBits
  rw [if_neg hc]
  split
  · next h => rw [BitVec.toNat_ofNat, Nat.mod_eq_of_lt (by omega)]
  · rfl

/-- The width test leaves room for one code more (R26 (e)), and never passes 12 bits. -/
theorem widened_spec {freeEnt w : Nat} (hw : w ≤ 12) (h : w < 12 → freeEnt ≤ 2 ^ w) :
    w ≤ widened freeEnt w ∧ widened freeEnt w ≤ 12 ∧
      (widened freeEnt w < 12 → freeEnt + 1 ≤ 2 ^ widened freeEnt w) := by
  unfold widened
  have hpos : 0 < 2 ^ w := by positivity
  split
  · next hwide =>
    have hroom := h hwide.2
    exact ⟨by omega, by omega, fun _ => by rw [pow_succ]; omega⟩
  · exact ⟨le_refl w, hw, fun _ => by omega⟩

/-- A symbol fits the 12 bits of PREFIX (R156). -/
theorem toNat_symbol (c : Byte) : (BitVec.ofNat 12 c.toNat).toNat = c.toNat :=
  Nat.mod_eq_of_lt (by have := c.isLt; omega)

/-- The next free entry fits the 13 bits of FREE_ENT, and the code just assigned the 12 bits of a code (R26 (c)). -/
theorem toNat_freeEnt_succ {n : Nat} (h : n < maxCodes) : (BitVec.ofNat 13 (n + 1)).toNat = n + 1 :=
  Nat.mod_eq_of_lt (by unfold maxCodes at h; omega)

theorem toNat_freeCode {n : Nat} (h : n < maxCodes) : (BitVec.ofNat 12 n).toNat = n := Nat.mod_eq_of_lt h

/-- FREE_ENT as LZW.START and ResetDictionary leave it (R153, R159). -/
theorem toNat_firstFree {b : Nat} (hb : b ≤ 9) : (BitVec.ofNat 13 (2 ^ (b - 1) + 2)).toNat = 2 ^ (b - 1) + 2 := by
  have : 2 ^ (b - 1) ≤ 2 ^ 8 := Nat.pow_le_pow_right (by norm_num) (by omega)
  exact Nat.mod_eq_of_lt (by omega)

/-- The registers of a fresh stream, as numbers (R153). -/
theorem openedRegs_toNat {l : LzwRegs} {b : Nat} {p : BitVec 12} (hb : b ≤ 9)
    (hl : l = { active := true, havePrefix := false, initBits := BitVec.ofNat 4 b, nBits := BitVec.ofNat 4 b,
                freeEnt := BitVec.ofNat 13 (2 ^ (b - 1) + 2), prefixCode := p }) :
    l.initBits.toNat = b ∧ l.nBits.toNat = b ∧ l.freeEnt.toNat = firstCode l := by
  have h4 : (BitVec.ofNat 4 b).toNat = b := Nat.mod_eq_of_lt (by omega)
  subst hl
  refine ⟨h4, h4, ?_⟩
  rw [firstCode_eq, clearCode, h4]
  exact toNat_firstFree hb

/-- R26 (a) to (e) and the range of the codes stored are kept by every move. -/
theorem LzwMove.lzwOk {s t : State} (h : LzwMove s t) (hs : LzwOk s) : LzwOk t := by
  cases h with
  | kept hl hh => unfold LzwOk; rw [hl, hh]; exact hs
  | opened b hb hb' hl hh =>
    obtain ⟨hib, hn, hfree⟩ := openedRegs_toNat hb' hl
    obtain ⟨h4, h256, hpow⟩ := clearCode_bounds (l := t.lzw) (by omega) (by omega)
    have hprefix : t.lzw.havePrefix = false := by rw [hl]
    intro _
    rw [hfree, firstCode_eq, hh, hprefix, hn, ← hib, hpow]
    exact ⟨by omega, by omega, by omega, by simp, by simp, by omega, by simp⟩
  | closed hl hh => intro ha; rw [hl] at ha; cases ha
  | begun c ha hc hl hh =>
    obtain ⟨hinit, hwidth, hfree, -, hlen, hroom, hcodes⟩ := hs ha
    rw [firstCode_eq] at hfree
    intro _
    simp only [hl, hh, toNat_symbol]
    exact ⟨hinit, hwidth, hfree, fun _ => ⟨by omega, Nat.ne_of_lt hc, Nat.ne_of_lt (Nat.lt_succ_of_lt hc)⟩, hlen,
      hroom, hcodes⟩
  | extended j slot ha hj hl hh =>
    obtain ⟨hinit, hwidth, hfree, -, hlen, hroom, hcodes⟩ := hs ha
    obtain ⟨hlow, hhigh⟩ := hcodes _ (mem_of_spaceRead hj)
    rw [firstCode_eq] at hlow
    simp only at hlow hhigh
    intro _
    simp only [hl, hh]
    refine ⟨hinit, hwidth, hfree, fun _ => ⟨hhigh, ?_, ?_⟩, hlen, hroom, hcodes⟩
    · exact Nat.ne_of_gt (show clearCode s.lzw < _ by omega)
    · exact Nat.ne_of_gt (show clearCode s.lzw + 1 < _ by omega)
  | cleared c ha hc hl hh =>
    obtain ⟨hinit, -, -, -, -, -, -⟩ := hs ha
    obtain ⟨h4, h256, hpow⟩ := clearCode_bounds hinit.1 hinit.2
    have hfirst : (BitVec.ofNat 13 (firstCode s.lzw)).toNat = clearCode s.lzw + 2 :=
      Nat.mod_eq_of_lt (show clearCode s.lzw + 2 < _ by omega)
    intro _
    simp only [hl, hh, toNat_symbol, hfirst, hpow]
    exact ⟨hinit, by omega, ⟨le_refl _, by omega⟩,
      fun _ => ⟨by omega, Nat.ne_of_lt hc, Nat.ne_of_lt (Nat.lt_succ_of_lt hc)⟩, (Nat.sub_self _).symm,
      fun _ => by omega, by simp⟩
  | added c j ha hp hc hfree hj hl hh =>
    obtain ⟨hinit, hwidth, hrange, hprefix, hlen, hroom, hcodes⟩ := hs ha
    obtain ⟨-, hclear, -⟩ := hprefix hp
    obtain ⟨hn, hn12, hroom'⟩ := widened_spec hwidth.2 hroom
    rw [← nextWidth_of_ne hclear] at hn hn12 hroom'
    have hlt : s.lzw.freeEnt.toNat < 4096 := hfree
    have hnext := toNat_freeEnt_succ hfree
    have hcode := toNat_freeCode hfree
    obtain ⟨-, hempty⟩ := (probe_spec s.mem.htab c s.lzw.prefixCode).2 j hj
    have hperm := spaceWrite_perm hempty
      { key := BitVec.ofNat 20 (hashKey c s.lzw.prefixCode), code := BitVec.ofNat 12 s.lzw.freeEnt.toNat }
    rw [firstCode_eq] at hrange hlen
    intro _
    rw [hh]
    refine ⟨?_, ?_, ?_, fun _ => ?_, ?_, ?_, fun e he => ?_⟩
    · rw [hl]; exact hinit
    · rw [hl]; exact ⟨hwidth.1.trans hn, hn12⟩
    · rw [hl, hnext]; exact ⟨show clearCode s.lzw + 2 ≤ _ by omega, by omega⟩
    · rw [hl, hnext, toNat_symbol]
      exact ⟨by omega, Nat.ne_of_lt hc, Nat.ne_of_lt (Nat.lt_succ_of_lt hc)⟩
    · rw [hl, hperm.length_eq, hnext]
      show _ = _ - (clearCode s.lzw + 2)
      rw [List.length_cons]; omega
    · rw [hl, hnext]; exact hroom'
    · rw [hl, hnext]
      rcases List.mem_cons.mp (hperm.mem_iff.mp he) with rfl | hold
      · simp only [hcode]
        exact ⟨show clearCode s.lzw + 2 ≤ _ by omega, by omega⟩
      · obtain ⟨hlow, hhigh⟩ := hcodes e hold
        exact ⟨hlow, by omega⟩

/-- A hash key is made of its own parts (R156). -/
theorem hashKey_parts (key : BitVec 20) :
    hashKey (BitVec.ofNat 8 (key.toNat / 2 ^ 12)) (BitVec.ofNat 12 key.toNat) = key.toNat := by
  have := key.isLt
  simp only [hashKey, keyShift, BitVec.toNat_ofNat]
  omega

/-- Every entry of the dictionary is found by its own key, so a key whose probe ends on an empty slot is new (R28). -/
theorem key_notMem_of_vacant {htab : Space HSlot} {key : BitVec 20} {j : Nat}
    (hfound : ∀ e ∈ htab, probeKey htab e.2.key = .found e.1 e.2.code) (hj : probeKey htab key = .vacant j) :
    key ∉ htab.map (fun e => e.2.key) := by
  intro hmem
  obtain ⟨e, he, rfl⟩ := List.mem_map.mp hmem
  rw [hfound e he] at hj
  cases hj

/-- Putting a new pair into the slot its probe ended on keeps every entry where its probe finds it (R28). -/
theorem probeKey_write {htab : Space HSlot} {j : Nat} {slot : HSlot}
    (hfound : ∀ e ∈ htab, probeKey htab e.2.key = .found e.1 e.2.code) (hempty : spaceRead htab j = none)
    (hj : probeKey htab slot.key = .vacant j) :
    ∀ e ∈ spaceWrite htab j slot, probeKey (spaceWrite htab j slot) e.2.key = .found e.1 e.2.code := by
  intro e he
  rcases List.mem_cons.mp ((spaceWrite_perm hempty slot).mem_iff.mp he) with rfl | hold
  · exact probeFrom_vacant_write (hashKey_parts slot.key).symm hj
  · exact probeFrom_found_write hempty (hfound e hold)

/-- The dictionary of a stream that has none yet (R153, R159). -/
theorem dictOk_empty {t : State} (hh : t.mem.htab = []) (hfree : t.lzw.freeEnt.toNat = firstCode t.lzw) :
    DictOk t := by
  intro _
  rw [hh, hfree, Nat.sub_self]
  exact ⟨List.nodup_nil, .refl _, fun e he => absurd he List.not_mem_nil⟩

/-- R28 (a) to (c) are kept by every move of good registers. -/
theorem LzwMove.dictOk {s t : State} (h : LzwMove s t) (hreg : LzwOk s) (hs : DictOk s) : DictOk t := by
  cases h with
  | kept hl hh => unfold DictOk; rw [hl, hh]; exact hs
  | opened b hb hb' hl hh => exact dictOk_empty hh (openedRegs_toNat hb' hl).2.2
  | begun c ha hc hl hh => unfold DictOk; rw [hl, hh]; exact hs
  | extended j slot ha hj hl hh => unfold DictOk; rw [hl, hh]; exact hs
  | closed hl hh => intro ha; rw [hl] at ha; cases ha
  | cleared c ha hc hl hh =>
    obtain ⟨⟨-, hinit⟩, -⟩ := hreg ha
    refine dictOk_empty hh ?_
    rw [hl]
    exact toNat_firstFree hinit
  | added c j ha hp hc hfree hj hl hh =>
    obtain ⟨hkeys, hcodes, hfound⟩ := hs ha
    obtain ⟨-, -, ⟨hfirst, -⟩, -⟩ := hreg ha
    obtain ⟨-, hempty⟩ := (probe_spec s.mem.htab c s.lzw.prefixCode).2 j hj
    rw [← probeKey_hashKey] at hj
    intro _
    rw [hh]
    set slot : HSlot :=
      { key := BitVec.ofNat 20 (hashKey c s.lzw.prefixCode), code := BitVec.ofNat 12 s.lzw.freeEnt.toNat } with hslot
    have hperm := spaceWrite_perm hempty slot
    refine ⟨?_, ?_, probeKey_write hfound hempty hj⟩
    · rw [(hperm.map _).nodup_iff, List.map_cons, List.nodup_cons]
      exact ⟨key_notMem_of_vacant hfound hj, hkeys⟩
    · have hcount : t.lzw.freeEnt.toNat - firstCode t.lzw = s.lzw.freeEnt.toNat - firstCode s.lzw + 1 := by
        rw [hl, toNat_freeEnt_succ hfree]
        exact Nat.succ_sub hfirst
      have hlast : firstCode s.lzw + (s.lzw.freeEnt.toNat - firstCode s.lzw) = slot.code.toNat := by
        rw [hslot, toNat_freeCode hfree]; omega
      rw [hcount, show firstCode t.lzw = firstCode s.lzw by rw [hl]; rfl, List.range'_1_concat, hlast]
      exact (hperm.map _).trans ((hcodes.cons _).trans (List.perm_append_singleton _ _).symm)

/-- `bitlen` is the number of bits a value needs (00_scope.md R13). -/
theorem bitlen_le_iff {m k : Nat} : bitlen m ≤ k ↔ m < 2 ^ k := by
  unfold bitlen
  split
  · next h => subst h; simp
  · next h => rw [Nat.succ_le_iff, Nat.log2_lt h]

/-- The width test follows the closed form, from one free entry to the next (R155, R161). -/
theorem widened_closedForm {initBits freeEnt w : Nat} (hib : initBits ≤ 9) (hpos : 0 < freeEnt)
    (hroom : w < 12 → freeEnt ≤ 2 ^ w) (hw : w = min 12 (max initBits (bitlen (freeEnt - 1)))) :
    widened freeEnt w = min 12 (max initBits (bitlen freeEnt)) := by
  have hmono : bitlen (freeEnt - 1) ≤ bitlen freeEnt := bitlen_le_iff.mpr
    (lt_of_le_of_lt (Nat.sub_le _ _) (bitlen_le_iff.mp (le_refl _)))
  have hlt : bitlen freeEnt ≤ w ↔ freeEnt < 2 ^ w := bitlen_le_iff
  have hlt' : bitlen freeEnt ≤ w + 1 ↔ freeEnt < 2 ^ w * 2 := by rw [bitlen_le_iff, pow_succ]
  have h2 : 0 < 2 ^ w := by positivity
  unfold widened
  split <;> omega

/-- The closed form at the first code of a dictionary (R161). -/
theorem widthOk_first {t : State} (hib : 3 ≤ t.lzw.initBits.toNat) (hib' : t.lzw.initBits.toNat ≤ 9)
    (hn : t.lzw.nBits.toNat = t.lzw.initBits.toNat) (hfree : t.lzw.freeEnt.toNat = firstCode t.lzw) : WidthOk t := by
  intro _
  obtain ⟨h4, -, hpow⟩ := clearCode_bounds hib hib'
  have hlen : bitlen (t.lzw.freeEnt.toNat - 1) ≤ t.lzw.initBits.toNat := bitlen_le_iff.mpr (by
    rw [hfree, firstCode_eq, hpow]; omega)
  omega

/-- The closed form of the width is kept by every move of good registers (R161). -/
theorem LzwMove.widthOk {s t : State} (h : LzwMove s t) (hreg : LzwOk s) (hs : WidthOk s) : WidthOk t := by
  cases h with
  | kept hl hh => unfold WidthOk; rw [hl]; exact hs
  | opened b hb hb' hl hh =>
    obtain ⟨hib, hn, hfree⟩ := openedRegs_toNat hb' hl
    exact widthOk_first (by omega) (by omega) (by omega) hfree
  | begun c ha hc hl hh => unfold WidthOk; rw [hl]; exact hs
  | extended j slot ha hj hl hh => unfold WidthOk; rw [hl]; exact hs
  | closed hl hh => intro ha; rw [hl] at ha; cases ha
  | cleared c ha hc hl hh =>
    obtain ⟨hinit, -⟩ := hreg ha
    refine widthOk_first (by rw [hl]; exact hinit.1) (by rw [hl]; exact hinit.2) (by rw [hl]) ?_
    rw [hl]
    exact toNat_firstFree hinit.2
  | added c j ha hp hc hfree hj hl hh =>
    obtain ⟨hinit, hwidth, hrange, hprefix, hlen, hroom, hcodes⟩ := hreg ha
    obtain ⟨-, hclear, -⟩ := hprefix hp
    rw [firstCode_eq] at hrange
    intro _
    simp only [hl, toNat_freeEnt_succ hfree, nextWidth_of_ne hclear, Nat.add_sub_cancel]
    exact widened_closedForm hinit.2 (by omega) hroom (hs ha)

end Sys2Proof.Machine
end

section
/-! PROOFS. What a command that completes does to the buffers and tables of the JPEG pipeline (10_state.md R31 to R33),
and what it keeps of the promise of their guard flags (60_exceptions.md R308). -/

namespace Sys2Proof.Machine

/-- What the guard flags promise (R31 to R33, R197). -/
abbrev TablesOk (s : State) : Prop := BuffersOk s ∧ QuantOk s ∧ HuffOk s ∧ CbOk s

/-- What a completed JPEG command does: it only writes bits and predictors, or it is one of the six procedures that
write a buffer or a table. -/
inductive JpegMove (s t : State) : Prop
  | coded (hf : JbpFrame s (t.withHuf s.huf)) (hv : t.huf.valid = s.huf.valid) (ha : AccOk s.jbp → AccOk t.jbp)
  | quantBuilt (q : Nat) (hq : 1 ≤ q) (hq' : q ≤ 100) (h : buildQuant q s = .done t)
  | huffBuilt (h : buildHuff s = .done t)
  | transformed (h : fwdDct s = .done t)
  | quantised (cls : Cls) (h : quantise cls s = .done t)
  | sampleLoaded (idx : Nat) (val : Byte) (h : loadSample idx val s = .done t)
  | coeffLoaded (idx : Nat) (val : BitVec 16) (h : loadCoeff idx val s = .done t)

/-! What each of the six leaves. -/

/-- BUF.LDS stores inside SB (R283). -/
theorem loadSample_eq_done {idx : Nat} {val : Byte} {s t : State} (h : loadSample idx val s = .done t) :
    idx < 64 ∧ t = (s.withMem (s.mem.withSb (spaceWrite s.mem.sb idx val))).withDct
      { s.dct with sbWr := markWritten s.dct.sbWr idx } := by
  unfold loadSample at h
  split at h
  · cases h
  · next m hm =>
    obtain ⟨hi, rfl⟩ := spaceStore_eq_some hm
    cases h
    exact ⟨hi, rfl⟩

/-- BUF.LDQ stores inside QB (R284). -/
theorem loadCoeff_eq_done {idx : Nat} {val : BitVec 16} {s t : State} (h : loadCoeff idx val s = .done t) :
    idx < 64 ∧ t = (s.withMem (s.mem.withQb (spaceWrite s.mem.qb idx val))).withDct
      { s.dct with qbWr := markWritten s.dct.qbWr idx } := by
  unfold loadCoeff at h
  split at h
  · cases h
  · next m hm =>
    obtain ⟨hi, rfl⟩ := spaceStore_eq_some hm
    cases h
    exact ⟨hi, rfl⟩

/-- Marking an element as it is written keeps the promise of its mask (R32). -/
theorem written_isSome_store {α : Type} {m : Space α} {mask : BitVec 64} (idx : Nat) (val : α)
    (h : ∀ i, i < 64 → mask.getLsbD i = true → (spaceRead m i).isSome = true) :
    ∀ i, i < 64 → (markWritten mask idx).getLsbD i = true → (spaceRead (spaceWrite m idx val) i).isSome = true := by
  intro i hi hmark
  rw [spaceRead_write]
  split
  · rfl
  · next hne =>
    rcases (markWritten_getLsbD mask hi).mp hmark with heq | hold
    · exact absurd heq hne
    · exact h i hi hold

theorem loadSample_tablesOk {idx : Nat} {val : Byte} {s t : State} (h : loadSample idx val s = .done t)
    (hs : TablesOk s) : TablesOk t := by
  obtain ⟨-, rfl⟩ := loadSample_eq_done h
  obtain ⟨⟨hsb, hqb, hcb⟩, hquant, hhuff, hcoeff⟩ := hs
  exact ⟨⟨written_isSome_store idx val hsb, hqb, hcb⟩, hquant, hhuff, hcoeff⟩

theorem loadCoeff_tablesOk {idx : Nat} {val : BitVec 16} {s t : State} (h : loadCoeff idx val s = .done t)
    (hs : TablesOk s) : TablesOk t := by
  obtain ⟨-, rfl⟩ := loadCoeff_eq_done h
  obtain ⟨⟨hsb, hqb, hcb⟩, hquant, hhuff, hcoeff⟩ := hs
  exact ⟨⟨hsb, written_isSome_store idx val hqb, hcb⟩, hquant, hhuff, hcoeff⟩

/-- DCT.FWD fills CB with the transform of the block in SB (R216). -/
theorem fwdDct_eq_done {s t : State} (h : fwdDct s = .done t) :
    t = (s.withMem (s.mem.withCb (spaceFill 64 (fun i => BitVec.ofInt 80 (coefficient s.mem.sb i))))).withDct
      { s.dct with cbValid := true } := by
  obtain ⟨-, hdone⟩ := withValues_eq_done h
  exact (Res.done.inj hdone).symm

theorem fwdDct_tablesOk {s t : State} (h : fwdDct s = .done t) (hs : TablesOk s) : TablesOk t := by
  obtain ⟨⟨hsb, hqb, -⟩, hquant, hhuff, -⟩ := hs
  rw [fwdDct_eq_done h]
  exact ⟨⟨hsb, hqb, fun _ => spaceFull_fill 64 _⟩, hquant, hhuff,
    fun _ => ⟨s.mem.sb, fun i hi => (spaceRead_fill 64 _ i).trans (if_pos hi)⟩⟩

/-- DCT.QUANT fills QB and marks all of it written (R223). -/
theorem quantise_eq_done {cls : Cls} {s t : State} (h : quantise cls s = .done t) :
    t = (s.withMem (s.mem.withQb
        (spaceFill 64 (fun i => BitVec.ofInt 16 (roundDiv (cbAt s.mem i) (divtAt s.mem cls i)))))).withDct
      { s.dct with qbWr := BitVec.allOnes 64 } := by
  obtain ⟨-, hdone⟩ := withValues_eq_done h
  exact (Res.done.inj hdone).symm

theorem quantise_tablesOk {cls : Cls} {s t : State} (h : quantise cls s = .done t) (hs : TablesOk s) :
    TablesOk t := by
  obtain ⟨⟨hsb, -, hcb⟩, hquant, hhuff, hcoeff⟩ := hs
  rw [quantise_eq_done h]
  exact ⟨⟨hsb, fun i hi _ => (spaceFull_iff 64 _).mp (spaceFull_fill 64 _) i hi, hcb⟩, hquant, hhuff, hcoeff⟩

/-- A scale fits the 13 bits of QSCALE (R193). -/
theorem qScale_le (q : Nat) : qScale q ≤ 5000 := by
  unfold qScale
  split
  · exact Nat.div_le_self _ _
  · omega

theorem buildQuant_tablesOk {q : Nat} (hq : 1 ≤ q) (hq' : q ≤ 100) {s t : State} (h : buildQuant q s = .done t)
    (hs : TablesOk s) : TablesOk t := by
  obtain ⟨hbuffers, -, hhuff, hcoeff⟩ := hs
  have hquality : (BitVec.ofNat 7 q).toNat = q := Nat.mod_eq_of_lt (by omega)
  have hscale : (BitVec.ofNat 13 (qScale q)).toNat = qScale q :=
    Nat.mod_eq_of_lt (by have := qScale_le q; omega)
  cases Res.done.inj h
  refine ⟨hbuffers, fun _ => ?_, hhuff, hcoeff⟩
  simp only [State.withMem_qt, State.withQt_qt, hquality, hscale]
  exact ⟨⟨hq, hq'⟩, trivial, fun k hk =>
    ⟨(spaceRead_fill 128 _ k).trans (if_pos hk), (spaceRead_fill 128 _ k).trans (if_pos hk)⟩⟩

/-- HUF.BUILD fills HUFT (R248). The table is named here by its elements, so that no later proof evaluates it. -/
theorem buildHuff_eq_done {s t : State} (h : buildHuff s = .done t) :
    ∃ m : Space HCode, (∀ k, k < 1024 → spaceRead m k = some (huffEntry (k / 256) (k % 256))) ∧
      spaceWf 1024 m = true ∧ t = (s.withMem (s.mem.withHuft m)).withHuf { s.huf with valid := true } :=
  ⟨_, fun k hk => (spaceRead_fill 1024 _ k).trans (if_pos hk), spaceWf_fill 1024 _, (Res.done.inj h).symm⟩

theorem buildHuff_tablesOk {s t : State} (h : buildHuff s = .done t) (hs : TablesOk s) : TablesOk t := by
  obtain ⟨hbuffers, hquant, -, hcoeff⟩ := hs
  obtain ⟨m, hm, -, rfl⟩ := buildHuff_eq_done h
  exact ⟨hbuffers, hquant, fun _ => hm, hcoeff⟩

/-- The promise of the guard flags is kept by every JPEG command (R31 to R33, R308). -/
theorem JpegMove.tablesOk {s t : State} (h : JpegMove s t) (hs : TablesOk s) : TablesOk t := by
  cases h with
  | coded hf hv ha =>
    have hm : t.mem = s.mem := hf.mem
    have hq : t.qt = s.qt := hf.qt
    have hd : t.dct = s.dct := hf.dct
    simpa only [TablesOk, BuffersOk, QuantOk, HuffOk, CbOk, hm, hq, hd, hv] using hs
  | quantBuilt q hq hq' h => exact buildQuant_tablesOk hq hq' h hs
  | huffBuilt h => exact buildHuff_tablesOk h hs
  | transformed h => exact fwdDct_tablesOk h hs
  | quantised cls h => exact quantise_tablesOk h hs
  | sampleLoaded idx val h => exact loadSample_tablesOk h hs
  | coeffLoaded idx val h => exact loadCoeff_tablesOk h hs

/-- A JPEG command that completes leaves the JPEG bit-packer good (R34). -/
theorem JpegMove.accOk {s t : State} (h : JpegMove s t) (hs : AccOk s.jbp) : AccOk t.jbp := by
  cases h with
  | coded hf hv ha => exact ha hs
  | quantBuilt q hq hq' h => cases Res.done.inj h; exact hs
  | huffBuilt h => obtain ⟨m, -, -, rfl⟩ := buildHuff_eq_done h; exact hs
  | transformed h => rw [fwdDct_eq_done h]; exact hs
  | quantised cls h => rw [quantise_eq_done h]; exact hs
  | sampleLoaded idx val h => rw [(loadSample_eq_done h).2]; exact hs
  | coeffLoaded idx val h => rw [(loadCoeff_eq_done h).2]; exact hs

/-! The canonical form of the memory, when one space is replaced. -/

theorem Memory.wf_withSb {m : Memory} {v : Space Byte} (h : m.wf = true) (hv : spaceWf 64 v = true) :
    (m.withSb v).wf = true := by
  rw [Memory.wf_iff] at *
  obtain ⟨hhtab, hpkbuf, -, hrest⟩ := h
  exact ⟨hhtab, hpkbuf, hv, hrest⟩

theorem Memory.wf_withCb {m : Memory} {v : Space (BitVec 80)} (h : m.wf = true) (hv : spaceWf 64 v = true) :
    (m.withCb v).wf = true := by
  rw [Memory.wf_iff] at *
  obtain ⟨hhtab, hpkbuf, hsb, -, hrest⟩ := h
  exact ⟨hhtab, hpkbuf, hsb, hv, hrest⟩

theorem Memory.wf_withQb {m : Memory} {v : Space (BitVec 16)} (h : m.wf = true) (hv : spaceWf 64 v = true) :
    (m.withQb v).wf = true := by
  rw [Memory.wf_iff] at *
  obtain ⟨hhtab, hpkbuf, hsb, hcb, -, hrest⟩ := h
  exact ⟨hhtab, hpkbuf, hsb, hcb, hv, hrest⟩

theorem Memory.wf_withQtab {m : Memory} {v : Space Byte} (h : m.wf = true) (hv : spaceWf 128 v = true) :
    (m.withQtab v).wf = true := by
  rw [Memory.wf_iff] at *
  obtain ⟨hhtab, hpkbuf, hsb, hcb, hqb, -, hrest⟩ := h
  exact ⟨hhtab, hpkbuf, hsb, hcb, hqb, hv, hrest⟩

theorem Memory.wf_withDivt {m : Memory} {v : Space (BitVec 72)} (h : m.wf = true) (hv : spaceWf 128 v = true) :
    (m.withDivt v).wf = true := by
  rw [Memory.wf_iff] at *
  obtain ⟨hhtab, hpkbuf, hsb, hcb, hqb, hqtab, -, hhuft⟩ := h
  exact ⟨hhtab, hpkbuf, hsb, hcb, hqb, hqtab, hv, hhuft⟩

theorem Memory.wf_withHuft {m : Memory} {v : Space HCode} (h : m.wf = true) (hv : spaceWf 1024 v = true) :
    (m.withHuft v).wf = true := by
  rw [Memory.wf_iff] at *
  obtain ⟨hhtab, hpkbuf, hsb, hcb, hqb, hqtab, hdivt, -⟩ := h
  exact ⟨hhtab, hpkbuf, hsb, hcb, hqb, hqtab, hdivt, hv⟩

/-- A JPEG command that completes keeps the canonical form of the spaces. -/
theorem JpegMove.wf {s t : State} (h : JpegMove s t) (hs : s.mem.wf = true) : t.mem.wf = true := by
  have hspaces := (Memory.wf_iff s.mem).mp hs
  obtain ⟨-, -, hsb, -, hqb, -⟩ := hspaces
  cases h with
  | coded hf hv ha => rw [show t.mem = s.mem from hf.mem]; exact hs
  | quantBuilt q hq hq' h =>
    cases Res.done.inj h
    rw [State.withMem_mem]
    exact Memory.wf_withDivt (Memory.wf_withQtab hs (spaceWf_fill _ _)) (spaceWf_fill _ _)
  | huffBuilt h =>
    obtain ⟨m, -, hm, rfl⟩ := buildHuff_eq_done h
    exact Memory.wf_withHuft hs hm
  | transformed h =>
    rw [fwdDct_eq_done h, State.withDct_mem, State.withMem_mem]
    exact Memory.wf_withCb hs (spaceWf_fill _ _)
  | quantised cls h =>
    rw [quantise_eq_done h, State.withDct_mem, State.withMem_mem]
    exact Memory.wf_withQb hs (spaceWf_fill _ _)
  | sampleLoaded idx val h =>
    obtain ⟨hi, rfl⟩ := loadSample_eq_done h
    rw [State.withDct_mem, State.withMem_mem]
    exact Memory.wf_withSb hs (spaceWf_write hsb hi val)
  | coeffLoaded idx val h =>
    obtain ⟨hi, rfl⟩ := loadCoeff_eq_done h
    rw [State.withDct_mem, State.withMem_mem]
    exact Memory.wf_withQb hs (spaceWf_write hqb hi val)

/-- Every move of the LZW unit keeps the canonical form of HTAB. -/
theorem LzwMove.htab_wf {s t : State} (h : LzwMove s t) (hs : spaceWf 5003 s.mem.htab = true) :
    spaceWf 5003 t.mem.htab = true := by
  cases h with
  | kept _ hh | begun _ _ _ _ hh | extended _ _ _ _ _ hh | closed _ hh => rw [hh]; exact hs
  | opened _ _ _ _ hh | cleared _ _ _ _ hh => rw [hh]; rfl
  | added c j _ _ _ _ hj _ hh =>
    obtain ⟨hlt, -⟩ := (probe_spec s.mem.htab c s.lzw.prefixCode).2 j hj
    rw [hh]
    exact spaceWf_write hs hlt _

end Sys2Proof.Machine
end

section
/-! PROOFS. What a step can do (45_control_and_buffers.md R280), said once: `StepEffect`. Every invariant of 10_state.md
is a case analysis over it. -/

namespace Sys2Proof.Machine

/-! What a completed command of each pipeline does. -/

/-- A GIF command that completes: the JPEG pipeline and the fault registers stay, the packers stay good, the LZW unit
makes one of its moves. -/
structure GifEffect (s t : State) : Prop where
  fault : t.fault = s.fault
  jpeg : withJpegOf t s = t
  packs : PacksWell s t
  move : LzwMove s t

/-- A JPEG command that completes: the GIF pipeline and the fault registers stay. -/
structure JpegEffect (s t : State) : Prop where
  fault : t.fault = s.fault
  gif : withGifOf t s = t
  move : JpegMove s t

/-- A command that completes without a fault ran its procedure to the end. -/
theorem RunsAs.eq_done {i : Instr} {k : State → Res} (hi : RunsAs i k) {s t : State} (h : exec i s = .next t)
    (ht : Healthy t) : k s = .done t := by
  rw [hi] at h
  rcases conclude_eq_next h with hk | ⟨c, u, -, rfl⟩
  · exact hk
  · exact absurd ht (by simp [Healthy])

/-- The commands of the packers leave the LZW unit alone (R63). -/
theorem PackFrame.lzwMove {s t : State} (h : PackFrame s t) : LzwMove s t :=
  .kept h.lzw (by rw [h.mem]; rfl)

/-- A procedure that only writes bits, in the terms of the whole pipeline. -/
theorem jpegMove_of_jbpWell {s t : State} {r : Res} (h : JbpWell s r) (hr : r = .done t) : JpegMove s t := by
  obtain ⟨hf, -, ha⟩ := Res.Ends.done h hr
  exact .coded (by rw [← hf.huf, State.withHuf_self]; exact hf) (by rw [hf.huf]) ha

/-- What each procedure of the GIF pipeline does when it runs to its end. -/
theorem gifCommand_done {i : Instr} (hi : gifCommand i = true) :
    ∃ k, RunsAs i k ∧ ∀ s t, k s = .done t → PacksWell s t ∧ LzwMove s t := by
  cases i with
  | bpWrite code n =>
    refine ⟨_, fun _ => rfl, fun s t h => ?_⟩
    obtain ⟨-, h⟩ := require_eq_done h
    obtain ⟨hn, h⟩ := require_eq_done h
    exact ⟨bpWrite_packsWell (of_decide_eq_true hn).2 h, ((bpWrite_packEnds _ _ s).done h).1.lzwMove⟩
  | bpFlush =>
    refine ⟨_, fun _ => rfl, fun s t h => ?_⟩
    obtain ⟨-, h⟩ := require_eq_done h
    exact ⟨bpFlush_packsWell h, ((bpFlush_packEnds s).done h).1.lzwMove⟩
  | pkWrite byte =>
    refine ⟨_, fun _ => rfl, fun s t h => ?_⟩
    obtain ⟨-, h⟩ := require_eq_done h
    exact ⟨pkWrite_packsWell h, ((pkWrite_packEnds byte s).done h).1.lzwMove⟩
  | pkFlush =>
    refine ⟨_, fun _ => rfl, fun s t h => ?_⟩
    obtain ⟨-, h⟩ := require_eq_done h
    exact ⟨pkFlush_packsWell h, ((pkFlush_packEnds s).done h).1.lzwMove⟩
  | lzwStart b =>
    refine ⟨_, fun _ => rfl, fun s t h => ?_⟩
    obtain ⟨-, h⟩ := require_eq_done h
    obtain ⟨hb, h⟩ := require_eq_done h
    obtain ⟨hb3, hb9⟩ := of_decide_eq_true hb
    exact openStream_eq_done hb3 hb9 h
  | lzwSym byte =>
    refine ⟨_, fun _ => rfl, fun s t h => ?_⟩
    obtain ⟨ha, h⟩ := require_eq_done h
    obtain ⟨hc, h⟩ := require_eq_done h
    exact takeSymbol_eq_done ha (of_decide_eq_true hc) h
  | lzwEnd =>
    refine ⟨_, fun _ => rfl, fun s t h => ?_⟩
    obtain ⟨-, h⟩ := require_eq_done h
    obtain ⟨-, h⟩ := require_eq_done h
    exact closeStream_eq_done h
  | _ => cases hi

/-- What each procedure of the JPEG pipeline does when it runs to its end. -/
theorem jpegCommand_done {i : Instr} (hi : jpegCommand i = true) :
    ∃ k, RunsAs i k ∧ ∀ s t, k s = .done t → JpegMove s t := by
  cases i with
  | qtBuild q =>
    refine ⟨_, fun _ => rfl, fun s t h => ?_⟩
    obtain ⟨hq, h⟩ := require_eq_done h
    obtain ⟨hq1, hq100⟩ := of_decide_eq_true hq
    exact .quantBuilt q hq1 hq100 h
  | dctFwd =>
    refine ⟨_, fun _ => rfl, fun s t h => ?_⟩
    obtain ⟨-, h⟩ := require_eq_done h
    exact .transformed h
  | dctQuant cls =>
    refine ⟨_, fun _ => rfl, fun s t h => ?_⟩
    obtain ⟨-, h⟩ := require_eq_done h
    obtain ⟨-, h⟩ := require_eq_done h
    exact .quantised cls h
  | hufBuild => exact ⟨_, fun _ => rfl, fun s t h => .huffBuilt h⟩
  | hufStart =>
    refine ⟨fun s => .done ((s.withHuf { s.huf with pred0 := 0, pred1 := 0, pred2 := 0 }).withJbp
      { acc := 0, cnt := 0 }), fun _ => rfl, fun s t h => ?_⟩
    cases h
    exact .coded rfl rfl fun _ => accOk_zero
  | hufBlock comp cls =>
    refine ⟨_, fun _ => rfl, fun s t h => ?_⟩
    obtain ⟨-, h⟩ := require_eq_done h
    obtain ⟨-, h⟩ := require_eq_done h
    obtain ⟨-, h⟩ := require_eq_done h
    obtain ⟨-, h⟩ := withValues_eq_done h
    obtain ⟨hr, h⟩ := require_eq_done h
    obtain ⟨hf, hv, ha⟩ := emitBlock_eq_done hr h
    exact .coded hf hv ha
  | jbpWrite code n =>
    refine ⟨_, fun _ => rfl, fun s t h => ?_⟩
    obtain ⟨hn, h⟩ := require_eq_done h
    obtain ⟨-, hn16⟩ := of_decide_eq_true hn
    exact jpegMove_of_jbpWell (jbpWrite_jbpWell code.toNat (hn16.trans (by decide)) s) h
  | jbpFlush => exact ⟨_, fun _ => rfl, fun s t h => jpegMove_of_jbpWell (jbpFlush_jbpWell s) h⟩
  | bufLds idx val => exact ⟨_, fun _ => rfl, fun s t h => .sampleLoaded idx val h⟩
  | bufLdq idx val => exact ⟨_, fun _ => rfl, fun s t h => .coeffLoaded idx val h⟩
  | _ => cases hi

theorem gifEffect_of_exec {i : Instr} (hi : gifCommand i = true) {s t : State} (hs : Healthy s)
    (h : exec i s = .next t) (ht : Healthy t) : GifEffect s t := by
  obtain ⟨k, hk, hdone⟩ := gifCommand_done hi
  obtain ⟨hpacks, hmove⟩ := hdone s t (hk.eq_done h ht)
  have hne : i ≠ .ctlReset := by rintro rfl; cases hi
  exact ⟨exec_fault hne h ht, ((pipelinesIndependent i s t s hs h ht).2 hi).1, hpacks, hmove⟩

theorem jpegEffect_of_exec {i : Instr} (hi : jpegCommand i = true) {s t : State} (hs : Healthy s)
    (h : exec i s = .next t) (ht : Healthy t) : JpegEffect s t := by
  obtain ⟨k, hk, hdone⟩ := jpegCommand_done hi
  have hne : i ≠ .ctlReset := by rintro rfl; cases hi
  exact ⟨exec_fault hne h ht, ((pipelinesIndependent i s t s hs h ht).1 hi).1, hdone s t (hk.eq_done h ht)⟩

/-- The 18 commands: CTL.RESET and the two pipelines (00_scope.md R4). -/
theorem command_cases (i : Instr) : i = .ctlReset ∨ gifCommand i = true ∨ jpegCommand i = true := by
  cases i <;> simp [gifCommand, jpegCommand]

/-! What a step does. -/

/-- Everything a step that answers a next state can do. -/
inductive StepEffect (s t : State) : Prop
  /-- Nothing was offered, or the word was discarded (R280, R311). -/
  | idle (es : List HostEvent) (h : t = s.withEvents es)
  /-- CTL.RESET or the reset pin (R281, R340). -/
  | reset (u : State) (out : List Byte) (h : t = (resetElements u).withOut out)
  /-- A fault was taken (R312). -/
  | trapped (c : Cause) (w : Word) (u : State) (h : t = trapEntry c w u)
  | gif (es : List HostEvent) (hs : Healthy s) (h : GifEffect (s.withEvents es) t)
  | jpeg (es : List HostEvent) (hs : Healthy s) (h : JpegEffect (s.withEvents es) t)

/-- A command that is not discarded while FAULTED is CTL.RESET (R311). -/
theorem healthy_of_not_discards {s : State} {w : Word} {i : Instr} (hd : discards s w = false)
    (hw : decode w = .ok i) (hi : i ≠ .ctlReset) : Healthy s := by
  by_contra hf
  have hfaulted : s.fault.faulted = true := by simpa [Healthy] using hf
  have hreset : w = encode .ctlReset := by simpa [discards, hfaulted] using hd
  subst hreset
  exact hi (Except.ok.inj (hw.symm.trans (by decide)))

theorem runCommand_effect {w : Word} {s t : State} {es : List HostEvent}
    (h : runCommand w (s.withEvents es) = .next t) : StepEffect s t := by
  rcases runCommand_cases w (s.withEvents es) with ⟨-, hr⟩ | ⟨hd, i, hw, hr⟩ | ⟨-, -, hr⟩
  · rw [hr] at h; cases h; exact .idle es rfl
  · rw [hr] at h
    rcases command_cases i with rfl | hpipe
    · cases h; exact .reset (s.withEvents es) s.out rfl
    have hne : i ≠ .ctlReset := by rintro rfl; simp [gifCommand, jpegCommand] at hpipe
    have hs := healthy_of_not_discards hd hw hne
    by_cases ht : Healthy t
    · rcases hpipe with hi | hi
      · exact .gif es hs (gifEffect_of_exec hi hs h ht)
      · exact .jpeg es hs (jpegEffect_of_exec hi hs h ht)
    · obtain ⟨k, hk, hc⟩ := exec_surround hne
      rw [hk] at h
      rcases conclude_eq_next h with hdone | ⟨c, u, -, rfl⟩
      · have hfault := ((ends_of_surround hc (s.withEvents es)).done hdone).2
        exact absurd (show t.fault.faulted = false by rw [hfault]; exact hs) ht
      · exact .trapped c _ u rfl
  · rw [hr] at h; cases h; exact .trapped _ w _ rfl

theorem step_effect {s t : State} (h : step s = .next t) : StepEffect s t := by
  rcases step_cases h with ⟨-, rfl⟩ | ⟨w, rest, -, hr⟩ | ⟨w, rest, -, -, -, rfl⟩ | ⟨rest, -, rfl⟩ |
    ⟨w, rest, u, -, -, rfl⟩ | ⟨w, rest, -, -, rfl⟩
  · exact .idle t.events rfl
  · exact runCommand_effect hr
  all_goals exact .reset _ [] rfl

/-! The good states. -/

/-- A state with the values of the reset table, in which no element of a space holds a value, is good (R39). -/
theorem coreOk_of_resetTable {t : State} (h : ResetTable t) (hm : t.mem = Memory.blank) : CoreOk t := by
  obtain ⟨hfault, hactive, -, hbp, hpk, hqt, hdct, hhuf, hjbp, -⟩ := h
  have hbuffers : BuffersOk t := by simp [BuffersOk, hdct]
  refine ⟨by rw [hm]; rfl, by simp [FaultRegsOk, hfault], fun _ => ⟨⟨?_, ?_, packetOk_of_zero hpk⟩, hbuffers, ?_⟩⟩
  · rw [hbp]; exact accOk_zero
  · rw [hjbp]; exact accOk_zero
  · simp [QuantOk, HuffOk, CbOk, LzwOk, DictOk, WidthOk, hqt, hhuf, hdct, hactive]

theorem resetTable_resetElements (u : State) (out : List Byte) : ResetTable ((resetElements u).withOut out) :=
  ⟨rfl, rfl, rfl, rfl, rfl, rfl, rfl, rfl, rfl, rfl⟩

/-- An invariant of the states that are not FAULTED is kept by every step when it holds in the good states that are not
FAULTED, whatever the host offers, and completed commands of both pipelines keep it. -/
theorem step_keeps {P : State → Prop} (hevents : ∀ s es, P s → P (s.withEvents es))
    (hreset : ∀ t, CoreOk t → Healthy t → t.lzw.active = false → P t) (hgif : ∀ s t, GifEffect s t → P s → P t)
    (hjpeg : ∀ s t, JpegEffect s t → P s → P t) {s t : State} (hs : Healthy s → P s) (h : step s = .next t)
    (ht : Healthy t) : P t := by
  cases step_effect h with
  | idle es h => subst h; exact hevents s es (hs ht)
  | reset u out h =>
    subst h
    exact hreset _ (coreOk_of_resetTable (resetTable_resetElements u out) rfl) ht rfl
  | trapped c w u h => subst h; exact absurd ht (by simp [Healthy])
  | gif es hh h => exact hgif _ t h (hevents s es (hs hh))
  | jpeg es hh h => exact hjpeg _ t h (hevents s es (hs hh))

end Sys2Proof.Machine
end

section
/-! PROOFS. The invariants of 10_state.md, each from what a step can do. -/

namespace Sys2Proof.Machine

/-- A GIF command leaves what the guard flags of the JPEG pipeline promise (R63). -/
theorem GifEffect.tablesOk {s t : State} (h : GifEffect s t) (hs : TablesOk s) : TablesOk t := by
  rw [← h.jpeg]; exact hs

/-- Settles O21: the GIF commands keep the packers good in themselves; the JPEG commands keep the JPEG bit-packer good
and leave the GIF packers alone. -/
theorem packersStayGood : Obligations.PackersStayGood := by
  intro s t hs h ht
  refine step_keeps (P := PackersOk) (fun _ _ hs => hs) (fun t ht hh _ => (ht.2.2 hh).1) ?_ ?_ hs h ht
  · rintro s t h ⟨hbp, hjbp, hpacket⟩
    refine ⟨h.packs.acc hbp, ?_, h.packs.packet hpacket⟩
    rw [← h.jpeg]; exact hjbp
  · rintro s t h ⟨hbp, hjbp, hpacket⟩
    have hjbp' := h.move.accOk hjbp
    rw [← h.gif] at hjbp' ⊢
    exact ⟨hbp, hjbp', hpacket⟩

/-- Settles O22: only the JPEG commands write the buffers and tables, and each of them keeps the promise. -/
theorem tablesStayBuilt : Obligations.TablesStayBuilt := by
  intro s t hs h ht
  refine step_keeps (P := TablesOk) (fun _ _ hs => hs) (fun t ht hh _ => ?_) (fun _ _ h => h.tablesOk)
    (fun _ _ h => h.move.tablesOk) hs h ht
  obtain ⟨-, hbuffers, hquant, hhuff, hcoeff, -⟩ := ht.2.2 hh
  exact ⟨hbuffers, hquant, hhuff, hcoeff⟩

/-- An invariant of the LZW registers and the dictionary that holds while no stream is open is kept by every step when
the moves of the LZW unit keep it. -/
theorem step_keeps_lzw {P : State → Prop}
    (hlocal : ∀ s t : State, t.lzw = s.lzw → t.mem.htab = s.mem.htab → P s → P t)
    (hidle : ∀ t : State, t.lzw.active = false → P t) (hmove : ∀ s t, LzwMove s t → P s → P t) {s t : State}
    (hs : Healthy s → P s) (h : step s = .next t) (ht : Healthy t) : P t := by
  refine step_keeps (fun s es => hlocal s (s.withEvents es) rfl rfl) (fun t _ _ => hidle t)
    (fun s t h => hmove s t h.move) (fun s t h => ?_) hs h ht
  rw [← h.gif]
  exact hlocal s (withGifOf t s) rfl rfl

/-- Settles O23: every move of the LZW unit keeps R26 (a) to (e). -/
theorem lzwRegistersStayGood : Obligations.LzwRegistersStayGood := by
  refine ⟨(fun h => nomatch h), fun s t hs h ht => ?_⟩
  refine step_keeps_lzw (P := LzwOk) (fun s t hl hh hs => ?_) (fun t hidle ha => ?_) (fun _ _ h => h.lzwOk) hs h ht
  · exact (LzwMove.kept hl hh).lzwOk hs
  · rw [hidle] at ha; cases ha

/-- Settles O24: an insertion fills the empty slot where the probe of the new key ended, which no other probe passes. -/
theorem dictionaryStaysGood : Obligations.DictionaryStaysGood := by
  refine ⟨(fun h => nomatch h), fun s t hs h ht => ?_⟩
  have hboth : LzwOk t ∧ DictOk t := by
    refine step_keeps_lzw (P := fun s => LzwOk s ∧ DictOk s) (fun s t hl hh hs => ?_) (fun t hidle => ?_)
      (fun _ _ h hs => ⟨h.lzwOk hs.1, h.dictOk hs.1 hs.2⟩) hs h ht
    · exact ⟨(LzwMove.kept hl hh).lzwOk hs.1, (LzwMove.kept hl hh).dictOk hs.1 hs.2⟩
    · constructor <;> intro ha <;> rw [hidle] at ha <;> cases ha
  exact hboth.2

/-- Every step keeps the closed form of the width, with the registers it rests on (R161). -/
theorem step_keeps_width {s t : State} (hs : Healthy s → LzwOk s ∧ WidthOk s) (h : step s = .next t)
    (ht : Healthy t) : LzwOk t ∧ WidthOk t := by
  refine step_keeps_lzw (P := fun s => LzwOk s ∧ WidthOk s) (fun s t hl hh hs => ?_) (fun t hidle => ?_)
    (fun _ _ h hs => ⟨h.lzwOk hs.1, h.widthOk hs.1 hs.2⟩) hs h ht
  · exact ⟨(LzwMove.kept hl hh).lzwOk hs.1, (LzwMove.kept hl hh).widthOk hs.1 hs.2⟩
  · constructor <;> intro ha <;> rw [hidle] at ha <;> cases ha

/-- FAULT_CODE of a cause is a code of the printed table, and never 2 (R301, R310). -/
theorem toCode_mem (c : Cause) : c.toCode ∈ ([1, 3, 4, 5, 6, 7, 8] : List (BitVec 4)) := by cases c <;> decide

/-- Settles O20: only trap entry and the resets write the fault registers. -/
theorem faultRegsStayLegal : Obligations.FaultRegsStayLegal := by
  intro s t hs h
  cases step_effect h with
  | idle es h => subst h; exact hs
  | reset u out h => subst h; exact (coreOk_of_resetTable (resetTable_resetElements u out) rfl).2.1
  | trapped c w u h => subst h; exact ⟨(fun hf => nomatch hf), fun _ => toCode_mem c⟩
  | gif es _ h => unfold FaultRegsOk; rw [h.fault]; exact hs
  | jpeg es _ h => unfold FaultRegsOk; rw [h.fault]; exact hs

/-- Every step keeps the canonical form of the spaces (log entry 7). -/
theorem step_keeps_wf {s t : State} (hs : s.mem.wf = true) (h : step s = .next t) : t.mem.wf = true := by
  cases step_effect h with
  | idle es h => subst h; exact hs
  | reset u out h => subst h; exact Memory.wf_blank
  | trapped c w u h => subst h; exact Memory.wf_blank
  | jpeg es _ h => exact h.move.wf hs
  | gif es _ h =>
    obtain ⟨hhtab, hpkbuf, hrest⟩ := (Memory.wf_iff s.mem).mp hs
    have hhtab' := h.move.htab_wf hhtab
    have hpkbuf' := h.packs.canonical hpkbuf
    rw [← h.jpeg] at hhtab' hpkbuf' ⊢
    exact (Memory.wf_iff _).mpr ⟨hhtab', hpkbuf', hrest⟩

/-- Settles O27: the parts of a good state, each kept by every step. -/
theorem coreOkKept : Obligations.CoreOkKept := by
  rintro s t ⟨hwf, hfault, hgood⟩ h
  refine ⟨step_keeps_wf hwf h, faultRegsStayLegal s t hfault h, fun ht => ?_⟩
  have hpackers := packersStayGood s t (fun hs => (hgood hs).1) h ht
  obtain ⟨hbuffers, hquant, hhuff, hcoeff⟩ := tablesStayBuilt s t (fun hs => by
    obtain ⟨-, hbuffers, hquant, hhuff, hcoeff, -⟩ := hgood hs
    exact ⟨hbuffers, hquant, hhuff, hcoeff⟩) h ht
  obtain ⟨hlzw, hwidth⟩ := step_keeps_width (fun hs => by
    obtain ⟨-, -, -, -, -, hlzw, -, hwidth⟩ := hgood hs
    exact ⟨hlzw, hwidth⟩) h ht
  have hdict := dictionaryStaysGood.2 s t (fun hs => by
    obtain ⟨-, -, -, -, -, hlzw, hdict, -⟩ := hgood hs
    exact ⟨hlzw, hdict⟩) h ht
  exact ⟨hpackers, hbuffers, hquant, hhuff, hcoeff, hlzw, hdict, hwidth⟩

/-- The state right after reset has the values of the reset table (R39). -/
theorem resetTable_reset : ResetTable State.reset := ⟨rfl, rfl, rfl, rfl, rfl, rfl, rfl, rfl, rfl, rfl⟩

/-- Settles O9: the fields of the reset state, one by one. -/
theorem resetStateIsTable : Obligations.ResetStateIsTable := ⟨resetTable_reset, rfl, rfl⟩

/-- Settles O26: the reset state has the values of the reset table, and no space holds a value. -/
theorem coreOkAtReset : Obligations.CoreOkAtReset := coreOk_of_resetTable resetTable_reset rfl

end Sys2Proof.Machine
end

section
/-! PROOFS. The read port (20_memory.md R66): registers, mapped spaces, zero elsewhere. -/

namespace Sys2Proof.Machine

/-- The fields of STATUS do not run into each other (10_state.md R37). -/
theorem statusWord_fields (s : State) :
    (statusWord s).getLsbD 0 = s.fault.faulted ∧ (statusWord s).getLsbD 1 = s.lzw.active ∧
      (statusWord s).getLsbD 2 = s.lzw.havePrefix ∧ (statusWord s).toNat / 2 ^ 3 % 4 = (lzwPhase s.lzw).toNat ∧
      (statusWord s).getLsbD 5 = s.qt.valid ∧ (statusWord s).getLsbD 6 = s.huf.valid ∧
      (statusWord s).getLsbD 7 = s.dct.cbValid ∧ (statusWord s).toNat < 2 ^ 8 := by
  unfold statusWord
  generalize s.fault.faulted = faulted
  generalize s.lzw.active = active
  generalize s.lzw.havePrefix = havePrefix
  generalize s.qt.valid = quant
  generalize s.huf.valid = huff
  generalize s.dct.cbValid = coeff
  cases lzwPhase s.lzw <;> revert faulted active havePrefix quant huff coeff <;> decide

/-- The two words of a written-mask are its halves (R37). -/
theorem halves_toNat (m : BitVec 64) :
    ((m >>> 32).setWidth 32).toNat * 2 ^ 32 + (m.setWidth 32).toNat = m.toNat := by
  have := m.isLt
  simp only [BitVec.toNat_setWidth, BitVec.toNat_ushiftRight, Nat.shiftRight_eq_div_pow]
  omega

/-- A zero-extended register or element keeps its value (R66). -/
theorem toNat_zeroExtended {w : Nat} (hw : w ≤ 32) (x : BitVec w) : (x.setWidth 32).toNat = x.toNat :=
  BitVec.toNat_setWidth_of_le hw

/-- The registers that are read as they are held (R37). -/
theorem readPort_registers (s : State) :
    (readPort s 0x001).toNat = s.fault.code.toNat ∧ readPort s 0x002 = s.fault.cmd ∧
      readPort s 0x009 = s.bp.acc ∧ (readPort s 0x00A).toNat = s.bp.cnt.toNat ∧
      (readPort s 0x00B).toNat = s.pkCnt.toNat ∧ readPort s 0x00C = s.jbp.acc ∧
      (readPort s 0x00D).toNat = s.jbp.cnt.toNat ∧ (readPort s 0x010).toInt = s.huf.pred0.toInt ∧
      (readPort s 0x011).toInt = s.huf.pred1.toInt ∧ (readPort s 0x012).toInt = s.huf.pred2.toInt ∧
      (readPort s 0x014).toNat * 2 ^ 32 + (readPort s 0x013).toNat = s.dct.sbWr.toNat ∧
      (readPort s 0x016).toNat * 2 ^ 32 + (readPort s 0x015).toNat = s.dct.qbWr.toNat :=
  ⟨toNat_zeroExtended (by decide) s.fault.code, rfl, rfl, toNat_zeroExtended (by decide) s.bp.cnt,
    toNat_zeroExtended (by decide) s.pkCnt, rfl, toNat_zeroExtended (by decide) s.jbp.cnt,
    BitVec.toInt_signExtend_of_le (by decide), BitVec.toInt_signExtend_of_le (by decide),
    BitVec.toInt_signExtend_of_le (by decide), halves_toNat s.dct.sbWr, halves_toNat s.dct.qbWr⟩

/-- The LZW registers of an open stream (R37): CLEAR_CODE and EOF_CODE fit the 12 bits they are read through. -/
theorem readPort_lzw {s : State} (hib : 3 ≤ s.lzw.initBits.toNat) (hib' : s.lzw.initBits.toNat ≤ 9) :
    (readPort s 0x003).toNat = s.lzw.initBits.toNat ∧ (readPort s 0x004).toNat = s.lzw.nBits.toNat ∧
      (readPort s 0x005).toNat = s.lzw.freeEnt.toNat ∧ (readPort s 0x006).toNat = s.lzw.prefixCode.toNat ∧
      (readPort s 0x007).toNat = 2 ^ (s.lzw.initBits.toNat - 1) ∧
      (readPort s 0x008).toNat = 2 ^ (s.lzw.initBits.toNat - 1) + 1 := by
  obtain ⟨-, h256, -⟩ := clearCode_bounds hib hib'
  have hcode : ∀ n, n ≤ 257 → (BitVec.ofNat 32 (n % 2 ^ 12)).toNat = n := by
    intro n hn
    rw [BitVec.toNat_ofNat]
    omega
  exact ⟨toNat_zeroExtended (by decide) s.lzw.initBits, toNat_zeroExtended (by decide) s.lzw.nBits,
    toNat_zeroExtended (by decide) s.lzw.freeEnt, toNat_zeroExtended (by decide) s.lzw.prefixCode,
    hcode (clearCode s.lzw) (by omega), hcode (eofCode s.lzw) (show clearCode s.lzw + 1 ≤ 257 by omega)⟩

/-- QUALITY and QSCALE while the tables are valid (R37). -/
theorem readPort_quant {s : State} (h : s.qt.valid = true) :
    (readPort s 0x00E).toNat = s.qt.quality.toNat ∧ (readPort s 0x00F).toNat = s.qt.scale.toNat := by
  have hq : readPort s 0x00E = s.qt.quality.setWidth 32 := if_pos h
  have hs : readPort s 0x00F = s.qt.scale.setWidth 32 := if_pos h
  rw [hq, hs]
  exact ⟨toNat_zeroExtended (by decide) _, toNat_zeroExtended (by decide) _⟩

/-- The address of an element of a mapped space. -/
theorem toNat_address {n : Nat} (h : n < 4096) : (BitVec.ofNat 12 n).toNat = n := Nat.mod_eq_of_lt h

/-- A sample (R66). -/
theorem readPort_sample {s : State} {i : Nat} {v : Byte} (hi : i < 64) (hw : s.dct.sbWr.getLsbD i = true)
    (hv : spaceRead s.mem.sb i = some v) : readPort s (BitVec.ofNat 12 (0x100 + i)) = v.setWidth 32 := by
  unfold readPort
  simp only [toNat_address (show 0x100 + i < 4096 by omega), Nat.add_sub_cancel_left]
  rw [if_neg (by omega), if_pos (by omega), hw, hv]
  rfl

/-- A coefficient (R66). -/
theorem readPort_coefficient {s : State} {i : Nat} {v : BitVec 16} (hi : i < 64) (hw : s.dct.qbWr.getLsbD i = true)
    (hv : spaceRead s.mem.qb i = some v) : readPort s (BitVec.ofNat 12 (0x140 + i)) = v.signExtend 32 := by
  unfold readPort
  simp only [toNat_address (show 0x140 + i < 4096 by omega), Nat.add_sub_cancel_left]
  rw [if_neg (by omega), if_neg (by omega), if_pos (by omega), hw, hv]
  rfl

/-- A quantum value (R66). -/
theorem readPort_quantum {s : State} {k : Nat} {v : Byte} (hk : k < 128) (hq : s.qt.valid = true)
    (hv : spaceRead s.mem.qtab k = some v) : readPort s (BitVec.ofNat 12 (0x200 + k)) = v.setWidth 32 := by
  unfold readPort
  simp only [toNat_address (show 0x200 + k < 4096 by omega), Nat.add_sub_cancel_left]
  rw [if_neg (by omega), if_neg (by omega), if_neg (by omega), if_pos (by omega), hq, hv]
  rfl

/-- A code of HUFT (R66). -/
theorem readPort_hcode {s : State} {k : Nat} {v : HCode} (hk : k < 1024) (hh : s.huf.valid = true)
    (hv : spaceRead s.mem.huft k = some v) : readPort s (BitVec.ofNat 12 (0x400 + k)) = hcodeWord v := by
  unfold readPort
  simp only [toNat_address (show 0x400 + k < 4096 by omega), Nat.add_sub_cancel_left]
  rw [if_neg (by omega), if_neg (by omega), if_neg (by omega), if_neg (by omega), if_pos (by omega), hh, hv]
  rfl

/-- A code as a word (R66): its 5-bit length and 16-bit code side by side. -/
theorem hcodeWord_toNat (h : HCode) : (hcodeWord h).toNat = h.len.toNat * 2 ^ 16 + h.code.toNat :=
  Nat.mod_eq_of_lt (by have := h.len.isLt; have := h.code.isLt; omega)

/-- Zero at every address between the registers and the mapped spaces (R66). -/
theorem readPort_unmapped (s : State) {a : BitVec 12}
    (h : (0x016 < a.toNat ∧ a.toNat < 0x100) ∨ (0x180 ≤ a.toNat ∧ a.toNat < 0x200) ∨
      (0x280 ≤ a.toNat ∧ a.toNat < 0x400) ∨ 0x800 ≤ a.toNat) : readPort s a = 0 := by
  unfold readPort
  simp only
  rw [if_neg (by omega), if_neg (by omega), if_neg (by omega), if_neg (by omega), if_neg (by omega)]

/-- Settles O60: the map of R66, register by register and space by space. -/
theorem readPortMap : Obligations.ReadPortMap := by
  intro s
  refine ⟨statusWord_fields s, readPort_registers s, fun _ => readPort_lzw, readPort_quant, fun i v hi hw hv => ?_,
    fun i v hi hw hv => ?_, fun k v hk hq hv => ?_, fun k v hk hh hv => ?_, fun a => readPort_unmapped s⟩
  · rw [readPort_sample hi hw hv, toNat_zeroExtended (by decide)]
  · rw [readPort_coefficient hi hw hv, BitVec.toInt_signExtend_of_le (by decide)]
  · rw [readPort_quantum hk hq hv, toNat_zeroExtended (by decide)]
  · rw [readPort_hcode hk hh hv, hcodeWord_toNat]

end Sys2Proof.Machine
end

section
/-! PROOFS. The memory spaces (20_memory.md R61, R62, R69): their canonical form, at every step. -/

namespace Sys2Proof.Machine

/-- Settles O19: what each kind of step leaves in the spaces is in canonical form (`step_keeps_wf`): a store stays inside
its space, a fill lists its indices in order, a reset and a fault list none. -/
theorem memoryStaysCanonical : Obligations.MemoryStaysCanonical := fun _ _ => step_keeps_wf

end Sys2Proof.Machine
end

section
/-! PROOFS. What a procedure writes does not depend on the sink, only how far it comes (20_memory.md R76, R77, R81). One
notion carries the proofs, `Writes`: the bytes of a run that ended, and what the same run makes of any other sink. -/

namespace Sys2Proof.Machine

/-- What an answer of the sink makes of a command that has written `out` so far and is left with the answers `rest`: a
refusal raises SINK_ERROR (R77), a sink never ready stops the command (R81). -/
def TornBy (a : SinkReply) (out : List Byte) (rest : List SinkReply) (r : Res) : Prop :=
  match a with
  | .accept => True
  | .refuse => ∃ u, r = .raised .sinkError u ∧ u.out = out ∧ u.sink = rest
  | .never => r = .stopped .sinkNeverReady

/-- Nothing is executed after the byte that was not taken (R16). -/
theorem TornBy.andThen {a : SinkReply} {out : List Byte} {rest : List SinkReply} {r : Res}
    (h : TornBy a out rest r) (k : State → Res) : TornBy a out rest (r.andThen k) := by
  cases a with
  | accept => trivial
  | refuse => obtain ⟨u, rfl, hout, hsink⟩ := h; exact ⟨u, rfl, hout, hsink⟩
  | never => cases h; rfl

/-- The run of `k` from `s` to `t` writes the bytes `bs`: from `s` with any other sink it ends alike if each of them is
accepted, and is torn at the first one that is not. -/
structure Writes (k : State → Res) (s t : State) (bs : List Byte) : Prop where
  out : t.out = s.out ++ bs
  taken : ∀ rs : List SinkReply, (∀ r ∈ rs.take bs.length, r = .accept) →
    k (s.withSink rs) = .done (t.withSink (rs.drop bs.length))
  torn : ∀ (n : Nat) (a : SinkReply) (rest : List SinkReply), n < bs.length →
    TornBy a (s.out ++ bs.take n) rest (k (s.withSink (List.replicate n .accept ++ a :: rest)))

/-- Two procedures in sequence write what they write one after the other. -/
theorem Writes.andThen {j k : State → Res} {s u t : State} {bs cs : List Byte} (hj : Writes j s u bs)
    (hk : Writes k u t cs) : Writes (fun x => (j x).andThen k) s t (bs ++ cs) := by
  refine ⟨by rw [hk.out, hj.out, List.append_assoc], fun rs hrs => ?_, fun n a rest hn => ?_⟩
  · rw [List.length_append, List.take_add] at hrs
    have hfirst := hj.taken rs fun r hr => hrs r (List.mem_append_left _ hr)
    have hsecond := hk.taken (rs.drop bs.length) fun r hr => hrs r (List.mem_append_right _ hr)
    simp only [hfirst, Res.andThen_done, hsecond, List.length_append, List.drop_drop]
  · by_cases hlt : n < bs.length
    · rw [List.take_append_of_le_length (Nat.le_of_lt hlt)]
      exact (hj.torn n a rest hlt).andThen k
    · obtain ⟨m, rfl⟩ := Nat.exists_eq_add_of_le (Nat.le_of_not_lt hlt)
      rw [List.length_append] at hn
      have hsecond := hk.torn m a rest (by omega)
      have hfirst := hj.taken (List.replicate bs.length .accept ++ (List.replicate m .accept ++ a :: rest))
        (by simp)
      rw [List.replicate_add, List.append_assoc, hfirst, List.drop_left' (by simp), Res.andThen_done,
        List.take_length_add_append, ← List.append_assoc, ← hj.out]
      exact hsecond

/-- Every run of `k` that ends writes some bytes, and is torn by a sink that does not accept them all. -/
def Torn (k : State → Res) : Prop := ∀ s t, k s = .done t → ∃ bs, Writes k s t bs

theorem Torn.andThen {j k : State → Res} (hj : Torn j) (hk : Torn k) : Torn (fun s => (j s).andThen k) := by
  intro s t h
  obtain ⟨u, hu, ht⟩ := Res.andThen_eq_done h
  obtain ⟨bs, hbs⟩ := hj s u hu
  obtain ⟨cs, hcs⟩ := hk u t ht
  exact ⟨bs ++ cs, hbs.andThen hcs⟩

/-- `k` and `j` do the same in `s`, whatever the sink answers. -/
def SameAt (s : State) (k j : State → Res) : Prop := ∀ rs, k (s.withSink rs) = j (s.withSink rs)

/-- A procedure that takes its branch and its operands from what the sink does not touch is torn as the branch taken
is. -/
theorem torn_of_sameAt {k : State → Res} (h : ∀ s t, k s = .done t → ∃ j, Torn j ∧ SameAt s k j) : Torn k := by
  intro s t hk
  obtain ⟨j, hj, hsame⟩ := h s t hk
  obtain ⟨bs, hout, htaken, htorn⟩ := hj s t ((hsame s.sink).symm.trans hk)
  exact ⟨bs, hout, fun rs hrs => (hsame rs).trans (htaken rs hrs),
    fun n a rest hn => by rw [hsame]; exact htorn n a rest hn⟩

/-- A change of the state that neither asks the sink nor touches OUT. -/
theorem torn_done {f : State → State} (hout : ∀ s, (f s).out = s.out)
    (hsink : ∀ s rs, f (s.withSink rs) = (f s).withSink rs) : Torn (fun s => .done (f s)) := by
  intro s t h
  cases h
  exact ⟨[], by rw [hout, List.append_nil], fun rs _ => congrArg Res.done (hsink s rs),
    fun n _ _ hn => absurd hn (Nat.not_lt_zero n)⟩

/-- `k` after such a change. -/
theorem Torn.after {k : State → Res} (hk : Torn k) {f : State → State} (hout : ∀ s, (f s).out = s.out)
    (hsink : ∀ s rs, f (s.withSink rs) = (f s).withSink rs) : Torn (fun s => k (f s)) :=
  (torn_done hout hsink).andThen hk

/-- A procedure with an operand that the sink does not touch. -/
theorem torn_operand {α : Type} {k : α → State → Res} (hk : ∀ a, Torn (k a)) {f : State → α}
    (hf : ∀ s rs, f (s.withSink rs) = f s) : Torn (fun s => k (f s) s) :=
  torn_of_sameAt fun s _ _ => ⟨k (f s), hk (f s), fun rs => by simp only [hf]⟩

/-- A branch on what the sink does not touch. -/
theorem Torn.ite {p : State → Prop} [DecidablePred p] {j k : State → Res} (hj : Torn j) (hk : Torn k)
    (hp : ∀ s rs, p (s.withSink rs) ↔ p s) : Torn (fun s => if p s then j s else k s) := by
  refine torn_of_sameAt fun s t h => ?_
  by_cases hs : p s
  · exact ⟨j, hj, fun rs => if_pos ((hp s rs).mpr hs)⟩
  · exact ⟨k, hk, fun rs => if_neg (fun h => hs ((hp s rs).mp h))⟩

/-- A procedure that never ends is torn by every sink: there is no run to speak of. -/
theorem torn_of_never_done {k : State → Res} (h : ∀ s t, k s ≠ .done t) : Torn k :=
  fun s t hk => absurd hk (h s t)

/-- A check made before `k` runs. -/
theorem Torn.require {p : State → Bool} {c : Cause} {k : State → State → Res} (hk : Torn (fun s => k s s))
    (hp : ∀ s rs, p (s.withSink rs) = p s) : Torn (fun s => require (p s) c (k s) s) :=
  hk.ite (p := fun s => p s = true) (k := .raised c) (torn_of_never_done fun _ _ h => nomatch h)
    (fun s rs => by rw [hp])

theorem Torn.withValues {p : State → Bool} {k : State → State → Res} (hk : Torn (fun s => k s s))
    (hp : ∀ s rs, p (s.withSink rs) = p s) : Torn (fun s => withValues (p s) (k s) s) :=
  hk.ite (p := fun s => p s = true) (k := fun _ => .stopped .noValue) (torn_of_never_done fun _ _ h => nomatch h)
    (fun s rs => by rw [hp])

/-- A procedure that takes a value which the sink does not touch, and stops where there is none. -/
theorem torn_elim {α : Type} {o : State → Option α} {e : Fault} {k : α → State → Res} {j : State → Res}
    (hj : ∀ s, j s = (o s).elim (.stopped e) (fun a => k a s)) (ho : ∀ s rs, o (s.withSink rs) = o s)
    (hk : ∀ a, Torn (k a)) : Torn j := by
  refine torn_of_sameAt fun s t h => ?_
  rw [hj] at h
  cases ha : o s with
  | none => rw [ha] at h; cases h
  | some a => exact ⟨k a, hk a, fun rs => by rw [hj, ho, ha, Option.elim_some]⟩

/-! The sink and the packers. -/

/-- `SinkWrite(b)` writes `b` (R15). -/
theorem sinkWrite_torn (b : Byte) : Torn (sinkWrite b) := by
  intro s t h
  refine ⟨[b], by rw [sinkWrite_eq_done h]; rfl, fun rs hrs => ?_, fun n a rest hn => ?_⟩
  · rw [sinkWrite_eq_done h]
    cases rs with
    | nil => rfl
    | cons r rs => cases hrs r (by simp); rfl
  · obtain rfl : n = 0 := by simpa using hn
    cases a with
    | accept => trivial
    | refuse => exact ⟨_, rfl, (List.append_nil _).symm, rfl⟩
    | never => rfl

theorem sinkWrites_torn (bs : List Byte) : Torn (sinkWrites bs) := by
  induction bs with
  | nil => exact torn_done (fun _ => rfl) (fun _ _ => rfl)
  | cons b rest ih => exact (sinkWrite_torn b).andThen ih

theorem pkFlush_torn : Torn pkFlush := by
  refine Torn.ite (p := fun s => s.pkCnt = 0) (j := .done) (torn_done (fun _ => rfl) (fun _ _ => rfl)) ?_
    (fun _ _ => Iff.rfl)
  refine torn_elim (o := fun s => spaceSlice s.mem.pkbuf 0 s.pkCnt.toNat)
    (k := fun payload s => (sinkWrites (s.pkCnt :: payload) s).andThen fun t => .done (t.withPkCnt 0))
    (fun s => by cases spaceSlice s.mem.pkbuf 0 s.pkCnt.toNat <;> rfl) (fun _ _ => rfl) (fun payload => ?_)
  exact (torn_operand (f := fun s => s.pkCnt :: payload) sinkWrites_torn (fun _ _ => rfl)).andThen
    (torn_done (fun _ => rfl) (fun _ _ => rfl))

theorem pkWrite_torn (b : Byte) : Torn (pkWrite b) := by
  have hfull : Torn (fun u => if u.pkCnt.toNat = pkBlockMax then pkFlush u else .done u) :=
    pkFlush_torn.ite (torn_done (fun _ => rfl) (fun _ _ => rfl)) (fun _ _ => Iff.rfl)
  exact torn_elim (o := fun s => spaceStore pkBlockMax s.mem.pkbuf s.pkCnt.toNat b)
    (fun s => by unfold pkWrite; cases spaceStore pkBlockMax s.mem.pkbuf s.pkCnt.toNat b <;> rfl) (fun _ _ => rfl)
    (fun m => hfull.after
      (f := fun u => (u.withMem (u.mem.withPkbuf m)).withPkCnt (BitVec.ofNat 8 (u.pkCnt.toNat + 1)))
      (fun _ => rfl) (fun _ _ => rfl))

/-- The oldest pending byte through the packet writer. -/
theorem pkWrite_pending_torn : Torn (fun s => pkWrite (BitVec.ofNat 8 s.bp.acc.toNat) s) :=
  torn_operand pkWrite_torn (fun _ _ => rfl)

theorem bpDrain_torn (k : Nat) : Torn (bpDrain k) := by
  induction k with
  | zero => exact torn_done (fun _ => rfl) (fun _ _ => rfl)
  | succ k ih =>
    exact pkWrite_pending_torn.andThen
      (ih.after (f := fun t => t.withBp (dropByte t.bp)) (fun _ => rfl) (fun _ _ => rfl))

theorem bpWrite_torn (code n : Nat) : Torn (bpWrite code n) :=
  (torn_operand (f := fun s => s.bp.cnt.toNat / 8) bpDrain_torn (fun _ _ => rfl)).after
    (f := fun s => s.withBp (loadAcc s.bp code n)) (fun _ => rfl) (fun _ _ => rfl)

theorem bpFlush_torn : Torn bpFlush :=
  pkFlush_torn.ite (p := fun s => s.bp.cnt = 0)
    (pkWrite_pending_torn.andThen
      (pkFlush_torn.after (f := (·.withBp { acc := 0, cnt := 0 })) (fun _ => rfl) (fun _ _ => rfl)))
    (fun _ _ => Iff.rfl)

/-! The LZW compressor. -/

/-- A code taken from the LZW registers, at the width in force. -/
theorem emitCode_torn (c : LzwRegs → Nat) : Torn (fun s => emitCode (c s.lzw) s) :=
  torn_operand (k := fun (l : LzwRegs) s => (bpWrite (c l) l.nBits.toNat s).andThen fun t =>
      .done (t.withLzw { t.lzw with nBits := nextWidth (c l) t.lzw })) (f := State.lzw)
    (fun l => (bpWrite_torn (c l) l.nBits.toNat).andThen (torn_done (fun _ => rfl) (fun _ _ => rfl)))
    (fun _ _ => rfl)

theorem insertPair_torn (i key : Nat) : Torn (insertPair i key) := by
  refine torn_elim (e := .noSuchElement) (o := fun s => spaceStore hashSize s.mem.htab i
      { key := BitVec.ofNat 20 key, code := BitVec.ofNat 12 s.lzw.freeEnt.toNat })
    (k := fun m s => .done ((s.withMem (s.mem.withHtab m)).withLzw
      { s.lzw with freeEnt := BitVec.ofNat 13 (s.lzw.freeEnt.toNat + 1) }))
    (fun s => ?_) (fun _ _ => rfl) (fun m => torn_done (fun _ => rfl) (fun _ _ => rfl))
  unfold insertPair
  cases spaceStore hashSize s.mem.htab i
    { key := BitVec.ofNat 20 key, code := BitVec.ofNat 12 s.lzw.freeEnt.toNat } <;> rfl

theorem resetDictionary_torn : Torn resetDictionary :=
  (emitCode_torn clearCode).after
    (f := fun s => (s.withMem (s.mem.withHtab [])).withLzw
      { s.lzw with freeEnt := BitVec.ofNat 13 (firstCode s.lzw) }) (fun _ => rfl) (fun _ _ => rfl)

theorem openStream_torn (initBits : Nat) : Torn (openStream initBits) :=
  (emitCode_torn clearCode).after
    (f := fun s => (((s.withLzw _).withMem (s.mem.withHtab [])).withBp { acc := 0, cnt := 0 }).withPkCnt 0)
    (fun _ => rfl) (fun _ _ => rfl)

theorem startNewMatch_torn (c : Byte) (i : Nat) : Torn (startNewMatch c i) := by
  have hinsert : Torn (fun t => insertPair i (hashKey c t.lzw.prefixCode) t) :=
    torn_operand (insertPair_torn i) (fun _ _ => rfl)
  have hdict := hinsert.ite (p := fun t => t.lzw.freeEnt.toNat < maxCodes) resetDictionary_torn (fun _ _ => Iff.rfl)
  exact (emitCode_torn (·.prefixCode.toNat)).andThen (hdict.andThen
    (torn_done (f := fun u => u.withLzw { u.lzw with prefixCode := BitVec.ofNat 12 c.toNat })
      (fun _ => rfl) (fun _ _ => rfl)))

theorem takeSymbol_torn (c : Byte) : Torn (takeSymbol c) := by
  refine Torn.ite (p := fun s => s.lzw.havePrefix = true) (torn_of_sameAt fun s t h => ?_)
    (torn_done (fun _ => rfl) (fun _ _ => rfl)) (fun _ _ => Iff.rfl)
  cases hp : probe s.mem.htab c s.lzw.prefixCode with
  | found i code =>
    exact ⟨_, torn_done (f := fun u => u.withLzw { u.lzw with prefixCode := code }) (fun _ => rfl) (fun _ _ => rfl),
      fun rs => by simp [hp]⟩
  | vacant i => exact ⟨_, startNewMatch_torn c i, fun rs => by simp [hp]⟩
  | unending => simp [hp] at h

theorem closeStream_torn : Torn closeStream :=
  (emitCode_torn (·.prefixCode.toNat)).andThen ((emitCode_torn eofCode).andThen (bpFlush_torn.andThen
    ((sinkWrite_torn 0).andThen
      (torn_done (f := fun x => x.withLzw { x.lzw with active := false }) (fun _ => rfl) (fun _ _ => rfl)))))

/-! The JPEG pipeline. -/

theorem loadSample_torn (idx : Nat) (val : Byte) : Torn (loadSample idx val) :=
  torn_elim (o := fun s => spaceStore 64 s.mem.sb idx val)
    (k := fun m s => .done ((s.withMem (s.mem.withSb m)).withDct
      { s.dct with sbWr := markWritten s.dct.sbWr idx }))
    (fun s => by unfold loadSample; cases spaceStore 64 s.mem.sb idx val <;> rfl) (fun _ _ => rfl)
    (fun _ => torn_done (fun _ => rfl) (fun _ _ => rfl))

theorem loadCoeff_torn (idx : Nat) (val : BitVec 16) : Torn (loadCoeff idx val) :=
  torn_elim (o := fun s => spaceStore 64 s.mem.qb idx val)
    (k := fun m s => .done ((s.withMem (s.mem.withQb m)).withDct
      { s.dct with qbWr := markWritten s.dct.qbWr idx }))
    (fun s => by unfold loadCoeff; cases spaceStore 64 s.mem.qb idx val <;> rfl) (fun _ _ => rfl)
    (fun _ => torn_done (fun _ => rfl) (fun _ _ => rfl))

theorem buildQuant_torn (q : Nat) : Torn (buildQuant q) := torn_done (fun _ => rfl) (fun _ _ => rfl)

/-- The table is one opaque value here: its 1024 entries need no evaluation. -/
theorem buildHuff_torn : Torn buildHuff := by
  unfold buildHuff
  generalize spaceFill 1024 _ = m
  exact torn_done (fun _ => rfl) (fun _ _ => rfl)

theorem fwdDct_torn : Torn fwdDct :=
  Torn.withValues (torn_done (fun _ => rfl) (fun _ _ => rfl)) (fun _ _ => rfl)

theorem quantise_torn (cls : Cls) : Torn (quantise cls) :=
  Torn.withValues (torn_done (fun _ => rfl) (fun _ _ => rfl)) (fun _ _ => rfl)

theorem jbpDrain_torn (k : Nat) : Torn (jbpDrain k) := by
  induction k with
  | zero => exact torn_done (fun _ => rfl) (fun _ _ => rfl)
  | succ k ih =>
    have hbyte : Torn (fun s => sinkWrites
        (stuffed (BitVec.ofNat 8 (s.jbp.acc.toNat / 2 ^ (s.jbp.cnt.toNat - 8)))) s) :=
      torn_operand sinkWrites_torn (fun _ _ => rfl)
    exact hbyte.andThen (ih.after (f := fun t => t.withJbp (dropOldest t.jbp)) (fun _ => rfl) (fun _ _ => rfl))

theorem jbpWrite_torn (code n : Nat) : Torn (jbpWrite code n) :=
  (torn_operand (f := fun s => s.jbp.cnt.toNat / 8) jbpDrain_torn (fun _ _ => rfl)).after
    (f := fun s => s.withJbp (loadJbp s.jbp code n)) (fun _ => rfl) (fun _ _ => rfl)

theorem jbpFlush_torn : Torn jbpFlush := by
  have hbyte : Torn (fun s => sinkWrite (BitVec.ofNat 8 (s.jbp.acc.toNat * 2 ^ (8 - s.jbp.cnt.toNat))) s) :=
    torn_operand sinkWrite_torn (fun _ _ => rfl)
  exact Torn.ite (p := fun s => s.jbp.cnt = 0) (j := .done) (torn_done (fun _ => rfl) (fun _ _ => rfl))
    (hbyte.andThen (torn_done (f := (·.withJbp { acc := 0, cnt := 0 })) (fun _ => rfl) (fun _ _ => rfl)))
    (fun _ _ => Iff.rfl)

theorem emitSym_torn (t sym : Nat) : Torn (emitSym t sym) :=
  torn_elim (o := fun s => spaceRead s.mem.huft (256 * t + sym))
    (fun s => by unfold emitSym; cases spaceRead s.mem.huft (256 * t + sym) <;> rfl) (fun _ _ => rfl)
    (fun code => jbpWrite_torn code.code.toNat code.len.toNat)

theorem emitZrl_torn (acT k : Nat) : Torn (emitZrl acT k) := by
  induction k with
  | zero => exact torn_done (fun _ => rfl) (fun _ _ => rfl)
  | succ k ih => exact (emitSym_torn acT zrl).andThen ih

theorem emitCoeff_torn (acT r : Nat) (v : Int) : Torn (emitCoeff acT r v) :=
  (emitZrl_torn acT _).andThen ((emitSym_torn acT _).andThen (jbpWrite_torn _ _))

theorem scanAc_torn (acT : Nat) (vs : List Int) (r : Nat) : Torn (scanAc acT vs r) := by
  induction vs generalizing r with
  | nil =>
    exact (emitSym_torn acT eob).ite (p := fun _ => 0 < r) (k := .done) (torn_done (fun _ => rfl) (fun _ _ => rfl))
      (fun _ _ => Iff.rfl)
  | cons v rest ih =>
    exact (ih (r + 1)).ite (p := fun _ => v = 0) ((emitCoeff_torn acT r v).andThen (ih 0)) (fun _ _ => Iff.rfl)

theorem emitDc_torn (dcT : Nat) (diff : Int) : Torn (emitDc dcT diff) :=
  (emitSym_torn dcT _).andThen
    ((jbpWrite_torn _ _).ite (p := fun _ => 0 < cat diff) (k := .done) (torn_done (fun _ => rfl) (fun _ _ => rfl))
      (fun _ _ => Iff.rfl))

/-- The block's values and the new predictor come from QB and PRED, which the sink does not touch. -/
theorem emitBlock_torn (comp : Nat) (cls : Cls) : Torn (emitBlock comp cls) := by
  refine torn_of_sameAt fun s t _ => ⟨fun u => (emitDc (dcTable cls) (dcDiff comp s) u).andThen fun u =>
    (scanAc (acTable cls) (acValues s.mem) 0 u).andThen fun u =>
      .done (u.withHuf (setPred u.huf comp ((spaceRead s.mem.qb 0).getD 0))), ?_, fun rs => rfl⟩
  exact (emitDc_torn _ _).andThen ((scanAc_torn _ _ 0).andThen (torn_done (fun _ => rfl) (fun _ _ => rfl)))

/-! The commands. -/

/-- Every command's procedure is torn by the sink at the byte that is not taken, and by nothing else of it. -/
theorem exec_torn (i : Instr) : ∃ k, RunsAs i k ∧ Torn k := by
  cases i with
  | ctlReset =>
    exact ⟨fun s => .done (resetElements s), fun _ => rfl, torn_done (fun _ => rfl) (fun _ _ => rfl)⟩
  | bpWrite code n =>
    exact ⟨_, fun _ => rfl, .require (.require (bpWrite_torn _ n) fun _ _ => rfl) fun _ _ => rfl⟩
  | bpFlush => exact ⟨_, fun _ => rfl, bpFlush_torn.require fun _ _ => rfl⟩
  | pkWrite byte => exact ⟨_, fun _ => rfl, (pkWrite_torn byte).require fun _ _ => rfl⟩
  | pkFlush => exact ⟨_, fun _ => rfl, pkFlush_torn.require fun _ _ => rfl⟩
  | lzwStart b =>
    exact ⟨_, fun _ => rfl, .require (.require (openStream_torn b) fun _ _ => rfl) fun _ _ => rfl⟩
  | lzwSym byte =>
    exact ⟨_, fun _ => rfl, .require (.require (takeSymbol_torn byte) fun _ _ => rfl) fun _ _ => rfl⟩
  | lzwEnd =>
    exact ⟨_, fun _ => rfl, .require (.require closeStream_torn fun _ _ => rfl) fun _ _ => rfl⟩
  | qtBuild q => exact ⟨_, fun _ => rfl, (buildQuant_torn q).require fun _ _ => rfl⟩
  | dctFwd => exact ⟨_, fun _ => rfl, fwdDct_torn.require fun _ _ => rfl⟩
  | dctQuant cls =>
    exact ⟨_, fun _ => rfl, .require (.require (quantise_torn cls) fun _ _ => rfl) fun _ _ => rfl⟩
  | hufBuild => exact ⟨_, fun _ => rfl, buildHuff_torn⟩
  | hufStart =>
    exact ⟨fun s => .done ((s.withHuf { s.huf with pred0 := 0, pred1 := 0, pred2 := 0 }).withJbp
      { acc := 0, cnt := 0 }), fun _ => rfl, torn_done (fun _ => rfl) (fun _ _ => rfl)⟩
  | hufBlock comp cls =>
    exact ⟨_, fun _ => rfl, .require (.require (.require (.withValues (.require (emitBlock_torn comp cls)
      fun _ _ => rfl) fun _ _ => rfl) fun _ _ => rfl) fun _ _ => rfl) fun _ _ => rfl⟩
  | jbpWrite code n => exact ⟨_, fun _ => rfl, (jbpWrite_torn _ n).require fun _ _ => rfl⟩
  | jbpFlush => exact ⟨_, fun _ => rfl, jbpFlush_torn⟩
  | bufLds idx val => exact ⟨_, fun _ => rfl, loadSample_torn idx val⟩
  | bufLdq idx val => exact ⟨_, fun _ => rfl, loadCoeff_torn idx val⟩

/-- Settles O16: the bytes of the run that the sink accepted are those the command writes, and the same run is torn at
byte `k` of them. -/
theorem sinkRefusalTearsOutput : Obligations.SinkRefusalTearsOutput := by
  intro i s t bs _ _ h ht hbs n rest hn
  obtain ⟨k, hk, htorn⟩ := exec_torn i
  obtain ⟨cs, hw⟩ := htorn s t (hk.eq_done h ht)
  obtain rfl : cs = bs := List.append_cancel_left (hw.out.symm.trans hbs)
  constructor
  · obtain ⟨u, hu, hout, hsink⟩ := hw.torn n .refuse rest hn
    exact ⟨trapEntry .sinkError (encode i) u, by rw [hk, hu]; rfl, rfl, hout, hsink⟩
  · have hstop : k _ = .stopped .sinkNeverReady := hw.torn n .never rest hn
    rw [hk, hstop]
    rfl

end Sys2Proof.Machine
end

section
/-! PROOFS. No stop of the machine's own (20_memory.md R61, R69, R81; 41_lzw.md R165; 60_exceptions.md R308). From a good
state every procedure ends when the sink accepts (`Completes`), and what it does not end for then is the sink alone
(`Torn`). -/

namespace Sys2Proof.Machine

/-- If what was begun in `s` stops, then at a byte for which the sink is never ready (R81). -/
def HangsOnly (s : State) (r : Res) : Prop :=
  ∀ f, r = .stopped f → f = .sinkNeverReady ∧ SinkReply.never ∈ s.sink

/-- `k` ends in every state of `P`, again in a state of `P`. -/
def Completes (P : State → Prop) (k : State → Res) : Prop := ∀ s, P s → ∃ t, k s = .done t ∧ P t

theorem Completes.ends {P : State → Prop} {k : State → Res} (hk : Completes P k) {s : State} (hs : P s) :
    ∃ t, k s = .done t := by
  obtain ⟨t, ht, -⟩ := hk s hs
  exact ⟨t, ht⟩

theorem Completes.andThen {P : State → Prop} {j k : State → Res} (hj : Completes P j) (hk : Completes P k) :
    Completes P (fun s => (j s).andThen k) := by
  intro s hs
  obtain ⟨u, hu, hPu⟩ := hj s hs
  obtain ⟨t, ht, hPt⟩ := hk u hPu
  exact ⟨t, by simp only [hu, Res.andThen_done, ht], hPt⟩

/-- The first `n` answers are all accepting, or there is a first one that is not. -/
theorem firstNotAccepted (n : Nat) (rs : List SinkReply) :
    (∀ r ∈ rs.take n, r = .accept) ∨
      ∃ m a rest, m < n ∧ a ≠ .accept ∧ rs = List.replicate m .accept ++ a :: rest := by
  induction rs generalizing n with
  | nil => simp
  | cons r rs ih =>
    cases n with
    | zero => simp
    | succ n =>
      by_cases hr : r = .accept
      · rcases ih n with hall | ⟨m, a, rest, hm, ha, rfl⟩
        · exact .inl (by simpa [hr] using hall)
        · exact .inr ⟨m + 1, a, rest, by omega, ha, by rw [hr]; rfl⟩
      · exact .inr ⟨0, r, rs, by omega, hr, rfl⟩

/-- A procedure that ends with a sink accepting every byte can be stopped by the sink alone. -/
theorem Torn.hangsOnly {k : State → Res} (hk : Torn k) {s : State} (h : ∃ t, k (s.withSink []) = .done t) :
    HangsOnly s (k s) := by
  intro f hf
  obtain ⟨t, ht⟩ := h
  obtain ⟨bs, hw⟩ := hk _ t ht
  rcases firstNotAccepted bs.length s.sink with hall | ⟨m, a, rest, hm, ha, hsink⟩
  · have hdone : k s = _ := hw.taken s.sink hall
    rw [hdone] at hf
    cases hf
  · have htorn := hw.torn m a rest hm
    rw [← hsink, State.withSink_twice, State.withSink_self, hf] at htorn
    cases a with
    | accept => exact absurd rfl ha
    | refuse => obtain ⟨u, hu, -⟩ := htorn; cases hu
    | never => exact ⟨Res.stopped.inj htorn, by rw [hsink]; simp⟩

/-- A check that fails raises its fault, which is no stop. -/
theorem hangsOnly_require {p : Bool} {c : Cause} {k : State → Res} {s : State} (h : p = true → HangsOnly s (k s)) :
    HangsOnly s (require p c k s) := by
  cases p with
  | true => exact h rfl
  | false => exact fun f hf => nomatch hf

/-- Elements that all hold values are read without a stop (R308). -/
theorem hangsOnly_withValues {p : Bool} {k : State → Res} {s : State} (hp : p = true) (h : HangsOnly s (k s)) :
    HangsOnly s (withValues p k s) := by
  subst hp
  exact h

theorem hangsOnly_of_ends {s : State} {r : Res} (h : ∃ t, r = .done t) : HangsOnly s r := by
  obtain ⟨t, rfl⟩ := h
  exact fun f hf => nomatch hf

/-! One byte to a sink that accepts it. -/

theorem sinkWrite_accepts {s : State} (ha : SinkAccepts s) (b : Byte) :
    sinkWrite b s = .done ((s.withOut (s.out ++ [b])).withSink s.sink.tail) := by
  rcases sinkWrite_cases b s with ⟨h, -⟩ | ⟨-, hhead⟩ | ⟨-, hhead⟩
  · exact h
  · exact nomatch ha _ (List.mem_of_mem_head? hhead)
  · exact nomatch ha _ (List.mem_of_mem_head? hhead)

theorem sinkAccepts_tail {s : State} (ha : SinkAccepts s) (o : List Byte) :
    SinkAccepts ((s.withOut o).withSink s.sink.tail) := fun r hr => ha r (List.mem_of_mem_tail hr)

end Sys2Proof.Machine
end

section
/-! PROOFS. No stop of the machine's own, in the GIF pipeline: no index leaves PKBUF, every buffered byte holds a value,
every probe ends (10_state.md R30; 20_memory.md R61, R69; 41_lzw.md R165). -/

namespace Sys2Proof.Machine

/-- Good GIF packers, and a sink that accepts every byte (R29, R30). -/
structure GifReady (s : State) : Prop where
  acc : AccOk s.bp
  packet : PacketOk s
  accepts : SinkAccepts s

/-- A procedure of the packers that ends and keeps them good. -/
theorem GifReady.packed {s t : State} (hs : GifReady s) (hp : PacksWell s t) (ha : SinkAccepts t) : GifReady t :=
  ⟨hp.acc hs.acc, hp.packet hs.packet, ha⟩

theorem pkFlush_completes : Completes GifReady pkFlush := fun s hs => by
  obtain ⟨t, ht, ha, -⟩ := pkFlush_accepts hs.packet hs.accepts
  exact ⟨t, ht, hs.packed (pkFlush_packsWell ht) ha⟩

theorem pkWrite_completes (b : Byte) : Completes GifReady (pkWrite b) := fun s hs => by
  obtain ⟨t, ht, ha, -⟩ := pkWrite_accepts b hs.packet hs.accepts
  exact ⟨t, ht, hs.packed (pkWrite_packsWell ht) ha⟩

theorem bpWrite_completes (code : Nat) {n : Nat} (hn : n ≤ 16) : Completes GifReady (bpWrite code n) := fun s hs => by
  obtain ⟨t, ht, -, ha, hacc, hpacket, -⟩ := bpWrite_accepts code hn hs.acc hs.packet hs.accepts
  exact ⟨t, ht, hacc, hpacket, ha⟩

theorem bpFlush_completes : Completes GifReady bpFlush := fun s hs => by
  obtain ⟨t, ht, -, ha, -⟩ := bpFlush_accepts hs.acc hs.packet hs.accepts
  exact ⟨t, ht, hs.packed (bpFlush_packsWell ht) ha⟩

/-- The width of a code is a 4-bit register, so it is at most 16 in every state (R25). -/
theorem emitCode_completes (c : LzwRegs → Nat) : Completes GifReady (fun s => emitCode (c s.lzw) s) := fun s hs => by
  have hn : s.lzw.nBits.toNat ≤ 16 := by have := s.lzw.nBits.isLt; omega
  obtain ⟨u, hu, ⟨hacc, hpacket, ha⟩⟩ := bpWrite_completes (c s.lzw) hn s hs
  exact ⟨u.withLzw { u.lzw with nBits := nextWidth (c s.lzw) u.lzw },
    by simp only [emitCode, hu, Res.andThen_done], hacc, hpacket, ha⟩

theorem resetDictionary_completes : Completes GifReady resetDictionary := fun s ⟨hacc, hpacket, ha⟩ =>
  emitCode_completes clearCode
    ((s.withMem (s.mem.withHtab [])).withLzw { s.lzw with freeEnt := BitVec.ofNat 13 (firstCode s.lzw) })
    ⟨hacc, hpacket, ha⟩

theorem openStream_completes (b : Nat) : Completes GifReady (openStream b) := fun s hs =>
  emitCode_completes clearCode ((((s.withLzw _).withMem (s.mem.withHtab [])).withBp { acc := 0, cnt := 0 }).withPkCnt 0)
    ⟨accOk_zero, packetOk_of_zero rfl, hs.accepts⟩

theorem startNewMatch_completes (c : Byte) {i : Nat} (hi : i < 5003) : Completes GifReady (startNewMatch c i) := by
  refine (emitCode_completes (·.prefixCode.toNat)).andThen (Completes.andThen (fun t ht => ?_)
    (fun u ⟨hacc, hpacket, ha⟩ => ⟨_, rfl, hacc, hpacket, ha⟩))
  split
  · obtain ⟨hacc, hpacket, ha⟩ := ht
    exact ⟨_, insertPair_of_lt hi _ t, hacc, hpacket, ha⟩
  · exact resetDictionary_completes t ht

/-! The probe ends (R165): it comes by all 5003 slots before it repeats one, and the table is never full. -/

/-- The slot that a probe from slot `i` looks at in round `n`. -/
def probeSlot (i disp n : Nat) : Nat := (i + n * (hashSize - disp)) % hashSize

theorem probeSlot_succ {i disp : Nat} (hi : i < hashSize) (hd : disp ≤ hashSize) (n : Nat) :
    probeSlot (nextSlot i disp) disp n = probeSlot i disp (n + 1) := by
  have hnext : nextSlot i disp % hashSize = (i + (hashSize - disp)) % hashSize := by
    unfold nextSlot hashSize at *
    split <;> omega
  unfold probeSlot
  rw [Nat.add_mod, hnext, ← Nat.add_mod, Nat.succ_mul]
  congr 1
  omega

/-- A probe without an end has found a value in every slot it came by. -/
theorem slotsFull_of_unending {htab : Space HSlot} {key disp : Nat} (hd : 1 ≤ disp) (hd' : disp ≤ 5003) {fuel i : Nat}
    (hi : i < 5003) (h : probeFrom htab key disp fuel i = .unending) :
    ∀ n, n < fuel → (spaceRead htab (probeSlot i disp n)).isSome = true := by
  induction fuel generalizing i with
  | zero => intro n hn; omega
  | succ fuel ih =>
    intro n hn
    unfold probeFrom at h
    cases hr : spaceRead htab i with
    | none => rw [hr] at h; cases h
    | some slot =>
      rw [hr] at h
      simp only at h
      split at h
      · cases h
      · cases n with
        | zero =>
          have hself : probeSlot i disp 0 = i := by
            rw [probeSlot, Nat.zero_mul, Nat.add_zero]
            exact Nat.mod_eq_of_lt hi
          rw [hself, hr]
          rfl
        | succ n =>
          rw [← probeSlot_succ hi hd']
          exact ih (nextSlot_lt hi hd hd') h n (by omega)

/-- The table size is prime, so no slot comes twice in 5003 rounds (R165). -/
theorem probeSlot_injOn {i disp : Nat} (hd : 1 ≤ disp) (hd' : disp < 5003) :
    Set.InjOn (probeSlot i disp) (Finset.range hashSize) := by
  intro m hm n hn h
  have hm' : m < hashSize := Finset.mem_range.mp hm
  have hn' : n < hashSize := Finset.mem_range.mp hn
  have hprime : Nat.Prime hashSize := by unfold hashSize; norm_num
  have hcop : Nat.Coprime hashSize (hashSize - disp) :=
    Nat.coprime_of_lt_prime (by unfold hashSize; omega) (by unfold hashSize; omega) hprime
  have hmul : m * (hashSize - disp) ≡ n * (hashSize - disp) [MOD hashSize] := Nat.ModEq.add_left_cancel' i h
  have hmod : m ≡ n [MOD hashSize] := hmul.cancel_right_of_coprime hcop
  exact hmod.eq_of_lt_of_lt hm' hn'

/-- A table that holds fewer elements than it has slots ends every probe (R165). -/
theorem probe_ne_unending {htab : Space HSlot} (hlen : htab.length < 5003) (c : Byte) (p : BitVec 12) :
    probe htab c p ≠ .unending := by
  intro h
  have hslot := primaryHash_lt c p
  have hdisp : 1 ≤ displacement (primaryHash c p) ∧ displacement (primaryHash c p) < 5003 := by
    unfold displacement hashSize
    split <;> omega
  have hfull := slotsFull_of_unending hdisp.1 (Nat.le_of_lt hdisp.2) (by omega) h
  have hsub : (Finset.range hashSize).image (probeSlot (primaryHash c p) (displacement (primaryHash c p))) ⊆
      (htab.map Prod.fst).toFinset := by
    intro j hj
    obtain ⟨n, hn, rfl⟩ := Finset.mem_image.mp hj
    obtain ⟨slot, hread⟩ := Option.isSome_iff_exists.mp (hfull n (Finset.mem_range.mp hn))
    exact List.mem_toFinset.mpr (List.mem_map.mpr ⟨_, mem_of_spaceRead hread, rfl⟩)
  have hcard := Finset.card_le_card hsub
  rw [Finset.card_image_of_injOn (probeSlot_injOn hdisp.1 hdisp.2), Finset.card_range] at hcard
  have hlist := List.toFinset_card_le (htab.map Prod.fst)
  rw [List.length_map] at hlist
  have : hashSize = 5003 := rfl
  omega

/-! The compressor's own commands. -/

/-- LZW.SYM ends where the table has an empty slot (R165). -/
theorem takeSymbol_ends (c : Byte) {s : State} (hlen : s.mem.htab.length < 5003) (hs : GifReady s) :
    ∃ t, takeSymbol c s = .done t := by
  unfold takeSymbol
  split
  · cases hp : probe s.mem.htab c s.lzw.prefixCode with
    | unending => exact absurd hp (probe_ne_unending hlen c _)
    | found i code => exact ⟨_, rfl⟩
    | vacant i =>
      obtain ⟨hi, -⟩ := (probe_spec s.mem.htab c s.lzw.prefixCode).2 i hp
      exact (startNewMatch_completes c hi).ends hs
  · exact ⟨_, rfl⟩

theorem closeStream_completes : Completes GifReady closeStream := by
  have hterminator : Completes GifReady (sinkWrite 0) := fun s hs =>
    ⟨_, sinkWrite_accepts hs.accepts 0, hs.acc, hs.packet, sinkAccepts_tail hs.accepts _⟩
  exact (emitCode_completes (·.prefixCode.toNat)).andThen ((emitCode_completes eofCode).andThen
    (bpFlush_completes.andThen (hterminator.andThen
      (fun u ⟨hacc, hpacket, ha⟩ => ⟨_, rfl, hacc, hpacket, ha⟩))))

end Sys2Proof.Machine
end

section
/-! PROOFS. No stop of the machine's own, in the JPEG pipeline: the guard flags promise a value to every read
(20_memory.md R61; 60_exceptions.md R308). -/

namespace Sys2Proof.Machine

/-! The buffers and tables. -/

theorem loadSample_ends {idx : Nat} (hi : idx < 64) (val : Byte) (s : State) : ∃ t, loadSample idx val s = .done t := by
  unfold loadSample
  rw [spaceStore_of_lt s.mem.sb val hi]
  exact ⟨_, rfl⟩

theorem loadCoeff_ends {idx : Nat} (hi : idx < 64) (val : BitVec 16) (s : State) :
    ∃ t, loadCoeff idx val s = .done t := by
  unfold loadCoeff
  rw [spaceStore_of_lt s.mem.qb val hi]
  exact ⟨_, rfl⟩

theorem buildQuant_ends (q : Nat) (s : State) : ∃ t, buildQuant q s = .done t := by
  unfold buildQuant
  exact ⟨_, rfl⟩

theorem buildHuff_ends (s : State) : ∃ t, buildHuff s = .done t := by
  unfold buildHuff
  exact ⟨_, rfl⟩

theorem fwdDct_ends {s : State} (h : spaceFull 64 s.mem.sb = true) : ∃ t, fwdDct s = .done t := by
  rw [fwdDct, withValues_true h]
  exact ⟨_, rfl⟩

theorem quantise_ends (cls : Cls) {s : State} (hcb : spaceFull 64 s.mem.cb = true)
    (hdivt : spaceFull 128 s.mem.divt = true) : ∃ t, quantise cls s = .done t := by
  rw [quantise, withValues_true (by rw [hcb, hdivt]; rfl)]
  exact ⟨_, rfl⟩

/-! The bit-packer and the encoder. -/

/-- The code tables are `huft`, and the sink accepts every byte (R33). -/
structure JpegReady (huft : Space HCode) (s : State) : Prop where
  tables : s.mem.huft = huft
  accepts : SinkAccepts s

section
variable {huft : Space HCode}

theorem jbpDrain_completes (k : Nat) : Completes (JpegReady huft) (jbpDrain k) := by
  induction k with
  | zero => exact fun s hs => ⟨s, rfl, hs⟩
  | succ k ih =>
    refine Completes.andThen (k := fun t => jbpDrain k (t.withJbp (dropOldest t.jbp))) (fun s hs => ?_)
      (fun t ht => ih (t.withJbp _) ⟨ht.tables, ht.accepts⟩)
    exact ⟨_, sinkWrites_accepts hs.accepts _, hs.tables, sinkAccepts_drop hs.accepts _ _⟩

theorem jbpWrite_completes (code n : Nat) : Completes (JpegReady huft) (jbpWrite code n) := fun s hs =>
  jbpDrain_completes _ (s.withJbp (loadJbp s.jbp code n)) ⟨hs.tables, hs.accepts⟩

theorem jbpFlush_ends {s : State} (ha : SinkAccepts s) : ∃ t, jbpFlush s = .done t := by
  unfold jbpFlush
  split
  · exact ⟨s, rfl⟩
  · rw [sinkWrite_accepts ha]
    exact ⟨_, rfl⟩

variable (hcodes : ∀ k, k < 1024 → (spaceRead huft k).isSome = true)
include hcodes

/-- A symbol of the four tables is written when every element of HUFT holds a value (R256). -/
theorem emitSym_completes {t sym : Nat} (h : 256 * t + sym < 1024) :
    Completes (JpegReady huft) (emitSym t sym) := by
  intro s hs
  obtain ⟨code, hcode⟩ := Option.isSome_iff_exists.mp (hcodes _ h)
  unfold emitSym
  rw [hs.tables, hcode]
  exact jbpWrite_completes _ _ s hs

theorem emitZrl_completes {acT : Nat} (ht : acT < 4) (k : Nat) : Completes (JpegReady huft) (emitZrl acT k) := by
  induction k with
  | zero => exact fun s hs => ⟨s, rfl, hs⟩
  | succ k ih => exact (emitSym_completes hcodes (by unfold zrl; omega)).andThen ih

theorem emitCoeff_completes {acT : Nat} (ht : acT < 4) (r : Nat) {v : Int} (hv : cat v ≤ 10) :
    Completes (JpegReady huft) (emitCoeff acT r v) :=
  (emitZrl_completes hcodes ht _).andThen ((emitSym_completes hcodes (by omega)).andThen (jbpWrite_completes _ _))

theorem scanAc_completes {acT : Nat} (ht : acT < 4) {vs : List Int} (hvs : ∀ v ∈ vs, cat v ≤ 10) (r : Nat) :
    Completes (JpegReady huft) (scanAc acT vs r) := by
  induction vs generalizing r with
  | nil =>
    intro s hs
    unfold scanAc
    split
    · exact emitSym_completes hcodes (by unfold eob; omega) s hs
    · exact ⟨s, rfl, hs⟩
  | cons v rest ih =>
    obtain ⟨hv, hrest⟩ := List.forall_mem_cons.mp hvs
    intro s hs
    unfold scanAc
    split
    · exact ih hrest (r + 1) s hs
    · exact (emitCoeff_completes hcodes ht r hv).andThen (ih hrest 0) s hs

theorem emitDc_completes {dcT : Nat} (ht : dcT < 4) {diff : Int} (hd : cat diff ≤ 11) :
    Completes (JpegReady huft) (emitDc dcT diff) := by
  refine (emitSym_completes hcodes (by omega)).andThen fun s hs => ?_
  split
  · exact jbpWrite_completes _ _ s hs
  · exact ⟨s, rfl, hs⟩

end

/-- A block in range has a symbol for each of its values (R257, R309). -/
theorem emitBlock_ends {comp : Nat} (cls : Cls) {s : State} (hr : blockInRange comp s = true)
    (hcodes : ∀ k, k < 1024 → (spaceRead s.mem.huft k).isSome = true) (ha : SinkAccepts s) :
    ∃ t, emitBlock comp cls s = .done t := by
  simp only [blockInRange, Bool.and_eq_true, decide_eq_true_eq, List.all_eq_true] at hr
  have hcls := Laws.EncodeFields.cls_lt cls
  have hdc := emitDc_completes hcodes (dcT := dcTable cls) (by unfold dcTable; omega) hr.1
  have hac := scanAc_completes hcodes (acT := acTable cls) (by unfold acTable; omega) hr.2 0
  obtain ⟨u, hu, hready⟩ := hdc s ⟨rfl, ha⟩
  obtain ⟨v, hv, -⟩ := hac u hready
  rw [emitBlock, hu, Res.andThen_done, hv]
  exact ⟨_, rfl⟩

end Sys2Proof.Machine
end

section
/-! PROOFS. No stop of the machine's own, at a whole step (20_memory.md R61, R81; 60_exceptions.md R308;
70_reset_and_hazards.md R340). -/

namespace Sys2Proof.Machine

/-! The commands. -/

/-- A field holds what its bits can (R12). -/
theorem field_lt (w : Word) (hi lo : Nat) : field w hi lo < 2 ^ (hi + 1 - lo) := Nat.mod_lt _ (by positivity)

theorem whenZero_wellFormed {w : Word} {lo : Nat} {i j : Instr} (h : whenZero w lo j = .ok i)
    (hj : j.wellFormed = true) : i.wellFormed = true := by
  unfold whenZero at h
  split at h
  · cases h; exact hj
  · cases h

/-- The operands of a decoded command fit the fields they came from (30_encoding.md R93 to R97). -/
theorem decode_wellFormed {w : Word} {i : Instr} (h : decode w = .ok i) : i.wellFormed = true := by
  unfold decode at h
  split at h
  -- the rows of R99 with a numeric operand: BP.WRITE and JBP.WRITE, LZW.START and QT.BUILD, HUF.BLOCK, BUF.LDS, BUF.LDQ
  case h_2 | h_15 => exact whenZero_wellFormed h (decide_eq_true (field_lt w 20 16))
  case h_6 | h_9 => exact whenZero_wellFormed h (decide_eq_true (field_lt w 7 0))
  case h_14 => exact whenZero_wellFormed h (decide_eq_true (field_lt w 2 1))
  case h_17 => exact whenZero_wellFormed h (decide_eq_true (field_lt w 13 8))
  case h_18 => exact whenZero_wellFormed h (decide_eq_true (field_lt w 21 16))
  case h_19 => cases h
  all_goals exact whenZero_wellFormed h rfl

/-- A written-mask of ones promises a value at every index (R32, R308). -/
theorem spaceFull_of_allOnes {α : Type} {m : Space α} {mask : BitVec 64} (hmask : allOnes mask = true)
    (h : ∀ i, i < 64 → mask.getLsbD i = true → (spaceRead m i).isSome = true) : spaceFull 64 m = true := by
  rw [allOnes_iff] at hmask
  refine (spaceFull_iff 64 m).mpr fun i hi => h i hi ?_
  rw [hmask, BitVec.getLsbD_allOnes]
  exact decide_eq_true hi

/-- From a good state a command is stopped by the sink alone. -/
theorem exec_hangsOnly {i : Instr} {s : State} (hi : i.wellFormed = true) (hs : CoreOk s) (hh : Healthy s) :
    ∃ k, RunsAs i k ∧ HangsOnly s (k s) := by
  obtain ⟨-, -, hgood⟩ := hs
  obtain ⟨⟨hbp, -, hpacket⟩, ⟨hsb, hqb, hcb⟩, hquant, hhuff, -, hlzw, -⟩ := hgood hh
  have hsink : SinkAccepts (s.withSink []) := fun r hr => nomatch hr
  have hgif : GifReady (s.withSink []) := ⟨hbp, hpacket, hsink⟩
  cases i with
  | ctlReset => exact ⟨fun s => .done (resetElements s), fun _ => rfl, hangsOnly_of_ends ⟨_, rfl⟩⟩
  | bpWrite code n =>
    refine ⟨_, fun _ => rfl, hangsOnly_require fun _ => hangsOnly_require fun hn => ?_⟩
    exact (bpWrite_torn _ n).hangsOnly ((bpWrite_completes _ (of_decide_eq_true hn).2).ends hgif)
  | bpFlush =>
    exact ⟨_, fun _ => rfl, hangsOnly_require fun _ => bpFlush_torn.hangsOnly (bpFlush_completes.ends hgif)⟩
  | pkWrite byte =>
    refine ⟨_, fun _ => rfl, hangsOnly_require fun _ => ?_⟩
    exact (pkWrite_torn byte).hangsOnly ((pkWrite_completes byte).ends hgif)
  | pkFlush =>
    exact ⟨_, fun _ => rfl, hangsOnly_require fun _ => pkFlush_torn.hangsOnly (pkFlush_completes.ends hgif)⟩
  | lzwStart b =>
    refine ⟨_, fun _ => rfl, hangsOnly_require fun _ => hangsOnly_require fun _ => ?_⟩
    exact (openStream_torn b).hangsOnly ((openStream_completes b).ends hgif)
  | lzwSym byte =>
    refine ⟨_, fun _ => rfl, hangsOnly_require fun ha => hangsOnly_require fun _ => ?_⟩
    obtain ⟨-, -, ⟨-, hfree⟩, -, hlen, -⟩ := hlzw ha
    exact (takeSymbol_torn byte).hangsOnly (takeSymbol_ends byte (by rw [State.withSink_mem]; omega) hgif)
  | lzwEnd =>
    refine ⟨_, fun _ => rfl, hangsOnly_require fun _ => hangsOnly_require fun _ => ?_⟩
    exact closeStream_torn.hangsOnly (closeStream_completes.ends hgif)
  | qtBuild q => exact ⟨_, fun _ => rfl, hangsOnly_require fun _ => hangsOnly_of_ends (buildQuant_ends q s)⟩
  | dctFwd =>
    refine ⟨_, fun _ => rfl, hangsOnly_require fun hw => ?_⟩
    exact hangsOnly_of_ends (fwdDct_ends (spaceFull_of_allOnes hw hsb))
  | dctQuant cls =>
    refine ⟨_, fun _ => rfl, hangsOnly_require fun hc => hangsOnly_require fun hq => ?_⟩
    obtain ⟨-, -, htables⟩ := hquant hq
    have hdivt : spaceFull 128 s.mem.divt = true :=
      (spaceFull_iff 128 _).mpr fun k hk => by rw [(htables k hk).2]; rfl
    exact hangsOnly_of_ends (quantise_ends cls (hcb hc) hdivt)
  | hufBuild => exact ⟨buildHuff, fun _ => rfl, hangsOnly_of_ends (buildHuff_ends s)⟩
  | hufStart =>
    exact ⟨fun s => .done ((s.withHuf { s.huf with pred0 := 0, pred1 := 0, pred2 := 0 }).withJbp
      { acc := 0, cnt := 0 }), fun _ => rfl, hangsOnly_of_ends ⟨_, rfl⟩⟩
  | hufBlock comp cls =>
    refine ⟨_, fun _ => rfl, hangsOnly_require fun _ => hangsOnly_require fun hv => hangsOnly_require fun hw => ?_⟩
    refine hangsOnly_withValues (spaceFull_of_allOnes hw hqb) (hangsOnly_require fun hr => ?_)
    have hcodes : ∀ k, k < 1024 → (spaceRead s.mem.huft k).isSome = true :=
      fun k hk => by rw [hhuff hv k hk]; rfl
    exact (emitBlock_torn comp cls).hangsOnly (emitBlock_ends cls (s := s.withSink []) hr hcodes hsink)
  | jbpWrite code n =>
    refine ⟨_, fun _ => rfl, hangsOnly_require fun _ => ?_⟩
    exact (jbpWrite_torn _ n).hangsOnly ((jbpWrite_completes _ n).ends (P := JpegReady s.mem.huft) ⟨rfl, hsink⟩)
  | jbpFlush => exact ⟨_, fun _ => rfl, jbpFlush_torn.hangsOnly (jbpFlush_ends hsink)⟩
  | bufLds idx val => exact ⟨_, fun _ => rfl, hangsOnly_of_ends (loadSample_ends (of_decide_eq_true hi) val s)⟩
  | bufLdq idx val => exact ⟨_, fun _ => rfl, hangsOnly_of_ends (loadCoeff_ends (of_decide_eq_true hi) val s)⟩

/-- From a good state one command word answers a next state, or its command waits for a sink that is never ready. -/
theorem runCommand_answers (w : Word) {s : State} (hs : CoreOk s) :
    (∃ t, runCommand w s = .next t) ∨ (runCommand w s = .fault .sinkNeverReady ∧ SinkReply.never ∈ s.sink) := by
  rcases runCommand_cases w s with ⟨-, hr⟩ | ⟨hd, i, hw, hr⟩ | ⟨-, -, hr⟩
  · exact .inl ⟨_, hr⟩
  · by_cases hi : i = .ctlReset
    · subst hi; exact .inl ⟨_, hr⟩
    obtain ⟨k, hk, hhangs⟩ := exec_hangsOnly (decode_wellFormed hw) hs (healthy_of_not_discards hd hw hi)
    rw [hr, hk]
    cases hres : k s with
    | done t => exact .inl ⟨t, rfl⟩
    | raised c t => exact .inl ⟨_, rfl⟩
    | stopped f =>
      obtain ⟨rfl, hnever⟩ := hhangs f hres
      exact .inr ⟨rfl, hnever⟩
  · exact .inl ⟨_, hr⟩

/-- Settles O28: what is left is a command that waits for the sink, and a pulse of the reset pin ends that. -/
theorem noInternalStop : Obligations.NoInternalStop := by
  intro s hs hpremise
  unfold step runEvent
  cases he : s.events with
  | nil => exact ⟨s, rfl⟩
  | cons e rest =>
    have hrest : CoreOk (s.withEvents rest) := hs
    cases e with
    | resetPin => exact ⟨_, rfl⟩
    | command w =>
      simp only [takeCommand]
      rcases runCommand_answers w hrest with ⟨t, hr⟩ | ⟨hr, hnever⟩
      · exact ⟨t, by rw [hr]⟩
      · have hpin : HostEvent.resetPin ∈ rest := by
          rcases hpremise with hready | hpin | ⟨v, es, hduring⟩
          · exact absurd hnever hready
          · simpa [he] using hpin
          · rw [he] at hduring; cases hduring
        exact ⟨_, by rw [hr]; exact if_pos hpin⟩
    | resetDuring w =>
      simp only [takeAbandoned]
      rcases runCommand_answers w hrest with ⟨t, hr⟩ | ⟨hr, -⟩
      · exact ⟨_, by rw [hr]⟩
      · exact ⟨_, by rw [hr]⟩

end Sys2Proof.Machine
end

section
/-! PROOFS. Encoding (30_encoding.md R91 to R100). A word is its unit, its operation and its operand bits, and the
operand bits are packed fields with zeros above them: the encoder puts the fields together, the decoder takes them
apart. The printed opcode map (R99) and the illegal words (R100) follow from the two round trips. -/

namespace Sys2Proof.Machine

open Sys2Proof.Laws.EncodeFields (unitOf opOf operandsOf cls_lt)

/-! The fields of a word. -/

/-- A field is its bits above `mid` and its bits from `mid` down. -/
theorem field_split (w : Word) {hi mid lo : Nat} (hmid : mid ≤ hi) (hlo : lo ≤ mid) :
    field w hi lo = field w hi (mid + 1) * 2 ^ (mid + 1 - lo) + field w mid lo := by
  have hwidth : 2 ^ (hi + 1 - lo) = 2 ^ (mid + 1 - lo) * 2 ^ (hi + 1 - (mid + 1)) := by rw [← pow_add]; congr 1; omega
  have hshift : 2 ^ (mid + 1) = 2 ^ lo * 2 ^ (mid + 1 - lo) := by rw [← pow_add]; congr 1; omega
  unfold field
  rw [hwidth, Nat.mod_mul, hshift, Nat.div_div_eq_div_mul, Nat.mul_comm, Nat.add_comm]

/-- Two numbers packed into a field are its two parts. -/
theorem field_eq_packed_iff (w : Word) {hi mid lo a b : Nat} (hmid : mid ≤ hi) (hlo : lo ≤ mid)
    (hb : b < 2 ^ (mid + 1 - lo)) :
    field w hi lo = a * 2 ^ (mid + 1 - lo) + b ↔ field w hi (mid + 1) = a ∧ field w mid lo = b := by
  have hlow := field_lt w mid lo
  rw [field_split w hmid hlo]
  refine ⟨fun h => ?_, fun ⟨h, h'⟩ => by rw [h, h']⟩
  have hmod := congrArg (· % 2 ^ (mid + 1 - lo)) h
  simp only [Nat.mul_add_mod', Nat.mod_eq_of_lt hlow, Nat.mod_eq_of_lt hb] at hmod
  refine ⟨?_, hmod⟩
  rw [hmod] at h
  exact Nat.eq_of_mul_eq_mul_right (by positivity) (Nat.add_right_cancel h)

/-- Zeros above a number. -/
theorem field_eq_iff (w : Word) {hi mid lo b : Nat} (hmid : mid ≤ hi) (hlo : lo ≤ mid) (hb : b < 2 ^ (mid + 1 - lo)) :
    field w hi lo = b ↔ field w hi (mid + 1) = 0 ∧ field w mid lo = b := by
  rw [← field_eq_packed_iff w hmid hlo hb, Nat.zero_mul, Nat.zero_add]

/-- A word is put together from its unit, its operation and its operand bits (R91). -/
theorem assembleWord_fields (w : Word) : assembleWord (field w 31 28) (field w 27 24) (field w 23 0) = w := by
  have hw := w.isLt
  refine BitVec.eq_of_toNat_eq ?_
  simp only [assembleWord, field, BitVec.toNat_ofNat]
  omega

/-- A register of a field's width holds the field. -/
@[simp] theorem toNat_ofNat_field (w : Word) (hi : Nat) :
    (BitVec.ofNat (hi + 1) (field w hi 0)).toNat = field w hi 0 := by
  rw [BitVec.toNat_ofNat]
  exact Nat.mod_eq_of_lt (field_lt w hi 0)

@[simp] theorem toNat_clsOfNat (w : Word) : (clsOfNat (field w 0 0)).toNat = field w 0 0 := by
  have hlt := field_lt w 0 0
  unfold clsOfNat
  split <;> simp only [Cls.toNat] <;> omega

@[simp] theorem clsOfNat_toNat (c : Cls) : clsOfNat c.toNat = c := by cases c <;> rfl

/-! The formats of the operand bits (R92 to R97): `b` with zeros above it, or `a` above `b` with zeros above both. -/

theorem operand_iff (w : Word) (top b : Nat) (hb : b < 2 ^ (top + 1)) (htop : top ≤ 23) :
    field w 23 0 = b ↔ field w 23 (top + 1) = 0 ∧ field w top 0 = b := field_eq_iff w htop (Nat.zero_le _) hb

theorem operands_pair_iff (w : Word) {a b : Nat} (top mid : Nat) (ha : a < 2 ^ (top - mid)) (hb : b < 2 ^ (mid + 1))
    (hmid : mid < top) (htop : top ≤ 23) :
    field w 23 0 = a * 2 ^ (mid + 1) + b ↔
      field w 23 (top + 1) = 0 ∧ field w top (mid + 1) = a ∧ field w mid 0 = b := by
  have ha' : a < 2 ^ (top + 1 - (mid + 1)) := by rwa [Nat.add_sub_add_right]
  rw [← and_assoc, ← field_eq_iff w htop hmid ha']
  exact field_eq_packed_iff w (by omega) (Nat.zero_le _) hb

/-! The two round trips. -/

theorem whenZero_eq_ok_iff {w : Word} {lo : Nat} {i j : Instr} :
    whenZero w lo j = .ok i ↔ field w 23 lo = 0 ∧ j = i := by
  unfold whenZero
  split <;> simp [*]

/-- The word carries the unit, the operation and the operand bits of the command (R91). -/
structure Carries (i : Instr) (w : Word) : Prop where
  unit : field w 31 28 = unitOf i
  op : field w 27 24 = opOf i
  operands : field w 23 0 = operandsOf i

/-- A command has one word: the bits it fixes are all 32. -/
theorem Carries.encode_eq {i : Instr} {w : Word} (h : Carries i w) : encode i = w := by
  have hencode : encode i = assembleWord (unitOf i) (opOf i) (operandsOf i) := by cases i <;> rfl
  rw [hencode, ← h.unit, ← h.op, ← h.operands, assembleWord_fields]

/-- The per-instruction laws of the encoder, for every command. -/
theorem encodeFields (i : Instr) : Laws.EncodeFields.Statement i := by
  cases i with
  | ctlReset => exact Laws.EncodeFields.ctlReset
  | bpWrite code n => exact Laws.EncodeFields.bpWrite code n
  | bpFlush => exact Laws.EncodeFields.bpFlush
  | pkWrite byte => exact Laws.EncodeFields.pkWrite byte
  | pkFlush => exact Laws.EncodeFields.pkFlush
  | lzwStart initBits => exact Laws.EncodeFields.lzwStart initBits
  | lzwSym byte => exact Laws.EncodeFields.lzwSym byte
  | lzwEnd => exact Laws.EncodeFields.lzwEnd
  | qtBuild quality => exact Laws.EncodeFields.qtBuild quality
  | dctFwd => exact Laws.EncodeFields.dctFwd
  | dctQuant cls => exact Laws.EncodeFields.dctQuant cls
  | hufBuild => exact Laws.EncodeFields.hufBuild
  | hufStart => exact Laws.EncodeFields.hufStart
  | hufBlock comp cls => exact Laws.EncodeFields.hufBlock comp cls
  | jbpWrite code n => exact Laws.EncodeFields.jbpWrite code n
  | jbpFlush => exact Laws.EncodeFields.jbpFlush
  | bufLds idx val => exact Laws.EncodeFields.bufLds idx val
  | bufLdq idx val => exact Laws.EncodeFields.bufLdq idx val

theorem carries_encode {i : Instr} (h : i.wellFormed = true) : Carries i (encode i) := by
  obtain ⟨hu, ho, hv⟩ := encodeFields i h
  exact ⟨hu, ho, hv⟩

/-- Every format gives its operands back (R92 to R97). -/
theorem decode_of_carries {i : Instr} {w : Word} (hw : Carries i w) (h : i.wellFormed = true) : decode w = .ok i := by
  obtain ⟨hu, ho, hv⟩ := hw
  unfold decode
  rw [hu, ho]
  cases i with
  | ctlReset | bpFlush | pkFlush | lzwEnd | dctFwd | hufBuild | hufStart | jbpFlush =>
    exact whenZero_eq_ok_iff.mpr ⟨hv, rfl⟩
  | pkWrite byte | lzwSym byte =>
    obtain ⟨hz, hb⟩ := (operand_iff w 7 byte.toNat byte.isLt (by decide)).mp hv
    exact whenZero_eq_ok_iff.mpr ⟨hz, by rw [hb, BitVec.ofNat_toNat, BitVec.setWidth_eq]⟩
  | lzwStart n | qtBuild n =>
    obtain ⟨hz, hn⟩ := (operand_iff w 7 n (of_decide_eq_true h) (by decide)).mp hv
    exact whenZero_eq_ok_iff.mpr ⟨hz, by rw [hn]⟩
  | dctQuant cls =>
    obtain ⟨hz, hc⟩ := (operand_iff w 0 cls.toNat (cls_lt cls) (by decide)).mp hv
    exact whenZero_eq_ok_iff.mpr ⟨hz, by rw [hc, clsOfNat_toNat]⟩
  | hufBlock comp cls =>
    obtain ⟨hz, hn, hc⟩ := (operands_pair_iff w 2 0 (of_decide_eq_true h) (cls_lt cls) (by decide) (by decide)).mp hv
    exact whenZero_eq_ok_iff.mpr ⟨hz, by rw [hn, hc, clsOfNat_toNat]⟩
  | bpWrite code n | jbpWrite code n =>
    obtain ⟨hz, hn, hc⟩ := (operands_pair_iff w 20 15 (of_decide_eq_true h) code.isLt (by decide) (by decide)).mp hv
    exact whenZero_eq_ok_iff.mpr ⟨hz, by rw [hn, hc, BitVec.ofNat_toNat, BitVec.setWidth_eq]⟩
  | bufLds idx val =>
    obtain ⟨hz, hn, hc⟩ := (operands_pair_iff w 13 7 (of_decide_eq_true h) val.isLt (by decide) (by decide)).mp hv
    exact whenZero_eq_ok_iff.mpr ⟨hz, by rw [hn, hc, BitVec.ofNat_toNat, BitVec.setWidth_eq]⟩
  | bufLdq idx val =>
    obtain ⟨hz, hn, hc⟩ := (operands_pair_iff w 21 15 (of_decide_eq_true h) val.isLt (by decide) (by decide)).mp hv
    exact whenZero_eq_ok_iff.mpr ⟨hz, by rw [hn, hc, BitVec.ofNat_toNat, BitVec.setWidth_eq]⟩

/-- Settles O1: the encoder's word carries the command's fields, and every format gives its operands back. -/
theorem decodeEncodeAgree : Obligations.DecodeEncodeAgree := fun _ h => decode_of_carries (carries_encode h) h

/-- A word that decodes carries the fields of its command: the must-be-zero bits are zero, so no bit is dropped. -/
theorem carries_of_decode {w : Word} {i : Instr} (h : decode w = .ok i) : Carries i w := by
  unfold decode at h
  split at h
  case h_19 => cases h
  all_goals
    obtain ⟨hz, rfl⟩ := whenZero_eq_ok_iff.mp h
    refine ⟨by assumption, by assumption, ?_⟩
  -- BP.WRITE, JBP.WRITE
  case h_2 | h_15 =>
    exact (operands_pair_iff w 20 15 (field_lt w 20 16) (BitVec.isLt _) (by decide) (by decide)).mpr
      ⟨hz, rfl, (toNat_ofNat_field w 15).symm⟩
  -- PK.WRITE, LZW.SYM
  case h_4 | h_7 => exact (operand_iff w 7 _ (BitVec.isLt _) (by decide)).mpr ⟨hz, (toNat_ofNat_field w 7).symm⟩
  -- LZW.START, QT.BUILD
  case h_6 | h_9 => exact (operand_iff w 7 _ (field_lt w 7 0) (by decide)).mpr ⟨hz, rfl⟩
  -- DCT.QUANT
  case h_11 => exact (operand_iff w 0 _ (cls_lt _) (by decide)).mpr ⟨hz, (toNat_clsOfNat w).symm⟩
  -- HUF.BLOCK
  case h_14 =>
    exact (operands_pair_iff w 2 0 (field_lt w 2 1) (cls_lt _) (by decide) (by decide)).mpr
      ⟨hz, rfl, (toNat_clsOfNat w).symm⟩
  -- BUF.LDS
  case h_17 =>
    exact (operands_pair_iff w 13 7 (field_lt w 13 8) (BitVec.isLt _) (by decide) (by decide)).mpr
      ⟨hz, rfl, (toNat_ofNat_field w 7).symm⟩
  -- BUF.LDQ
  case h_18 =>
    exact (operands_pair_iff w 21 15 (field_lt w 21 16) (BitVec.isLt _) (by decide) (by decide)).mpr
      ⟨hz, rfl, (toNat_ofNat_field w 15).symm⟩
  -- the commands without an operand
  all_goals exact hz

/-- Settles O2: the word carries all the fields of its command, so it is the encoder's word. -/
theorem encodeDecodeAgree : Obligations.EncodeDecodeAgree :=
  fun _ _ h => ⟨decode_wellFormed h, (carries_of_decode h).encode_eq⟩

/-- Settles O4: each printed word is the encoder's word of the command printed beside it. -/
theorem specWordsDecode : Obligations.SpecWordsDecode :=
  ⟨decodeEncodeAgree .ctlReset rfl, decodeEncodeAgree (.bpWrite 0xABCD 16) rfl, decodeEncodeAgree (.pkWrite 0xA5) rfl,
    decodeEncodeAgree (.lzwSym 255) rfl, decodeEncodeAgree (.qtBuild 100) rfl,
    decodeEncodeAgree (.dctQuant .chrominance) rfl, decodeEncodeAgree (.hufBlock 2 .chrominance) rfl,
    decodeEncodeAgree (.jbpWrite 0x1FF 9) rfl, decodeEncodeAgree (.bufLds 27 100) rfl,
    decodeEncodeAgree (.bufLdq 1 0xFFF3) rfl⟩

/-! The printed opcode map (R99). -/

/-- No command has a reserved unit (R91). -/
theorem unitOf_le (i : Instr) : unitOf i ≤ 8 := by cases i <;> simp [unitOf]

theorem opOf_le (i : Instr) : opOf i ≤ 2 := by cases i <;> simp [opOf]

/-- Unit 0 has the one operation 1, CTL.RESET (R99). -/
theorem opOf_of_unit_zero {i : Instr} (h : unitOf i = 0) : opOf i = 1 := match i, h with
  | .ctlReset, _ => rfl

/-- The lowest must-be-zero bit of a command's format (R92 to R97). -/
def zerosFrom (i : Instr) : Nat :=
  match i with
  | .ctlReset | .bpFlush | .pkFlush | .lzwEnd | .dctFwd | .hufBuild | .hufStart | .jbpFlush => 0
  | .dctQuant _ => 1
  | .hufBlock _ _ => 3
  | .pkWrite _ | .lzwStart _ | .lzwSym _ | .qtBuild _ => 8
  | .bufLds _ _ => 14
  | .bpWrite _ _ | .jbpWrite _ _ => 21
  | .bufLdq _ _ => 22

/-- The row of a command, put together from its unit, its operation and its must-be-zero bits. -/
def opcodeRow (i : Instr) : OpcodeRow :=
  { mnemonic := i.mnemonic
    pattern := assembleWord (unitOf i) (opOf i) 0
    mask := BitVec.allOnes 32 <<< zerosFrom i }

/-- The command with every operand at zero, which has the same row. -/
def bare (i : Instr) : Instr :=
  match i with
  | .bpWrite _ _ => .bpWrite 0 0
  | .pkWrite _ => .pkWrite 0
  | .lzwStart _ => .lzwStart 0
  | .lzwSym _ => .lzwSym 0
  | .qtBuild _ => .qtBuild 0
  | .dctQuant _ => .dctQuant .luminance
  | .hufBlock _ _ => .hufBlock 0 .luminance
  | .jbpWrite _ _ => .jbpWrite 0 0
  | .bufLds _ _ => .bufLds 0 0
  | .bufLdq _ _ => .bufLdq 0 0
  | .ctlReset | .bpFlush | .pkFlush | .lzwEnd | .dctFwd | .hufBuild | .hufStart | .jbpFlush => i

/-- The 18 commands in the order of the opcode map. -/
def bareCommands : List Instr :=
  [ .ctlReset, .bpWrite 0 0, .bpFlush, .pkWrite 0, .pkFlush, .lzwStart 0, .lzwSym 0, .lzwEnd, .qtBuild 0, .dctFwd,
    .dctQuant .luminance, .hufBuild, .hufStart, .hufBlock 0 .luminance, .jbpWrite 0 0, .jbpFlush, .bufLds 0 0,
    .bufLdq 0 0 ]

theorem bare_mem (i : Instr) : bare i ∈ bareCommands := by cases i <;> simp [bare, bareCommands]

theorem opcodeRow_bare (i : Instr) : opcodeRow (bare i) = opcodeRow i := by cases i <;> rfl

/-- The printed rows are those of the 18 commands. -/
theorem opcodeMap_eq : opcodeMap = bareCommands.map opcodeRow := rfl

theorem exists_opcodeRow {r : OpcodeRow} (h : r ∈ opcodeMap) : ∃ i, opcodeRow i = r := by
  rw [opcodeMap_eq] at h
  obtain ⟨i, -, hi⟩ := List.mem_map.mp h
  exact ⟨i, hi⟩

theorem opcodeRow_mem (i : Instr) : opcodeRow i ∈ opcodeMap := by
  rw [opcodeMap_eq, ← opcodeRow_bare]
  exact List.mem_map_of_mem (bare_mem i)

theorem mnemonic_injOn {r r' : OpcodeRow} (h : r ∈ opcodeMap) (h' : r' ∈ opcodeMap)
    (heq : r.mnemonic = r'.mnemonic) : r = r' :=
  List.inj_on_of_nodup_map (f := OpcodeRow.mnemonic) (by simp [opcodeMap]) h h' heq

theorem zerosFrom_le (i : Instr) : zerosFrom i ≤ 22 := by cases i <;> simp [zerosFrom]

/-- A mask of ones from bit `lo` up keeps the field above, in its place. -/
theorem toNat_and_ones (w : Word) (lo : Nat) (hlo : lo ≤ 31) :
    (w &&& BitVec.allOnes 32 <<< lo).toNat = field w 31 lo * 2 ^ lo := by
  have hshift : w &&& BitVec.allOnes 32 <<< lo = (w >>> lo) <<< lo := by
    refine BitVec.eq_of_getLsbD_eq fun i hi => ?_
    simp only [BitVec.getLsbD_and, BitVec.getLsbD_shiftLeft, BitVec.getLsbD_allOnes, BitVec.getLsbD_ushiftRight]
    by_cases h : i < lo
    · simp [h]
    · simp [h, hi, show i - lo < 32 by omega, show lo + (i - lo) = i by omega]
  have hle : w.toNat / 2 ^ lo * 2 ^ lo < 2 ^ 32 := lt_of_le_of_lt (Nat.div_mul_le_self _ _) w.isLt
  have hfield : w.toNat / 2 ^ lo < 2 ^ (31 + 1 - lo) := by
    rw [Nat.div_lt_iff_lt_mul (by positivity), ← pow_add, show 31 + 1 - lo + lo = 32 by omega]
    exact w.isLt
  rw [hshift, BitVec.toNat_shiftLeft, BitVec.toNat_ushiftRight, Nat.shiftRight_eq_div_pow, Nat.shiftLeft_eq,
    Nat.mod_eq_of_lt hle, field, Nat.mod_eq_of_lt hfield]

/-- A word matches the row of a command exactly when it has the command's unit, its operation, and zeros where its
format has them (R99). -/
theorem opcodeRow_hits_iff (i : Instr) (w : Word) :
    (opcodeRow i).hits w = true ↔
      field w 31 28 = unitOf i ∧ field w 27 24 = opOf i ∧ field w 23 (zerosFrom i) = 0 := by
  have hu := unitOf_le i
  have ho := opOf_le i
  have hz := zerosFrom_le i
  have hpattern : (assembleWord (unitOf i) (opOf i) 0).toNat =
      (unitOf i * 2 ^ 4 + opOf i) * 2 ^ (23 + 1 - zerosFrom i) * 2 ^ zerosFrom i := by
    rw [mul_assoc, ← pow_add, show 23 + 1 - zerosFrom i + zerosFrom i = 24 by omega, assembleWord, BitVec.toNat_ofNat]
    omega
  calc (opcodeRow i).hits w = true
      ↔ (w &&& BitVec.allOnes 32 <<< zerosFrom i).toNat = (assembleWord (unitOf i) (opOf i) 0).toNat := by
        rw [BitVec.toNat_inj, OpcodeRow.hits, beq_iff_eq]; rfl
    _ ↔ field w 31 (zerosFrom i) = (unitOf i * 2 ^ 4 + opOf i) * 2 ^ (23 + 1 - zerosFrom i) + 0 := by
        rw [toNat_and_ones w _ (by omega), hpattern, Nat.mul_left_inj (by positivity)]; rfl
    _ ↔ field w 31 24 = unitOf i * 2 ^ 4 + opOf i ∧ field w 23 (zerosFrom i) = 0 :=
        field_eq_packed_iff w (by omega) (by omega) (by positivity)
    _ ↔ _ := by
        rw [field_eq_packed_iff w (mid := 27) (by omega) (by omega) (show opOf i < 2 ^ (27 + 1 - 24) by omega),
          and_assoc]

/-- What decodes has the zeros of its format. -/
theorem zeros_of_decode {w : Word} {i : Instr} (h : decode w = .ok i) : field w 23 (zerosFrom i) = 0 := by
  unfold decode at h
  split at h
  case h_19 => cases h
  all_goals
    obtain ⟨hz, rfl⟩ := whenZero_eq_ok_iff.mp h
    exact hz

/-- What has the unit, the operation and the zeros of a command decodes to that command, with its own operands. -/
theorem decode_of_format {w : Word} (i : Instr) (hu : field w 31 28 = unitOf i) (ho : field w 27 24 = opOf i)
    (hz : field w 23 (zerosFrom i) = 0) : ∃ j, decode w = .ok j ∧ j.mnemonic = i.mnemonic := by
  unfold decode
  rw [hu, ho]
  cases i <;> exact ⟨_, whenZero_eq_ok_iff.mpr ⟨hz, rfl⟩, rfl⟩

theorem opcodeRow_hits_of_decode {w : Word} {i : Instr} (h : decode w = .ok i) : (opcodeRow i).hits w = true :=
  have hw := carries_of_decode h
  (opcodeRow_hits_iff i w).mpr ⟨hw.unit, hw.op, zeros_of_decode h⟩

theorem decode_of_hits {w : Word} {r : OpcodeRow} (hr : r ∈ opcodeMap) (h : r.hits w = true) :
    ∃ i, decode w = .ok i ∧ i.mnemonic = r.mnemonic := by
  obtain ⟨i, rfl⟩ := exists_opcodeRow hr
  obtain ⟨hu, ho, hz⟩ := (opcodeRow_hits_iff i w).mp h
  exact decode_of_format i hu ho hz

/-- Settles O3: the rows are the formats that the decoder tells apart; two rows that match one word have the mnemonic of
the one command it decodes to. -/
theorem decoderIsOpcodeMap : Obligations.DecoderIsOpcodeMap := by
  refine fun w => ⟨fun i h => ⟨opcodeRow i, opcodeRow_mem i, opcodeRow_hits_of_decode h, rfl⟩,
    fun r hr => decode_of_hits hr, fun r hr r' hr' h h' => ?_⟩
  obtain ⟨i, hi, hname⟩ := decode_of_hits hr h
  obtain ⟨i', hi', hname'⟩ := decode_of_hits hr' h'
  rw [hi, Except.ok.injEq] at hi'
  exact mnemonic_injOn hr hr' (by rw [← hname, ← hname', hi'])

/-! Illegal words (R100). -/

theorem decode_of_no_row {w : Word} (h : ∀ r ∈ opcodeMap, r.hits w = false) (i : Instr) : decode w ≠ .ok i :=
  fun hi => Bool.false_ne_true ((h _ (opcodeRow_mem i)).symm.trans (opcodeRow_hits_of_decode hi))

/-- The all-zero word, the all-ones word and every word of a reserved unit are illegal (R100). -/
theorem decode_ne_ok {w : Word} (hw : w = 0 ∨ w = 0xFFFFFFFF ∨ 9 ≤ field w 31 28) (i : Instr) : decode w ≠ .ok i := by
  intro h
  obtain ⟨hu, ho, -⟩ := carries_of_decode h
  have hle := unitOf_le i
  rcases hw with rfl | rfl | hreserved
  · exact absurd (ho.trans (opOf_of_unit_zero hu.symm)) (by decide)
  · exact absurd (hu.trans_le hle) (by decide)
  · omega

/-- A word that decodes to nothing raises ILLEGAL_COMMAND in a core that is not FAULTED
(45_control_and_buffers.md R280). -/
theorem runCommand_of_undecoded {w : Word} {s : State} (hs : Healthy s) (hw : ∀ i, decode w ≠ .ok i) :
    runCommand w s = .next (trapEntry .illegalCommand w s) := by
  rcases runCommand_cases w s with ⟨hd, -⟩ | ⟨-, i, hi, -⟩ | ⟨-, -, hr⟩
  · exact absurd hd (by simp [discards, hs])
  · exact absurd hi (hw i)
  · exact hr

/-- Settles O7: a word without a row does not decode; HUF.BLOCK with `comp = 3` decodes and fails its first check. -/
theorem illegalWordFaults : Obligations.IllegalWordFaults := by
  refine ⟨fun s w rest hs he hrows => ?_, fun w hw r hr => ?_, fun cls => decodeEncodeAgree _ rfl,
    fun s cls => raisesAtOnce_conclude .illegalCommand _ s⟩
  · have hrun := runCommand_of_undecoded (s := s.withEvents rest) hs (decode_of_no_row hrows)
    have hstep : step s = .next (trapEntry .illegalCommand w (s.withEvents rest)) := by
      simp only [step, runEvent, he, takeCommand, hrun]
    rw [hstep]
    exact raisesAtOnce_conclude .illegalCommand w _
  · refine Bool.eq_false_iff.mpr fun h => ?_
    obtain ⟨i, hi, -⟩ := decode_of_hits hr h
    exact decode_ne_ok hw i hi

end Sys2Proof.Machine
end

section
/-! PROOFS. What HUF.BLOCK writes (44_huffman.md R251, R255 to R259). One notion carries the proof: a procedure appends
a bit string to the bits pending in the JPEG bit-packer, the whole bytes of the two together leave with their stuffing,
and the rest stays pending (`Appends`). Appending one string and then another is appending both. -/

namespace Sys2Proof.Machine

/-! Bit strings and numbers, most significant bit first (00_scope.md R67). -/

@[simp] theorem length_bitsMsb (v n : Nat) : (bitsMsb v n).length = n := by simp [bitsMsb]

@[simp] theorem getElem_bitsMsb {v n i : Nat} (h : i < (bitsMsb v n).length) :
    (bitsMsb v n)[i] = v.testBit (n - 1 - i) := by
  simp [bitsMsb]

/-- The bits of `a` before those of `v` are the bits of one number. -/
theorem bitsMsb_append (a c v n : Nat) : bitsMsb a c ++ bitsMsb v n = bitsMsb (a * 2 ^ n ||| v % 2 ^ n) (c + n) := by
  refine List.ext_getElem (by simp) fun i hi _ => ?_
  rw [List.length_append, length_bitsMsb, length_bitsMsb] at hi
  rw [List.getElem_append, getElem_bitsMsb, Nat.testBit_or, Nat.testBit_mul_two_pow, Nat.testBit_mod_two_pow]
  split
  next h =>
    rw [length_bitsMsb] at h
    rw [getElem_bitsMsb, show c + n - 1 - i - n = c - 1 - i by omega]
    simp [show n ≤ c + n - 1 - i by omega]
  next h =>
    rw [length_bitsMsb] at h
    rw [getElem_bitsMsb, length_bitsMsb, show n - 1 - (i - c) = c + n - 1 - i by omega]
    simp [show ¬ n ≤ c + n - 1 - i by omega, show c + n - 1 - i < n by omega]

/-- The bits of a number, cut in two. -/
theorem bitsMsb_add (v c n : Nat) : bitsMsb v (c + n) = bitsMsb (v / 2 ^ n) c ++ bitsMsb v n := by
  rw [bitsMsb_append, Nat.mul_comm, ← Nat.two_pow_add_eq_or_of_lt (Nat.mod_lt _ (by positivity)), Nat.div_add_mod]

/-- The bits above the lowest `n` do not count. -/
theorem bitsMsb_mod (v n : Nat) : bitsMsb (v % 2 ^ n) n = bitsMsb v n := by
  have h := bitsMsb_append 0 0 v n
  rw [Nat.zero_mul, Nat.zero_or, Nat.zero_add] at h
  exact h.symm

theorem valueMsb_concat (bs : List Bool) (b : Bool) : valueMsb (bs ++ [b]) = 2 * valueMsb bs + b.toNat := by
  simp [valueMsb]

theorem valueMsb_bitsMsb (v n : Nat) : valueMsb (bitsMsb v n) = v % 2 ^ n := by
  induction n generalizing v with
  | zero => rw [pow_zero, Nat.mod_one]; rfl
  | succ n ih =>
    have hlast : bitsMsb v 1 = [v.testBit 0] := rfl
    rw [bitsMsb_add v n 1, hlast, valueMsb_concat, ih, Nat.toNat_testBit, pow_zero, pow_one, Nat.div_one, pow_succ',
      Nat.mod_mul, Nat.add_comm]

/-! The bytes of a bit string (R259). -/

theorem jpegBytes_append (k : Nat) {xs : List Bool} (ys : List Bool) (h : 8 * k ≤ xs.length) :
    jpegBytes k (xs ++ ys) = jpegBytes k xs := by
  induction k generalizing xs with
  | zero => rfl
  | succ k ih =>
    simp only [jpegBytes]
    rw [List.take_append_of_le_length (by omega), List.drop_append_of_le_length (by omega),
      ih (by rw [List.length_drop]; omega)]

theorem jpegBytes_add (j k : Nat) (xs : List Bool) :
    jpegBytes (j + k) xs = jpegBytes j xs ++ jpegBytes k (xs.drop (8 * j)) := by
  induction j generalizing xs with
  | zero => simp [jpegBytes]
  | succ j ih =>
    rw [Nat.add_right_comm]
    simp only [jpegBytes]
    rw [ih, List.drop_drop, List.append_assoc, show 8 + 8 * j = 8 * (j + 1) by omega]

theorem jpegLeft_length (xs : List Bool) : (jpegLeft xs).length = xs.length % 8 := by
  rw [jpegLeft, List.length_drop]
  omega

/-- What was left over goes in front of what follows. -/
theorem jpegLeft_append_eq_drop (xs ys : List Bool) : jpegLeft xs ++ ys = (xs ++ ys).drop (8 * (xs.length / 8)) := by
  rw [jpegLeft, List.drop_append_of_le_length (by omega)]

theorem jpegOut_append (xs ys : List Bool) : jpegOut (xs ++ ys) = jpegOut xs ++ jpegOut (jpegLeft xs ++ ys) := by
  have hk : (xs ++ ys).length / 8 = xs.length / 8 + (jpegLeft xs ++ ys).length / 8 := by
    rw [List.length_append, List.length_append, jpegLeft_length]
    omega
  rw [jpegOut, hk, jpegBytes_add, jpegBytes_append _ _ (by omega), ← jpegLeft_append_eq_drop]
  rfl

theorem jpegLeft_append (xs ys : List Bool) : jpegLeft (xs ++ ys) = jpegLeft (jpegLeft xs ++ ys) := by
  rw [jpegLeft_append_eq_drop, jpegLeft, jpegLeft, List.drop_drop, List.length_drop]
  congr 1
  simp only [List.length_append]
  omega

theorem jpegOut_of_short {xs : List Bool} (h : xs.length < 8) : jpegOut xs = [] := by
  rw [jpegOut, Nat.div_eq_of_lt h]
  rfl

theorem jpegLeft_of_short {xs : List Bool} (h : xs.length < 8) : jpegLeft xs = xs := by
  rw [jpegLeft, Nat.div_eq_of_lt h]
  rfl

/-! The accumulator (R251): loading puts the new bits behind the pending ones, a round takes the eight oldest. -/

@[simp] theorem length_pendingBits (a : BitAcc) : (pendingBits a).length = a.cnt.toNat := length_bitsMsb _ _

/-- The load fits the 32 bits of JBP_ACC for every code and magnitude that the encoder writes. -/
theorem pendingBits_loadJbp {a : BitAcc} (ha : AccOk a) (code : Nat) {n : Nat} (hn : n ≤ 16) :
    pendingBits (loadJbp a code n) = pendingBits a ++ bitsMsb code n := by
  obtain ⟨hcnt, hacc⟩ := ha
  have hfits : a.acc.toNat * 2 ^ n ||| code % 2 ^ n < 2 ^ 32 := by
    refine Nat.or_lt_two_pow ?_ ?_
    · calc a.acc.toNat * 2 ^ n < 2 ^ a.cnt.toNat * 2 ^ n := Nat.mul_lt_mul_of_pos_right hacc (by positivity)
        _ = 2 ^ (a.cnt.toNat + n) := (pow_add _ _ _).symm
        _ ≤ 2 ^ 32 := Nat.pow_le_pow_right (by norm_num) (by omega)
    · exact (Nat.mod_lt _ (by positivity)).trans_le (Nat.pow_le_pow_right (by norm_num) (by omega))
  have hsum : a.cnt.toNat + n < 2 ^ 6 := by omega
  rw [pendingBits, pendingBits, bitsMsb_append]
  simp only [loadJbp, low_natCast, BitVec.toNat_ofNat, Nat.mod_eq_of_lt hfits, Nat.mod_eq_of_lt hsum]

/-- The byte that leaves next, as the drain loop of `JBPWrite` takes it. -/
def nextByte (a : BitAcc) : Byte := BitVec.ofNat 8 (a.acc.toNat / 2 ^ (a.cnt.toNat - 8))

/-- The pending bits are those of the byte that leaves next and those that stay. -/
theorem pendingBits_eq_append {a : BitAcc} (h : 8 ≤ a.cnt.toNat) :
    pendingBits a = bitsMsb (a.acc.toNat / 2 ^ (a.cnt.toNat - 8)) 8 ++ pendingBits (dropOldest a) := by
  have hcnt : (dropOldest a).cnt.toNat = a.cnt.toNat - 8 := dropOldests_cnt 1 a
  have hle : a.acc.toNat % 2 ^ (a.cnt.toNat - 8) < 2 ^ 32 := (Nat.mod_le _ _).trans_lt a.acc.isLt
  have hacc : (dropOldest a).acc.toNat = a.acc.toNat % 2 ^ (a.cnt.toNat - 8) := by
    simp only [dropOldest, low_natCast, BitVec.toNat_ofNat, Nat.mod_eq_of_lt hle]
  rw [pendingBits, pendingBits, hcnt, hacc, bitsMsb_mod, ← bitsMsb_add, Nat.add_sub_cancel' h]

/-- The byte that leaves next is the value of the eight oldest bits (R259). -/
theorem nextByte_eq {a : BitAcc} (h : 8 ≤ a.cnt.toNat) :
    nextByte a = BitVec.ofNat 8 (valueMsb ((pendingBits a).take 8)) := by
  rw [pendingBits_eq_append h, List.take_left' (length_bitsMsb _ _), valueMsb_bitsMsb, nextByte]
  exact BitVec.eq_of_toNat_eq (by simp)

theorem pendingBits_dropOldest {a : BitAcc} (h : 8 ≤ a.cnt.toNat) :
    pendingBits (dropOldest a) = (pendingBits a).drop 8 := by
  rw [pendingBits_eq_append h, List.drop_left' (length_bitsMsb _ _)]

theorem pendingBits_dropOldests (k : Nat) {a : BitAcc} (h : 8 * k ≤ a.cnt.toNat) :
    pendingBits ((dropOldest^[k]) a) = (pendingBits a).drop (8 * k) := by
  induction k generalizing a with
  | zero => rfl
  | succ k ih =>
    have hcnt : (dropOldest a).cnt.toNat = a.cnt.toNat - 8 := dropOldests_cnt 1 a
    rw [Function.iterate_succ_apply, ih (by omega), pendingBits_dropOldest (by omega), List.drop_drop, Nat.mul_succ,
      Nat.add_comm]

/-! Appending bits. -/

/-- The bits went behind the pending ones: the whole bytes left, the rest is pending, nothing else changed (R259). -/
structure Appends (bits : List Bool) (s t : State) : Prop where
  frame : JbpFrame s t
  delivered : Delivered s t (jpegOut (pendingBits s.jbp ++ bits))
  pending : pendingBits t.jbp = jpegLeft (pendingBits s.jbp ++ bits)
  accOk : AccOk t.jbp

theorem Delivered.trans {s t u : State} {bs cs : List Byte} (h : Delivered s t bs) (h' : Delivered t u cs) :
    Delivered s u (bs ++ cs) := by
  obtain ⟨hout, hsink⟩ := h
  obtain ⟨hout', hsink'⟩ := h'
  exact ⟨by rw [hout', hout, List.append_assoc], by rw [hsink', hsink, List.drop_drop, List.length_append]⟩

theorem appends_nil {s : State} (hs : AccOk s.jbp) : Appends [] s s := by
  have hshort : (pendingBits s.jbp ++ []).length < 8 := by simp; omega
  refine ⟨rfl, ?_, ?_, hs⟩
  · rw [jpegOut_of_short hshort]; exact ⟨(List.append_nil _).symm, rfl⟩
  · rw [jpegLeft_of_short hshort, List.append_nil]

theorem Appends.trans {bs cs : List Bool} {s t u : State} (h : Appends bs s t) (h' : Appends cs t u) :
    Appends (bs ++ cs) s u := by
  refine ⟨h.frame.trans h'.frame, ?_, ?_, h'.accOk⟩
  · rw [← List.append_assoc, jpegOut_append, ← h.pending]
    exact h.delivered.trans h'.delivered
  · rw [← List.append_assoc, jpegLeft_append, ← h.pending]
    exact h'.pending

/-- One round of the drain loop of `JBPWrite`: the byte leaves with its stuffing (R251). -/
theorem jbpDrain_succ_accepts (k : Nat) {s : State} (ha : SinkAccepts s) :
    ∃ u, jbpDrain (k + 1) s = jbpDrain k u ∧ SinkAccepts u ∧ u.jbp = dropOldest s.jbp ∧
      Delivered s u (stuffed (nextByte s.jbp)) := by
  obtain ⟨u, hu, hau, hjbp, hdelivered⟩ : ∃ u, sinkWrites (stuffed (nextByte s.jbp)) s = .done u ∧ SinkAccepts u ∧
      u.jbp = s.jbp ∧ Delivered s u (stuffed (nextByte s.jbp)) :=
    ⟨_, sinkWrites_accepts ha _, sinkAccepts_drop ha _ _, rfl, rfl, rfl⟩
  refine ⟨u.withJbp (dropOldest u.jbp), ?_, hau, by rw [State.withJbp_jbp, hjbp], hdelivered⟩
  show (sinkWrites (stuffed (nextByte s.jbp)) s).andThen _ = _
  rw [hu]
  rfl

/-- The drain loop of `JBPWrite` writes the oldest bytes (R251). -/
theorem jbpDrain_delivers (k : Nat) {s : State} (ha : SinkAccepts s) (hk : 8 * k ≤ s.jbp.cnt.toNat) :
    ∃ t, jbpDrain k s = .done t ∧ Delivered s t (jpegBytes k (pendingBits s.jbp)) := by
  induction k generalizing s with
  | zero => exact ⟨s, rfl, (List.append_nil _).symm, rfl⟩
  | succ k ih =>
    obtain ⟨u, hround, hau, hjbp, hbyte⟩ := jbpDrain_succ_accepts k ha
    have hcnt : u.jbp.cnt.toNat = s.jbp.cnt.toNat - 8 := by rw [hjbp]; exact dropOldests_cnt 1 s.jbp
    obtain ⟨t, ht, hbytes⟩ := ih hau (by omega)
    rw [hjbp, pendingBits_dropOldest (by omega)] at hbytes
    rw [nextByte_eq (by omega)] at hbyte
    exact ⟨t, hround.trans ht, hbyte.trans hbytes⟩

/-- `JBPWrite` appends the low `n` bits of its code (R251). -/
theorem jbpWrite_appends (code : Nat) {n : Nat} (hn : n ≤ 16) {s : State} (hs : AccOk s.jbp) (ha : SinkAccepts s) :
    ∃ t, jbpWrite code n s = .done t ∧ Appends (bitsMsb code n) s t := by
  have hbits := pendingBits_loadJbp hs code hn
  have hlen : (loadJbp s.jbp code n).cnt.toNat = (pendingBits s.jbp ++ bitsMsb code n).length := by
    rw [← hbits, length_pendingBits]
  obtain ⟨t, ht, hdelivered⟩ := jbpDrain_delivers ((loadJbp s.jbp code n).cnt.toNat / 8)
    (s := s.withJbp (loadJbp s.jbp code n)) ha (Nat.mul_div_le _ _)
  have hwrite : jbpWrite code n s = .done t := ht
  obtain ⟨hframe, -, hjbp⟩ := (jbpWrite_jbpEnds code n s).done hwrite
  refine ⟨t, hwrite, hframe, ?_, ?_, hjbp ▸ accOk_jbpWrite hs code (by omega)⟩
  · rw [State.withJbp_jbp, hbits, hlen] at hdelivered
    exact hdelivered
  · rw [hjbp, pendingBits_dropOldests _ (Nat.mul_div_le _ _), hbits, hlen]
    rfl

/-! The codes of the four tables (R247). -/

/-- No code is longer than the last length of the histogram (R247). -/
theorem assignCodes_len_lt {hist : List Nat} {len code : Nat} {syms : List Nat} {x : Nat × HCode}
    (h : x ∈ assignCodes hist len code syms) : x.2.len.toNat < len + hist.length := by
  induction hist generalizing len code syms with
  | nil => cases h
  | cons n rest ih =>
    rw [assignCodes, List.mem_append, List.mem_map] at h
    rw [List.length_cons]
    rcases h with ⟨y, -, rfl⟩ | h
    · exact (Nat.mod_le _ _).trans_lt (by omega)
    · have := ih h
      omega

theorem huffEntry_len_le (t sym : Nat) : (huffEntry t sym).len.toNat ≤ 16 := by
  have hlength : (hbits t).length = 16 := by unfold hbits; split <;> rfl
  unfold huffEntry
  cases hfound : (tableCodes t).lookup sym with
  | none => exact Nat.zero_le _
  | some code =>
    obtain ⟨before, after, hcodes, -⟩ := List.lookup_eq_some_iff.mp hfound
    have hmem : (sym, code) ∈ tableCodes t := by simp [hcodes]
    have hlt := assignCodes_len_lt hmem
    rw [hlength] at hlt
    exact Nat.le_of_lt_succ hlt

/-! The Huffman encoder. -/

/-- HUFT holds the built tables, the bit-packer is between commands, the sink accepts. -/
structure EncoderReady (s : State) : Prop where
  codes : ∀ k, k < 1024 → spaceRead s.mem.huft k = some (huffEntry (k / 256) (k % 256))
  accOk : AccOk s.jbp
  accepts : SinkAccepts s

theorem Appends.ready {bits : List Bool} {s t : State} (h : Appends bits s t) (hs : EncoderReady s) : EncoderReady t :=
  have ⟨_, hsink⟩ := h.delivered
  ⟨by rw [h.frame.mem]; exact hs.codes, h.accOk, fun r hr => hs.accepts r (List.mem_of_mem_drop (hsink ▸ hr))⟩

/-- The procedure runs to its end and appends the bits. -/
def Encodes (k : State → Res) (bits : List Bool) : Prop :=
  ∀ s, EncoderReady s → ∃ t, k s = .done t ∧ Appends bits s t

theorem encodes_done : Encodes .done [] := fun s hs => ⟨s, rfl, appends_nil hs.accOk⟩

theorem Encodes.andThen {j k : State → Res} {bs cs : List Bool} (hj : Encodes j bs) (hk : Encodes k cs) :
    Encodes (fun s => (j s).andThen k) (bs ++ cs) := by
  intro s hs
  obtain ⟨t, ht, hbs⟩ := hj s hs
  obtain ⟨u, hu, hcs⟩ := hk t (hbs.ready hs)
  exact ⟨u, by simp only [ht, Res.andThen_done, hu], hbs.trans hcs⟩

theorem jbpWrite_encodes (code : Nat) {n : Nat} (hn : n ≤ 16) : Encodes (jbpWrite code n) (bitsMsb code n) :=
  fun _ hs => jbpWrite_appends code hn hs.accOk hs.accepts

/-- `EmitSym` (R256). -/
theorem emitSym_encodes {t sym : Nat} (ht : t < 4) (hsym : sym < 256) : Encodes (emitSym t sym) (symbolBits t sym) := by
  intro s hs
  have hcode := hs.codes (256 * t + sym) (by omega)
  rw [show (256 * t + sym) / 256 = t by omega, show (256 * t + sym) % 256 = sym by omega] at hcode
  unfold emitSym
  rw [hcode]
  exact jbpWrite_encodes _ (huffEntry_len_le t sym) s hs

theorem emitZrl_encodes {acT : Nat} (ht : acT < 4) (k : Nat) :
    Encodes (emitZrl acT k) (List.replicate k (symbolBits acT 0xF0)).flatten := by
  induction k with
  | zero => exact encodes_done
  | succ k ih =>
    rw [List.replicate_succ, List.flatten_cons]
    exact (emitSym_encodes ht (by decide)).andThen ih

/-- The magnitude bits of a value with a category (R255). -/
theorem magnitude_encodes {v : Int} (hv : cat v ≤ 11) : Encodes (jbpWrite (mag v (cat v)) (cat v)) (magnitudeBits v) :=
  jbpWrite_encodes _ (by omega)

theorem emitCoeff_encodes {acT : Nat} (ht : acT < 4) (r : Nat) {v : Int} (hv : cat v ≤ 10) :
    Encodes (emitCoeff acT r v) ((List.replicate (r / 16) (symbolBits acT 0xF0)).flatten ++
      (symbolBits acT (r % 16 * 16 + cat v) ++ magnitudeBits v)) :=
  (emitZrl_encodes ht _).andThen ((emitSym_encodes ht (by omega)).andThen (magnitude_encodes (by omega)))

/-- The AC scan (R257). -/
theorem scanAc_encodes {acT : Nat} (ht : acT < 4) {vs : List Int} (hvs : ∀ v ∈ vs, cat v ≤ 10) (r : Nat) :
    Encodes (scanAc acT vs r) (acBits acT vs r) := by
  induction vs generalizing r with
  | nil =>
    by_cases hr : 0 < r
    · rw [show scanAc acT [] r = emitSym acT eob from funext fun _ => if_pos hr, acBits, if_pos hr]
      exact emitSym_encodes ht (by decide)
    · rw [show scanAc acT [] r = .done from funext fun _ => if_neg hr, acBits, if_neg hr]
      exact encodes_done
  | cons v rest ih =>
    obtain ⟨hv, hrest⟩ := List.forall_mem_cons.mp hvs
    by_cases h0 : v = 0
    · simpa only [acBits, scanAc, if_pos h0] using ih hrest (r + 1)
    · simpa only [acBits, scanAc, if_neg h0, List.append_assoc] using (emitCoeff_encodes ht r hv).andThen (ih hrest 0)

/-- The DC term (R257); a difference of 0 has no magnitude bits. -/
theorem emitDc_encodes {dcT : Nat} (ht : dcT < 4) {diff : Int} (hd : cat diff ≤ 11) :
    Encodes (emitDc dcT diff) (symbolBits dcT (cat diff) ++ magnitudeBits diff) := by
  refine (emitSym_encodes ht (by omega)).andThen ?_
  by_cases hpos : 0 < cat diff
  · simpa only [if_pos hpos] using magnitude_encodes hd
  · have hnone : magnitudeBits diff = [] := by rw [magnitudeBits, Nat.eq_zero_of_not_pos hpos]; rfl
    simpa only [if_neg hpos, hnone] using encodes_done

/-- A block in range: its bit string, and the predictor (R257, R259). -/
theorem emitBlock_appends {comp : Nat} (cls : Cls) {s : State} (hr : blockInRange comp s = true) (hs : EncoderReady s) :
    ∃ t, emitBlock comp cls s = .done (t.withHuf (setPred s.huf comp ((spaceRead s.mem.qb 0).getD 0))) ∧
      Appends (blockBits cls (dcDiff comp s) (acValues s.mem)) s t := by
  simp only [blockInRange, Bool.and_eq_true, decide_eq_true_eq, List.all_eq_true] at hr
  have hcls := Laws.EncodeFields.cls_lt cls
  have hdc := emitDc_encodes (dcT := dcTable cls) (by unfold dcTable; omega) hr.1
  have hac := scanAc_encodes (acT := acTable cls) (by unfold acTable; omega) hr.2 0
  obtain ⟨t, ht, hbits⟩ := hdc.andThen hac s hs
  refine ⟨t, ?_, hbits⟩
  simp only at ht
  rw [emitBlock, ← Res.andThen_assoc, ht, Res.andThen_done, hbits.frame.huf]

/-- The AC values are those of the elements 1 to 63. -/
theorem zigzag_tail_range : ∀ i ∈ zigzag.drop 1, 1 ≤ i ∧ i < 64 := by decide

/-- A block whose checks all pass (R257). -/
theorem execHufBlock_of_checks {comp : Nat} {cls : Cls} {s : State} (hc : compOk comp = true) (hv : s.huf.valid = true)
    (hw : allOnes s.dct.qbWr = true) (hfull : spaceFull 64 s.mem.qb = true) (hr : blockInRange comp s = true) :
    exec (.hufBlock comp cls) s = conclude (encode (.hufBlock comp cls)) (emitBlock comp cls s) := by
  show execHufBlock comp cls s = _
  rw [execHufBlock, require_true hc, require_true hv, require_true hw, withValues_true hfull, require_true hr]

/-- Settles O53: the checks pass, the encoder appends the bit string of the block to the pending bits, and the predictor
is set last. -/
theorem hufBlockBits : Obligations.HufBlockBits := by
  intro comp cls s hcomp hvalid hmask ⟨_, hqb, _⟩ hhuff hacc hsink hdc hac
  have hw : allOnes s.dct.qbWr = true := (allOnes_iff _).mpr hmask
  have hfull : spaceFull 64 s.mem.qb = true := spaceFull_of_allOnes hw hqb
  have hrange : blockInRange comp s = true := by
    rw [blockInRange, Bool.and_eq_true, List.all_eq_true]
    refine ⟨decide_eq_true hdc, fun v hv => decide_eq_true ?_⟩
    obtain ⟨i, hi, rfl⟩ := List.mem_map.mp hv
    obtain ⟨hi1, hi64⟩ := zigzag_tail_range i hi
    exact hac i hi1 hi64
  obtain ⟨t, ht, hbits⟩ := emitBlock_appends cls hrange ⟨hhuff hvalid, hacc, hsink⟩
  refine ⟨t.withHuf (setPred s.huf comp ((spaceRead s.mem.qb 0).getD 0)), ?_, hbits.delivered, hbits.pending,
    hbits.accOk, rfl, (congrArg (State.withHuf · _) hbits.frame).trans rfl⟩
  rw [execHufBlock_of_checks (decide_eq_true (Nat.lt_succ_of_le hcomp)) hvalid hw hfull hrange, ht, conclude_done]

end Sys2Proof.Machine
end

section
/-! PROOFS. What the packers write (40_bitpacker_packetizer.md R131 to R140). One notion carries the proofs: a procedure
packs a number of a given width above the bits pending in the GIF bit-packer, the whole bytes go through the packet
writer, and the rest stays pending (`Packs`). Packing one number and then another is packing both as one number. -/

namespace Sys2Proof.Machine

/-! Commands while no LZW stream is open (R130). -/

theorem unlessStream_of_idle {s : State} (h : s.lzw.active = false) (k : State → Res) : unlessStream k s = k s :=
  require_true (by rw [h]; rfl)

theorem exec_pkWrite_of_done {b : Byte} {s t : State} (hidle : s.lzw.active = false) (h : pkWrite b s = .done t) :
    exec (.pkWrite b) s = .next t := by
  show execPkWrite b s = _
  rw [execPkWrite, unlessStream_of_idle hidle, h, conclude_done]

theorem exec_pkFlush_of_done {s t : State} (hidle : s.lzw.active = false) (h : pkFlush s = .done t) :
    exec .pkFlush s = .next t := by
  show execPkFlush s = _
  rw [execPkFlush, unlessStream_of_idle hidle, h, conclude_done]

theorem exec_bpWrite_of_done {code : BitVec 16} {n : Nat} {s t : State} (hn : 1 ≤ n ∧ n ≤ 16)
    (hidle : s.lzw.active = false) (h : bpWrite code.toNat n s = .done t) : exec (.bpWrite code n) s = .next t := by
  have hwidth : widthOk n = true := decide_eq_true hn
  show execBpWrite code n s = _
  rw [execBpWrite, unlessStream_of_idle hidle, require_true hwidth, h, conclude_done]

theorem exec_bpFlush_of_done {s t : State} (hidle : s.lzw.active = false) (h : bpFlush s = .done t) :
    exec .bpFlush s = .next t := by
  show execBpFlush s = _
  rw [execBpFlush, unlessStream_of_idle hidle, h, conclude_done]

/-! The sink takes exactly the bytes that OUT gains (20_memory.md R76). -/

/-- A procedure answers alike for the sink's answers it took and no others, so it took one for each byte. -/
theorem Torn.delivered {k : State → Res} (hk : Torn k) {s t : State} (h : k s = .done t) (ha : SinkAccepts s)
    {bs : List Byte} (hout : t.out = s.out ++ bs) : Delivered s t bs := by
  obtain ⟨cs, hw⟩ := hk s t h
  obtain rfl : bs = cs := List.append_cancel_left (hout.symm.trans hw.out)
  have htaken := hw.taken s.sink fun r hr => ha r (List.mem_of_mem_take hr)
  rw [State.withSink_self, h] at htaken
  exact ⟨hout, congrArg State.sink (Res.done.inj htaken)⟩

/-! The packet writer (R134, R135, R140). -/

/-- The packet writer alone, the bit-packer as before. -/
theorem PackFrame.eq_of_bp {s t : State} (h : PackFrame s t) (hbp : t.bp = s.bp) :
    t = (((s.withPkCnt t.pkCnt).withMem (s.mem.withPkbuf t.mem.pkbuf)).withOut t.out).withSink t.sink := by
  unfold PackFrame at h
  rw [hbp] at h
  exact h

/-- Settles O29: `PKWrite` stores one byte at PK_CNT and counts it modulo 255. -/
theorem pkWriteBuffers : Obligations.PkWriteBuffers := by
  intro b s hidle hs ha
  obtain ⟨t, ht, -, hout, hbuffered⟩ := pkWrite_accepts b hs ha
  obtain ⟨hframe, -, hbp, -, hbuf, hcnt⟩ := (pkWrite_packEnds b s).done ht
  refine ⟨t, exec_pkWrite_of_done hidle ht, hbuffered, hcnt, (pkWrite_torn b).delivered ht ha hout, fun k hk => ?_,
    hframe.eq_of_bp hbp⟩
  rw [hbuf, spaceRead_write_other _ _ hk]

/-- Settles O30: with the block delivered, `PKFlush` changes OUT, the sink's answers and PK_CNT alone. -/
theorem pkFlushEmitsBlock : Obligations.PkFlushEmitsBlock := by
  intro s hidle hs ha
  obtain ⟨t, ht, -, hout⟩ := pkFlush_accepts hs ha
  obtain ⟨-, hsink⟩ := pkFlush_torn.delivered ht ha hout
  obtain ⟨hframe, -, hbp, hmem, hcnt⟩ := (pkFlush_packEnds s).done ht
  have heq := hframe.eq_of_bp hbp
  rw [hcnt, hmem, hout, hsink] at heq
  rw [exec_pkFlush_of_done hidle ht, heq]
  rfl

/-! Where the bytes are stored (R134). -/

/-- The first byte is stored at the count, the others from the count after it. -/
theorem packetIndex_succ {n : Nat} (hn : n < 255) (k j : Nat) :
    packetIndex n (k + 1) j ↔ j = n ∨ packetIndex ((n + 1) % 255) k j := by
  constructor
  · rintro ⟨i, hi, rfl⟩
    cases i with
    | zero => exact .inl (Nat.mod_eq_of_lt hn)
    | succ i => exact .inr ⟨i, by omega, by omega⟩
  · rintro (rfl | ⟨i, hi, rfl⟩)
    · exact ⟨0, by omega, (Nat.mod_eq_of_lt hn).symm⟩
    · exact ⟨i + 1, by omega, by omega⟩

theorem packetIndex_add_left {n j x : Nat} (k : Nat) (h : packetIndex n j x) : packetIndex n (j + k) x := by
  obtain ⟨i, hi, hx⟩ := h
  exact ⟨i, by omega, hx⟩

theorem packetIndex_add_right {n j k x : Nat} (h : packetIndex ((n + j) % 255) k x) : packetIndex n (j + k) x := by
  obtain ⟨i, hi, hx⟩ := h
  exact ⟨j + i, by omega, by omega⟩

/-- The drain loop of `BPWrite` stores one byte a round (R131). -/
theorem bpDrain_pkbuf_frame {k : Nat} {s t : State} (h : bpDrain k s = .done t) {j : Nat}
    (hj : ¬ packetIndex s.pkCnt.toNat k j) : spaceRead t.mem.pkbuf j = spaceRead s.mem.pkbuf j := by
  induction k generalizing s with
  | zero => cases h; rfl
  | succ k ih =>
    obtain ⟨u, hu, hrest⟩ := Res.andThen_eq_done h
    obtain ⟨-, -, -, hlt, hbuf, hcnt⟩ := (pkWrite_packEnds _ s).done hu
    rw [packetIndex_succ hlt, not_or, ← hcnt] at hj
    obtain ⟨hfirst, hothers⟩ := hj
    calc spaceRead t.mem.pkbuf j = spaceRead u.mem.pkbuf j := ih (s := u.withBp (dropByte u.bp)) hrest hothers
      _ = spaceRead s.mem.pkbuf j := by rw [hbuf, spaceRead_write_other _ _ hfirst]

/-- `BPFlush` stores the partial last byte, where there is one (R132). -/
theorem bpFlush_pkbuf_frame {s t : State} (h : bpFlush s = .done t) {k : Nat}
    (hk : k ≠ s.pkCnt.toNat ∨ s.bp.cnt = 0) : spaceRead t.mem.pkbuf k = spaceRead s.mem.pkbuf k := by
  unfold bpFlush at h
  split at h
  next =>
    obtain ⟨-, -, -, hmem, -⟩ := (pkFlush_packEnds s).done h
    rw [hmem]
  next hpending =>
    obtain ⟨u, hu, hflush⟩ := Res.andThen_eq_done h
    obtain ⟨-, -, -, -, hbuf, -⟩ := (pkWrite_packEnds _ s).done hu
    obtain ⟨-, -, -, hmem, -⟩ := (pkFlush_packEnds _).done hflush
    rw [hmem, State.withBp_mem, hbuf, spaceRead_write_other _ _ (hk.resolve_right hpending)]

/-- Settles O32: `BPFlush` writes the pending byte and the trailing block. -/
theorem bpFlushPads : Obligations.BpFlushPads := by
  intro s hidle hacc hs ha
  obtain ⟨t, ht, hframe, -, hbp, hcnt, hout⟩ := bpFlush_accepts hacc hs ha
  exact ⟨t, exec_bpFlush_of_done hidle ht, hbp, hcnt, bpFlush_torn.delivered ht ha hout,
    fun _ hk => bpFlush_pkbuf_frame ht hk, hframe⟩

/-! The bytes of a number, least significant first (R133). -/

theorem bytesLsb_add (v j k : Nat) : bytesLsb v (j + k) = bytesLsb v j ++ bytesLsb (v / 2 ^ (8 * j)) k := by
  induction j generalizing v with
  | zero => simp [bytesLsb]
  | succ j ih =>
    rw [Nat.add_right_comm, bytesLsb_succ, bytesLsb_succ, ih, Nat.div_div_eq_div_mul, ← pow_add, List.cons_append,
      show 8 + 8 * j = 8 * (j + 1) by omega]

/-- What stands above the lowest `k` bytes does not count. -/
theorem bytesLsb_add_mul (v w k : Nat) : bytesLsb (v + w * 2 ^ (8 * k)) k = bytesLsb v k := by
  induction k generalizing v with
  | zero => rfl
  | succ k ih =>
    have hshift : v + w * 2 ^ (8 * (k + 1)) = v + w * 2 ^ (8 * k) * 2 ^ 8 := by ring
    have hbyte : BitVec.ofNat 8 (v + w * 2 ^ (8 * k) * 2 ^ 8) = BitVec.ofNat 8 v :=
      BitVec.eq_of_toNat_eq (by simp only [BitVec.toNat_ofNat, Nat.add_mul_mod_self_right])
    rw [bytesLsb_succ, bytesLsb_succ, hshift, hbyte, Nat.add_mul_div_right _ _ (by positivity), ih]

/-! Packing numbers (R131). -/

/-- The pending bits with the number `c` above them. -/
def packedAbove (c : Nat) (a : BitAcc) : Nat := a.acc.toNat + c * 2 ^ a.cnt.toNat

/-- The buffered bytes, then the whole bytes of the pending bits with the `n`-bit number `c` above them. -/
def packedBytes (c n : Nat) (s : State) : List Byte :=
  bufferedBytes s ++ bytesLsb (packedAbove c s.bp) ((s.bp.cnt.toNat + n) / 8)

/-- The `n`-bit number `c` was packed above the pending bits: the whole bytes went through the packet writer, the rest is
pending, nothing else changed (R131, R134). -/
structure Packs (c n : Nat) (s t : State) : Prop where
  frame : PackFrame s t
  delivered : Delivered s t (packetOut (packedBytes c n s))
  buffered : bufferedBytes t = packetLeft (packedBytes c n s)
  acc : t.bp.acc.toNat = packedAbove c s.bp / 2 ^ (8 * ((s.bp.cnt.toNat + n) / 8))
  cnt : t.bp.cnt.toNat = (s.bp.cnt.toNat + n) % 8
  stored : ∀ k, ¬ packetIndex s.pkCnt.toNat ((s.bp.cnt.toNat + n) / 8) k →
    spaceRead t.mem.pkbuf k = spaceRead s.mem.pkbuf k
  ready : GifReady t

/-- `BPWrite` packs the low `n` bits of its code. -/
theorem bpWrite_packs (code : Nat) {n : Nat} (hn : n ≤ 16) {s : State} (hs : GifReady s) :
    ∃ t, bpWrite code n s = .done t ∧ Packs (code % 2 ^ n) n s t := by
  obtain ⟨hacc, hpacket, ha⟩ := hs
  obtain ⟨t, ht, hframe, hat, hacct, hpackett, hout, hbuffered, hrest, hcnt⟩ := bpWrite_accepts code hn hacc hpacket ha
  have hdrain : bpDrain ((loadAcc s.bp code n).cnt.toNat / 8) (s.withBp (loadAcc s.bp code n)) = .done t := ht
  rw [(loadAcc_toNat hacc code hn).2] at hdrain
  exact ⟨t, ht, hframe, (bpWrite_torn code n).delivered ht ha hout, hbuffered, hrest, hcnt,
    fun _ hk => bpDrain_pkbuf_frame hdrain hk, hacct, hpackett, hat⟩

theorem packs_nil {s : State} (hs : GifReady s) : Packs 0 0 s s := by
  have ⟨⟨hcnt, _⟩, ⟨hlen, _⟩, _⟩ := hs
  have hwhole : (s.bp.cnt.toNat + 0) / 8 = 0 := by omega
  have hbytes : packedBytes 0 0 s = bufferedBytes s := by
    rw [packedBytes, hwhole]
    exact List.append_nil _
  have hshort : (bufferedBytes s).length < 255 := by rw [bufferedBytes_length]; omega
  refine ⟨rfl, ?_, ?_, ?_, by omega, fun _ _ => rfl, hs⟩
  · rw [hbytes, packetOut_of_short hshort]; exact ⟨(List.append_nil _).symm, rfl⟩
  · rw [hbytes, packetLeft_of_short hshort]
  · rw [hwhole, packedAbove]; simp

/-- Two numbers above the pending bits, the first one lower. -/
theorem packedAbove_add (c n d : Nat) (a : BitAcc) :
    packedAbove (c + 2 ^ n * d) a = packedAbove c a + d * 2 ^ (a.cnt.toNat + n) := by
  unfold packedAbove
  ring

section
variable {c n : Nat} {s t : State} (h : Packs c n s t)
include h

/-- The second number goes above what the first left pending. -/
theorem Packs.above (d : Nat) :
    packedAbove (c + 2 ^ n * d) s.bp / 2 ^ (8 * ((s.bp.cnt.toNat + n) / 8)) = packedAbove d t.bp := by
  have hsplit : 2 ^ (s.bp.cnt.toNat + n) =
      2 ^ ((s.bp.cnt.toNat + n) % 8) * 2 ^ (8 * ((s.bp.cnt.toNat + n) / 8)) := by
    rw [← pow_add, Nat.mod_add_div]
  rw [packedAbove_add, hsplit, ← Nat.mul_assoc, Nat.add_mul_div_right _ _ (by positivity), ← h.acc, ← h.cnt,
    packedAbove]

/-- The whole bytes of the first number, then `k` bytes of what it left pending with the second above. -/
theorem Packs.bytes_add (d k : Nat) :
    bufferedBytes s ++ bytesLsb (packedAbove (c + 2 ^ n * d) s.bp) ((s.bp.cnt.toNat + n) / 8 + k) =
      packedBytes c n s ++ bytesLsb (packedAbove d t.bp) k := by
  have hlow : bytesLsb (packedAbove (c + 2 ^ n * d) s.bp) ((s.bp.cnt.toNat + n) / 8) =
      bytesLsb (packedAbove c s.bp) ((s.bp.cnt.toNat + n) / 8) := by
    rw [packedAbove_add, ← Nat.mod_add_div (s.bp.cnt.toNat + n) 8, pow_add, ← Nat.mul_assoc,
      Nat.mod_add_div, bytesLsb_add_mul]
  rw [bytesLsb_add, h.above, hlow, packedBytes, List.append_assoc]

theorem Packs.pkCnt : t.pkCnt.toNat = (s.pkCnt.toNat + (s.bp.cnt.toNat + n) / 8) % 255 := by
  rw [← bufferedBytes_length t, h.buffered, packetLeft_length, packedBytes, List.length_append, bufferedBytes_length,
    bytesLsb_length]

/-- Two numbers packed one after the other are one number packed. -/
theorem Packs.trans {d m : Nat} {u : State} (h' : Packs d m t u) : Packs (c + 2 ^ n * d) (n + m) s u := by
  have hcount : (s.bp.cnt.toNat + (n + m)) / 8 = (s.bp.cnt.toNat + n) / 8 + (t.bp.cnt.toNat + m) / 8 := by
    rw [h.cnt]; omega
  have hbytes : packedBytes (c + 2 ^ n * d) (n + m) s =
      packedBytes c n s ++ bytesLsb (packedAbove d t.bp) ((t.bp.cnt.toNat + m) / 8) := by
    rw [packedBytes, hcount, h.bytes_add]
  have hleft : packedBytes d m t =
      packetLeft (packedBytes c n s) ++ bytesLsb (packedAbove d t.bp) ((t.bp.cnt.toNat + m) / 8) := by
    rw [packedBytes, h.buffered]
  refine ⟨h.frame.trans h'.frame, ?_, ?_, ?_, ?_, fun k hk => ?_, h'.ready⟩
  · rw [hbytes, packetOut_append, ← hleft]
    exact h.delivered.trans h'.delivered
  · rw [hbytes, packetLeft_append, ← hleft, h'.buffered]
  · rw [hcount, Nat.mul_add, pow_add, ← Nat.div_div_eq_div_mul, h.above, h'.acc]
  · rw [h'.cnt, h.cnt]; omega
  · rw [hcount] at hk
    have hfirst := fun hj => hk (packetIndex_add_left _ hj)
    have hsecond := fun hj => hk (packetIndex_add_right (h.pkCnt ▸ hj))
    exact (h'.stored k hsecond).trans (h.stored k hfirst)

/-- `BPFlush` after a number was packed: all its bytes have left, the last one padded, the last block after the others
(R132). -/
theorem Packs.flush : ∃ u, bpFlush t = .done u ∧ u.bp = { acc := 0, cnt := 0 } ∧ u.pkCnt = 0 ∧
    let bytes := bufferedBytes s ++ bytesLsb (packedAbove c s.bp) ((s.bp.cnt.toNat + n + 7) / 8)
    Delivered s u (packetOut bytes ++ lastBlock (packetLeft bytes)) := by
  obtain ⟨hacc, hpacket, ha⟩ := h.ready
  obtain ⟨u, hu, -, -, hbp, hcnt, hout⟩ := bpFlush_accepts hacc hpacket ha
  have hbytes : bufferedBytes s ++ bytesLsb (packedAbove c s.bp) ((s.bp.cnt.toNat + n + 7) / 8) =
      packedBytes c n s ++ bytesLsb t.bp.acc.toNat ((t.bp.cnt.toNat + 7) / 8) := by
    have hcount : (s.bp.cnt.toNat + n + 7) / 8 = (s.bp.cnt.toNat + n) / 8 + (t.bp.cnt.toNat + 7) / 8 := by
      rw [h.cnt]; omega
    rw [hcount, bytesLsb_add, ← h.acc, packedBytes, List.append_assoc]
  refine ⟨u, hu, hbp, hcnt, ?_⟩
  simp only
  rw [hbytes, packetOut_append, packetLeft_append, List.append_assoc, ← h.buffered]
  exact h.delivered.trans (bpFlush_torn.delivered hu ha hout)

end

/-- Settles O31: `BPWrite` packs the low bits of its code. -/
theorem bpWritePacksLsbFirst : Obligations.BpWritePacksLsbFirst := by
  intro code n s hmin hmax hidle hacc hs ha
  obtain ⟨t, ht, hpacks⟩ := bpWrite_packs code.toNat hmax ⟨hacc, hs, ha⟩
  exact ⟨t, exec_bpWrite_of_done ⟨hmin, hmax⟩ hidle ht, hpacks.acc, hpacks.cnt, hpacks.buffered, hpacks.delivered,
    hpacks.stored, hpacks.frame⟩

/-! A sequence of commands (R133, R140). -/

theorem runAll_cons_of_next {i : Instr} {is : List Instr} {s t : State} (h : exec i s = .next t) :
    runAll (i :: is) s = runAll is t := by
  rw [runAll, h]

theorem runAll_append_of_next {is js : List Instr} {s t : State} (h : runAll is s = .next t) :
    runAll (is ++ js) s = runAll js t := by
  induction is generalizing s with
  | nil => cases h; rfl
  | cons i is ih =>
    cases hi : exec i s with
    | next u =>
      rw [runAll_cons_of_next hi] at h
      rw [List.cons_append, runAll_cons_of_next hi, ih h]
    | fault f => rw [runAll, hi] at h; cases h
    | refused r => rw [runAll, hi] at h; cases h

/-- BP.WRITE commands pack the integer that their codes form. -/
theorem runAll_bpWrites_packs {ws : List (BitVec 16 × Nat)} (hws : ∀ w ∈ ws, 1 ≤ w.2 ∧ w.2 ≤ 16) {s : State}
    (hidle : s.lzw.active = false) (hs : GifReady s) :
    ∃ t, runAll (ws.map (fun w => Instr.bpWrite w.1 w.2)) s = .next t ∧
      Packs (packedLsb (ws.map (fun w => (w.1.toNat, w.2)))) (packedBits (ws.map (fun w => (w.1.toNat, w.2)))) s t := by
  induction ws generalizing s with
  | nil => exact ⟨s, rfl, packs_nil hs⟩
  | cons w ws ih =>
    obtain ⟨hw, hrest⟩ := List.forall_mem_cons.mp hws
    obtain ⟨u, hu, hfirst⟩ := bpWrite_packs w.1.toNat hw.2 hs
    obtain ⟨t, ht, hothers⟩ := ih hrest (hfirst.frame.lzw ▸ hidle) hfirst.ready
    exact ⟨t, (runAll_cons_of_next (exec_bpWrite_of_done hw hidle hu)).trans ht, hfirst.trans hothers⟩

/-- Settles O33: the writes pack one integer, and the flush empties the packers. -/
theorem packedStreamBytes : Obligations.PackedStreamBytes := by
  intro ws s hws hidle hbp hcnt ha
  obtain ⟨t, ht, hpacks⟩ := runAll_bpWrites_packs hws hidle ⟨hbp ▸ accOk_zero, packetOk_of_zero hcnt, ha⟩
  obtain ⟨u, hu, hbpu, hcntu, ⟨hout, -⟩⟩ := hpacks.flush
  have hflush : runAll [.bpFlush] t = .next u :=
    runAll_cons_of_next (exec_bpFlush_of_done (hpacks.frame.lzw ▸ hidle) hu)
  refine ⟨u, (runAll_append_of_next ht).trans hflush, ?_, hbpu, hcntu⟩
  simpa [packedAbove, hbp, bufferedBytes_of_zero hcnt] using hout

end Sys2Proof.Machine
end

section
/-! PROOFS. The width in force (41_lzw.md R155, R161). -/

namespace Sys2Proof.Machine

/-- Settles O25: every move of the LZW unit keeps the closed form of the width (`step_keeps_width`). -/
theorem widthFollowsFreeEnt : Obligations.WidthFollowsFreeEnt := fun _ _ hs h ht => (step_keeps_width hs h ht).2

end Sys2Proof.Machine
end

section
/-! PROOFS. What the LZW compressor writes (41_lzw.md R153 to R160). To the packers a command of the unit is a sequence
of codes with their widths (`Emits`), whatever it does to the LZW registers and the dictionary meanwhile. -/

namespace Sys2Proof.Machine

/-! The integer that codes form, in two parts (R133). -/

@[simp] theorem packedBits_nil : packedBits [] = 0 := rfl

@[simp] theorem packedBits_cons (w : Nat × Nat) (ws : List (Nat × Nat)) :
    packedBits (w :: ws) = w.2 + packedBits ws := List.sum_cons

@[simp] theorem packedLsb_nil : packedLsb [] = 0 := rfl

@[simp] theorem packedLsb_cons (w : Nat × Nat) (ws : List (Nat × Nat)) :
    packedLsb (w :: ws) = w.1 % 2 ^ w.2 + 2 ^ w.2 * packedLsb ws := rfl

theorem packedBits_append (ws vs : List (Nat × Nat)) : packedBits (ws ++ vs) = packedBits ws + packedBits vs := by
  simp [packedBits]

theorem packedLsb_append (ws vs : List (Nat × Nat)) :
    packedLsb (ws ++ vs) = packedLsb ws + 2 ^ packedBits ws * packedLsb vs := by
  induction ws with
  | nil => simp
  | cons w ws ih =>
    rw [List.cons_append, packedLsb_cons, packedLsb_cons, packedBits_cons, ih, pow_add]
    ring

/-! The packers do not see the registers and the dictionary of the unit (20_memory.md R63). -/

/-- `s` with other LZW registers and another dictionary. -/
def State.withUnit (s : State) (l : LzwRegs) (h : Space HSlot) : State :=
  (s.withLzw l).withMem (s.mem.withHtab h)

@[simp] theorem State.withUnit_lzw (s : State) (l : LzwRegs) (h : Space HSlot) : (s.withUnit l h).lzw = l := rfl
@[simp] theorem State.withUnit_htab (s : State) (l : LzwRegs) (h : Space HSlot) : (s.withUnit l h).mem.htab = h := rfl
@[simp] theorem State.withUnit_bp (s : State) (l : LzwRegs) (h : Space HSlot) : (s.withUnit l h).bp = s.bp := rfl
@[simp] theorem State.withUnit_pkCnt (s : State) (l : LzwRegs) (h : Space HSlot) :
    (s.withUnit l h).pkCnt = s.pkCnt := rfl
@[simp] theorem State.withUnit_self (s : State) : s.withUnit s.lzw s.mem.htab = s := rfl

theorem GifReady.withUnit {s : State} (hs : GifReady s) (l : LzwRegs) (h : Space HSlot) : GifReady (s.withUnit l h) :=
  ⟨hs.acc, hs.packet, hs.accepts⟩

theorem PackFrame.withUnit {s t : State} (hf : PackFrame s t) (l : LzwRegs) (h : Space HSlot) :
    PackFrame (s.withUnit l h) (t.withUnit l h) := (congrArg (State.withUnit · l h) hf).trans rfl

theorem Packs.withUnit {c n : Nat} {s t : State} (hp : Packs c n s t) (l : LzwRegs) (h : Space HSlot) :
    Packs c n (s.withUnit l h) (t.withUnit l h) where
  frame := hp.frame.withUnit l h
  delivered := hp.delivered
  buffered := hp.buffered
  acc := hp.acc
  cnt := hp.cnt
  stored := hp.stored
  ready := hp.ready.withUnit l h

/-- From `s` to `t` the codes `ws`, each a value with its width, went to the bit-packer (R154); of the rest of the state
only the LZW registers and the dictionary may differ. -/
def Emits (ws : List (Nat × Nat)) (s t : State) : Prop :=
  Packs (packedLsb ws) (packedBits ws) (s.withUnit t.lzw t.mem.htab) t

theorem emits_nil {s : State} (hs : GifReady s) : Emits [] s s := packs_nil hs

theorem Emits.withUnit {ws : List (Nat × Nat)} {s t : State} (h : Emits ws s t) (l : LzwRegs) (d : Space HSlot) :
    Emits ws s (t.withUnit l d) := Packs.withUnit h l d

theorem Emits.trans {ws vs : List (Nat × Nat)} {s t u : State} (h : Emits ws s t) (h' : Emits vs t u) :
    Emits (ws ++ vs) s u := by
  unfold Emits
  rw [packedLsb_append, packedBits_append]
  exact Packs.trans (Packs.withUnit h u.lzw u.mem.htab) h'

/-! What each procedure of the unit leaves when it runs to its end. -/

/-- `EmitCode(c)` writes `c` at the width in force (R154). -/
theorem emitCode_emits {c : Nat} {s t : State} (hs : GifReady s) (h : emitCode c s = .done t) :
    Emits [(c, s.lzw.nBits.toNat)] s t := by
  have hn : s.lzw.nBits.toNat ≤ 16 := Nat.le_of_lt s.lzw.nBits.isLt
  obtain ⟨u, hu, hpacks⟩ := bpWrite_packs c hn hs
  obtain ⟨v, hv, -, rfl⟩ := (emitCode_ends c s).done h
  cases hu.symm.trans hv
  exact hpacks.withUnit _ _

/-- `ResetDictionary` writes the clear code (R159). -/
theorem resetDictionary_emits {s t : State} (hs : GifReady s) (h : resetDictionary s = .done t) :
    Emits [(clearCode s.lzw, s.lzw.nBits.toNat)] s t := by
  have hready := hs.withUnit { s.lzw with freeEnt := BitVec.ofNat 13 (firstCode s.lzw) } []
  have hcode := emitCode_emits hready h
  exact hcode

/-- The registers of a stream that LZW.START has opened (R153). -/
def openedRegs (b : Nat) (p : BitVec 12) : LzwRegs :=
  { active := true, havePrefix := false, initBits := BitVec.ofNat 4 b, nBits := BitVec.ofNat 4 b,
    freeEnt := BitVec.ofNat 13 (2 ^ (b - 1) + 2), prefixCode := p }

/-- `LZW.START` after its checks: the registers and the dictionary (R153). -/
theorem openStream_unit {b : Nat} {s t : State} (h : openStream b s = .done t) :
    t.lzw = openedRegs b s.lzw.prefixCode ∧ t.mem.htab = [] := by
  obtain ⟨-, hl, hh⟩ := emitCode_eq_done h
  refine ⟨?_, hh⟩
  rw [hl]
  simp only [State.withPkCnt_lzw, State.withBp_lzw, State.withMem_lzw, State.withLzw_lzw, nextWidth_clearCode]
  rfl

/-- `s` with empty packers, as LZW.START makes them (R153). -/
def State.withFreshPackers (s : State) : State := (s.withBp { acc := 0, cnt := 0 }).withPkCnt 0

@[simp] theorem State.withFreshPackers_bp (s : State) : s.withFreshPackers.bp = { acc := 0, cnt := 0 } := rfl
@[simp] theorem State.withFreshPackers_pkCnt (s : State) : s.withFreshPackers.pkCnt = 0 := rfl
@[simp] theorem State.withFreshPackers_out (s : State) : s.withFreshPackers.out = s.out := rfl

theorem bufferedBytes_withFreshPackers (s : State) : bufferedBytes s.withFreshPackers = [] := bufferedBytes_of_zero rfl

theorem packedBytes_withFreshPackers (c n : Nat) (s : State) :
    packedBytes c n s.withFreshPackers = bytesLsb c (n / 8) := by
  rw [packedBytes, bufferedBytes_withFreshPackers]
  simp [packedAbove, State.withFreshPackers]

theorem gifReady_withFreshPackers {s : State} (ha : SinkAccepts s) : GifReady s.withFreshPackers :=
  ⟨accOk_zero, packetOk_of_zero rfl, ha⟩

/-- `LZW.START` after its checks: the clear code into fresh packers, whatever was in the old ones (R153). -/
theorem openStream_emits {b : Nat} (hb : b ≤ 9) {s : State} (ha : SinkAccepts s) :
    ∃ t, openStream b s = .done t ∧ Emits [(2 ^ (b - 1), b)] s.withFreshPackers t := by
  have hwidth : (BitVec.ofNat 4 b).toNat = b := Nat.mod_eq_of_lt (by omega)
  have hready := (gifReady_withFreshPackers ha).withUnit (openedRegs b s.lzw.prefixCode) []
  obtain ⟨t, ht⟩ := (emitCode_completes clearCode).ends hready
  have hcode : Emits [(2 ^ ((BitVec.ofNat 4 b).toNat - 1), (BitVec.ofNat 4 b).toNat)] _ t := emitCode_emits hready ht
  rw [hwidth] at hcode
  exact ⟨t, ht, hcode⟩

/-- The not-found step while a code is left: the old match is written, the pair inserted (R156, R158). -/
theorem startNewMatch_of_room {c : Byte} {j : Nat} {s t : State} (hj : j < 5003)
    (hfree : s.lzw.freeEnt.toNat < 4096) (h : startNewMatch c j s = .done t) :
    t.lzw = { s.lzw with nBits := nextWidth s.lzw.prefixCode.toNat s.lzw,
                         freeEnt := BitVec.ofNat 13 (s.lzw.freeEnt.toNat + 1),
                         prefixCode := BitVec.ofNat 12 c.toNat } ∧
      t.mem.htab = spaceWrite s.mem.htab j
        { key := BitVec.ofNat 20 (hashKey c s.lzw.prefixCode), code := BitVec.ofNat 12 s.lzw.freeEnt.toNat } ∧
      (GifReady s → Emits [(s.lzw.prefixCode.toNat, s.lzw.nBits.toNat)] s t) := by
  obtain ⟨u, hu, hrest⟩ := Res.andThen_eq_done h
  obtain ⟨v, hv, hprefix⟩ := Res.andThen_eq_done hrest
  cases hprefix
  obtain ⟨-, hl, hh⟩ := emitCode_eq_done hu
  have hroom : u.lzw.freeEnt.toNat < maxCodes := by rw [hl]; exact hfree
  rw [if_pos hroom, insertPair_of_lt hj] at hv
  cases hv
  refine ⟨?_, ?_, fun hs => (emitCode_emits hs hu).withUnit _ _⟩
  · simp [hl]
  · simp [hl, hh]

/-- The not-found step when no code is left: the old match and the clear code are written, the dictionary starts anew
(R156, R159). -/
theorem startNewMatch_of_full {c : Byte} {j : Nat} {s t : State} (hfree : s.lzw.freeEnt.toNat = 4096)
    (h : startNewMatch c j s = .done t) :
    t.lzw = { s.lzw with nBits := s.lzw.initBits, freeEnt := BitVec.ofNat 13 (firstCode s.lzw),
                         prefixCode := BitVec.ofNat 12 c.toNat } ∧
      t.mem.htab = [] ∧
      (GifReady s → Emits [(s.lzw.prefixCode.toNat, s.lzw.nBits.toNat),
        (clearCode s.lzw, (nextWidth s.lzw.prefixCode.toNat s.lzw).toNat)] s t) := by
  obtain ⟨u, hu, hrest⟩ := Res.andThen_eq_done h
  obtain ⟨v, hv, hprefix⟩ := Res.andThen_eq_done hrest
  cases hprefix
  obtain ⟨-, hl, -⟩ := emitCode_eq_done hu
  have hfull : ¬ u.lzw.freeEnt.toNat < maxCodes := by rw [hl]; exact Nat.not_lt_of_ge (Nat.le_of_eq hfree.symm)
  rw [if_neg hfull] at hv
  obtain ⟨-, hl', hh'⟩ := resetDictionary_eq_done hv
  refine ⟨?_, hh', fun hs => ?_⟩
  · rw [State.withLzw_lzw, hl', hl]
    rfl
  · have hmatch := emitCode_emits hs hu
    have hclear := resetDictionary_emits hmatch.ready hv
    rw [hl] at hclear
    exact (hmatch.trans hclear).withUnit _ _

/-- What `LZW.END` does after its two codes: the packers are flushed, the terminator written, the stream closed
(R160). -/
def endStream (s : State) : Res :=
  (bpFlush s).andThen (fun v => (sinkWrite 0 v).andThen (fun x => .done (x.withLzw { x.lzw with active := false })))

theorem closeStream_eq (s : State) : closeStream s =
    (emitCode s.lzw.prefixCode.toNat s).andThen (fun t => (emitCode (eofCode t.lzw) t).andThen endStream) := rfl

theorem endStream_unit {s t : State} (h : endStream s = .done t) :
    t.lzw = { s.lzw with active := false } ∧ t.mem.htab = s.mem.htab := by
  obtain ⟨v, hv, hrest⟩ := Res.andThen_eq_done h
  obtain ⟨x, hx, hclose⟩ := Res.andThen_eq_done hrest
  cases hclose
  cases sinkWrite_eq_done hx
  obtain ⟨hframe, -⟩ := (bpFlush_packEnds s).done hv
  refine ⟨?_, ?_⟩
  · rw [← hframe.lzw]; rfl
  · show v.mem.htab = s.mem.htab
    rw [hframe.mem]; rfl

/-- The end code is no clear code (R25). -/
theorem eofCode_ne_clearCode (l : LzwRegs) : eofCode l ≠ clearCode l := Nat.succ_ne_self _

/-- The width after a code that is no clear code, as the register holds it (R155). -/
theorem nextWidth_eq_widened {c : Nat} {l : LzwRegs} (hc : c ≠ clearCode l) :
    nextWidth c l = BitVec.ofNat 4 (widened l.freeEnt.toNat l.nBits.toNat) := by
  rw [← nextWidth_of_ne hc, BitVec.ofNat_toNat, BitVec.setWidth_eq]

/-- `LZW.END` after its checks, up to the flush: the last match and the end code (R160). -/
theorem closeStream_codes {s t : State} (hprefix : s.lzw.prefixCode.toNat ≠ clearCode s.lzw)
    (h : closeStream s = .done t) :
    ∃ u, endStream u = .done t ∧ u.mem.htab = s.mem.htab ∧
      u.lzw = { s.lzw with nBits := BitVec.ofNat 4 (widened s.lzw.freeEnt.toNat
        (widened s.lzw.freeEnt.toNat s.lzw.nBits.toNat)) } ∧
      (GifReady s → Emits [(s.lzw.prefixCode.toNat, s.lzw.nBits.toNat),
        (eofCode s.lzw, widened s.lzw.freeEnt.toNat s.lzw.nBits.toNat)] s u) := by
  rw [closeStream_eq] at h
  obtain ⟨v, hv, hrest⟩ := Res.andThen_eq_done h
  obtain ⟨u, hu, hend⟩ := Res.andThen_eq_done hrest
  obtain ⟨-, hl, hh⟩ := emitCode_eq_done hv
  obtain ⟨-, hl', hh'⟩ := emitCode_eq_done hu
  have hwidth : v.lzw.nBits.toNat = widened s.lzw.freeEnt.toNat s.lzw.nBits.toNat := by
    rw [hl, nextWidth_of_ne hprefix]
  have heof : eofCode v.lzw = eofCode s.lzw := by rw [hl]; rfl
  refine ⟨u, hend, hh'.trans hh, ?_, fun hs => ?_⟩
  · rw [hl', nextWidth_eq_widened (eofCode_ne_clearCode _), hwidth, hl]
  · have hmatch := emitCode_emits hs hv
    have hlast := emitCode_emits hmatch.ready hu
    rw [hwidth, heof] at hlast
    exact hmatch.trans hlast

/-- `BPFlush` after a number was packed stores one byte more where bits were left pending, and no other (R132, R134). -/
theorem Packs.flush_stored {c n : Nat} {s t u : State} (h : Packs c n s t) (hu : bpFlush t = .done u) {k : Nat}
    (hk : ¬ packetIndex s.pkCnt.toNat ((s.bp.cnt.toNat + n + 7) / 8) k) :
    spaceRead u.mem.pkbuf k = spaceRead s.mem.pkbuf k := by
  have hcnt := h.cnt
  have hwhole : (s.bp.cnt.toNat + n + 7) / 8 = (s.bp.cnt.toNat + n) / 8 + (t.bp.cnt.toNat + 7) / 8 := by omega
  rw [hwhole] at hk
  have hpending : k ≠ t.pkCnt.toNat ∨ t.bp.cnt = 0 := by
    by_contra hnot
    obtain ⟨rfl, hbits⟩ : k = t.pkCnt.toNat ∧ t.bp.cnt ≠ 0 := by tauto
    have hne : t.bp.cnt.toNat ≠ 0 := fun h0 => hbits (BitVec.eq_of_toNat_eq (by simpa using h0))
    exact hk ⟨(s.bp.cnt.toNat + n) / 8, by omega, h.pkCnt⟩
  rw [bpFlush_pkbuf_frame hu hpending]
  exact h.stored k fun hj => hk (packetIndex_add_left _ hj)

/-- The stream that ends after the codes `ws`: everything has left the packers, the terminator behind it (R160). -/
structure Closes (ws : List (Nat × Nat)) (s t : State) : Prop where
  frame : PackFrame (s.withUnit t.lzw t.mem.htab) t
  bp : t.bp = { acc := 0, cnt := 0 }
  pkCnt : t.pkCnt = 0
  delivered :
    let bytes := bufferedBytes s ++
      bytesLsb (s.bp.acc.toNat + packedLsb ws * 2 ^ s.bp.cnt.toNat) ((s.bp.cnt.toNat + packedBits ws + 7) / 8)
    Delivered s t (packetOut bytes ++ lastBlock (packetLeft bytes) ++ [0])
  stored : ∀ k, ¬ packetIndex s.pkCnt.toNat ((s.bp.cnt.toNat + packedBits ws + 7) / 8) k →
    spaceRead t.mem.pkbuf k = spaceRead s.mem.pkbuf k

theorem Emits.closes {ws : List (Nat × Nat)} {s u t : State} (h : Emits ws s u) (ht : endStream u = .done t) :
    Closes ws s t := by
  obtain ⟨v, hv, hrest⟩ := Res.andThen_eq_done ht
  obtain ⟨x, hx, hclose⟩ := Res.andThen_eq_done hrest
  cases hclose
  cases sinkWrite_eq_done hx
  obtain ⟨w, hw, hbp, hcnt, hbytes⟩ := Packs.flush h
  cases hv.symm.trans hw
  obtain ⟨hflush, -⟩ := (bpFlush_packEnds u).done hv
  have hterminator : Delivered v ((v.withOut (v.out ++ [0])).withSink v.sink.tail) [0] := ⟨rfl, List.drop_one.symm⟩
  refine ⟨?_, hbp, hcnt, Delivered.trans hbytes hterminator, fun k hk => Packs.flush_stored h hv hk⟩
  have hopen := (Packs.frame h).trans (hflush.trans (packFrame_withOutSink v (v.out ++ [0]) v.sink.tail))
  exact hopen.withUnit { v.lzw with active := false } v.mem.htab

end Sys2Proof.Machine
end

section
/-! PROOFS. The dictionary as the probe sees it (41_lzw.md R157, R164, R165). -/

namespace Sys2Proof.Machine

/-- The dictionary holds the pair of the symbol `c` and the code `p` (R166). -/
def Held (htab : Space HSlot) (c : Byte) (p : BitVec 12) : Prop :=
  ∃ k slot, spaceRead htab k = some slot ∧ slot.key.toNat = hashKey c p

/-- The hash keys of distinct pairs are distinct (R156). -/
theorem hashKey_inj {c d : Byte} {p q : BitVec 12} : hashKey c p = hashKey d q ↔ c = d ∧ p = q := by
  refine ⟨fun h => ?_, fun ⟨hc, hp⟩ => by rw [hc, hp]⟩
  have hp := p.isLt
  have hq := q.isLt
  unfold hashKey keyShift at h
  exact ⟨BitVec.eq_of_toNat_eq (by omega), BitVec.eq_of_toNat_eq (by omega)⟩

/-- A hash key fits the 20 bits of a slot's key (R27, R156). -/
theorem toNat_hashKey (c : Byte) (p : BitVec 12) : (BitVec.ofNat 20 (hashKey c p)).toNat = hashKey c p := by
  have := c.isLt
  have := p.isLt
  exact Nat.mod_eq_of_lt (by unfold hashKey keyShift; omega)

/-- A pair that a slot holds is found in that slot (R28 (c)). -/
theorem probe_of_read {s : State} (ha : s.lzw.active = true) (hd : DictOk s) {c : Byte} {p : BitVec 12} {j : Nat}
    {slot : HSlot} (hread : spaceRead s.mem.htab j = some slot) (hkey : slot.key.toNat = hashKey c p) :
    probe s.mem.htab c p = .found j slot.code := by
  obtain ⟨-, -, hfound⟩ := hd ha
  have hslot : BitVec.ofNat 20 (hashKey c p) = slot.key := by rw [← hkey, BitVec.ofNat_toNat, BitVec.setWidth_eq]
  rw [← probeKey_hashKey, hslot]
  exact hfound (j, slot) (mem_of_spaceRead hread)

/-- A probe answers a slot exactly when that slot holds the pair (R157, R164). -/
theorem probe_found_iff {s : State} (ha : s.lzw.active = true) (hd : DictOk s) {c : Byte} {p : BitVec 12} {j : Nat}
    {code : BitVec 12} : probe s.mem.htab c p = .found j code ↔
      ∃ slot, spaceRead s.mem.htab j = some slot ∧ slot.code = code ∧ slot.key.toNat = hashKey c p := by
  constructor
  · intro h
    obtain ⟨-, key, hread, hkey⟩ := (probe_spec s.mem.htab c p).1 j code h
    exact ⟨_, hread, rfl, hkey⟩
  · rintro ⟨slot, hread, rfl, hkey⟩
    exact probe_of_read ha hd hread hkey

/-- The table of an open stream is never full: at most 4090 codes for 5003 slots (R26 (d), R165). -/
theorem htab_length_lt {s : State} (ha : s.lzw.active = true) (hl : LzwOk s) : s.mem.htab.length < 5003 := by
  obtain ⟨-, -, ⟨-, hfree⟩, -, hlen, -⟩ := hl ha
  omega

/-- A probe for a pair that is not held ends on an empty slot (R157, R165). -/
theorem probe_of_not_held {s : State} (ha : s.lzw.active = true) (hl : LzwOk s) {c : Byte} {p : BitVec 12}
    (h : ¬ Held s.mem.htab c p) : ∃ j, probe s.mem.htab c p = .vacant j ∧ j < 5003 ∧ spaceRead s.mem.htab j = none := by
  obtain ⟨hfound, hvacant⟩ := probe_spec s.mem.htab c p
  cases hp : probe s.mem.htab c p with
  | found j code =>
    obtain ⟨-, key, hread, hkey⟩ := hfound j code hp
    exact absurd ⟨j, _, hread, hkey⟩ h
  | vacant j => exact ⟨j, rfl, hvacant j hp⟩
  | unending => exact absurd hp (probe_ne_unending (htab_length_lt ha hl) c p)

theorem not_held_iff {htab : Space HSlot} {c : Byte} {p : BitVec 12} : ¬ Held htab c p ↔
    ∀ k slot, spaceRead htab k = some slot → slot.key.toNat ≠ hashKey c p := by
  simp only [Held, not_exists, not_and, ne_eq]

/-- Settles O40: R28 says that a held pair is found, and a table with an empty slot ends every probe. -/
theorem probeFindsExactly : Obligations.ProbeFindsExactly := by
  intro s c p ha hl hd
  exact ⟨fun j code => probe_found_iff ha hd, fun h => probe_of_not_held ha hl (not_held_iff.mpr h)⟩

end Sys2Proof.Machine
end

section
/-! PROOFS. The commands of the LZW compressor, one by one (41_lzw.md R153, R156, R160). -/

namespace Sys2Proof.Machine

/-! A command whose checks pass runs its procedure. -/

theorem exec_lzwStart_of_done {b : Nat} {s t : State} (hb : 3 ≤ b) (hb' : b ≤ 9) (hidle : s.lzw.active = false)
    (h : openStream b s = .done t) : exec (.lzwStart b) s = .next t := by
  have hbits : initBitsOk b = true := decide_eq_true ⟨hb, hb'⟩
  show execLzwStart b s = _
  rw [execLzwStart, require_true (by rw [hidle]; rfl), require_true hbits, h, conclude_done]

theorem exec_lzwSym_of_done {c : Byte} {s t : State} (ha : s.lzw.active = true) (hc : c.toNat < clearCode s.lzw)
    (h : takeSymbol c s = .done t) : exec (.lzwSym c) s = .next t := by
  show execLzwSym c s = _
  rw [execLzwSym, require_true ha, require_true (decide_eq_true hc), h, conclude_done]

theorem exec_lzwEnd_of_done {s t : State} (ha : s.lzw.active = true) (hp : s.lzw.havePrefix = true)
    (h : closeStream s = .done t) : exec .lzwEnd s = .next t := by
  show execLzwEnd s = _
  rw [execLzwEnd, require_true ha, require_true hp, h, conclude_done]

/-! The branches of `LZW.SYM` (R156). -/

theorem takeSymbol_first {c : Byte} {s : State} (hp : s.lzw.havePrefix = false) : takeSymbol c s =
    .done (s.withLzw { s.lzw with prefixCode := BitVec.ofNat 12 c.toNat, havePrefix := true }) := by
  simp [takeSymbol, hp]

theorem takeSymbol_found {c : Byte} {s : State} (hp : s.lzw.havePrefix = true) {j : Nat} {code : BitVec 12}
    (hj : probe s.mem.htab c s.lzw.prefixCode = .found j code) :
    takeSymbol c s = .done (s.withLzw { s.lzw with prefixCode := code }) := by
  simp [takeSymbol, hp, hj]

theorem takeSymbol_vacant {c : Byte} {s : State} (hp : s.lzw.havePrefix = true) {j : Nat}
    (hj : probe s.mem.htab c s.lzw.prefixCode = .vacant j) : takeSymbol c s = startNewMatch c j s := by
  simp [takeSymbol, hp, hj]

/-- Settles O35: the first symbol only loads the match. -/
theorem lzwSymFirstSymbol : Obligations.LzwSymFirstSymbol := fun _ _ ha hp hc =>
  exec_lzwSym_of_done ha hc (takeSymbol_first hp)

/-- Settles O36: the probe finds the pair, and its code is the new match. -/
theorem lzwSymExtendsMatch : Obligations.LzwSymExtendsMatch := fun _ _ _ _ ha hp hd hc hread hkey =>
  exec_lzwSym_of_done ha hc (takeSymbol_found hp (probe_of_read ha hd hread hkey))

/-- A procedure that wrote nothing takes none of the sink's answers. -/
theorem Torn.done_of_quiet {k : State → Res} (hk : Torn k) {s t : State} (h : k (s.withSink []) = .done t)
    (hout : t.out = s.out) : k s = .done (t.withSink s.sink) := by
  obtain ⟨bs, hw⟩ := hk _ t h
  obtain rfl : bs = [] := List.append_cancel_left (hw.out.symm.trans (hout.trans (List.append_nil _).symm))
  exact hw.taken s.sink (by simp)

/-- The phase of a stream just opened (R151). -/
theorem lzwPhase_openedRegs {b : Nat} (hb : b ≤ 9) (p : BitVec 12) : lzwPhase (openedRegs b p) = .cleared := by
  obtain ⟨-, -, hfree⟩ := openedRegs_toNat (l := openedRegs b p) hb rfl
  rw [lzwPhase, if_pos (show (openedRegs b p).active = true from rfl), if_pos hfree]

/-- Settles O34: from fresh packers the clear code fills at most one byte of the packet buffer, so nothing reaches the
sink, whatever its answers. -/
theorem lzwStartOpensStream : Obligations.LzwStartOpensStream := by
  intro b s hidle hb hb'
  obtain ⟨t, ht, hcode⟩ := openStream_emits hb' (s := s.withSink []) (fun _ hr => nomatch hr)
  obtain ⟨hl, hh⟩ := openStream_unit ht
  have hbits : packedBits [(2 ^ (b - 1), b)] = b := rfl
  have hvalue : packedLsb [(2 ^ (b - 1), b)] = 2 ^ (b - 1) := by
    have : 2 ^ (b - 1) < 2 ^ b := Nat.pow_lt_pow_right (by norm_num) (by omega)
    simp [Nat.mod_eq_of_lt this]
  unfold Emits at hcode
  rw [hbits, hvalue] at hcode
  obtain ⟨hframe, ⟨hout, -⟩, hbuffered, hacc, hcnt, hstored, -⟩ := hcode
  have hbytes : packedBytes (2 ^ (b - 1)) b ((s.withSink []).withFreshPackers.withUnit t.lzw t.mem.htab) =
      bytesLsb (2 ^ (b - 1)) (b / 8) := packedBytes_withFreshPackers (2 ^ (b - 1)) b (s.withSink [])
  have hshort : (bytesLsb (2 ^ (b - 1)) (b / 8)).length < 255 := by rw [bytesLsb_length]; omega
  rw [hbytes, packetOut_of_short hshort, List.append_nil] at hout
  rw [hbytes, packetLeft_of_short hshort] at hbuffered
  have hquiet := (openStream_torn b).done_of_quiet ht hout
  refine ⟨t.withSink s.sink, exec_lzwStart_of_done hb hb' hidle hquiet, hl, ?_, fun k => ?_, ?_, ?_, hbuffered,
    fun k hk => hstored k (by simpa using hk), ?_⟩
  · show lzwPhase t.lzw = _
    rw [hl, lzwPhase_openedRegs hb']
  · show spaceRead t.mem.htab k = none
    rw [hh, spaceRead_nil]
  · simpa [packedAbove] using hacc
  · simpa using hcnt
  · unfold PackFrame at hframe
    rw [hout] at hframe
    exact congrArg (State.withSink · s.sink) hframe

end Sys2Proof.Machine
end

section
/-! PROOFS. LZW.SYM on a new pair, and LZW.END (41_lzw.md R155, R156, R159, R160). -/

namespace Sys2Proof.Machine

/-- A match is never the clear code (R26 (b)). -/
theorem prefixCode_ne_clearCode {s : State} (ha : s.lzw.active = true) (hp : s.lzw.havePrefix = true) (hl : LzwOk s) :
    s.lzw.prefixCode.toNat ≠ clearCode s.lzw := by
  obtain ⟨-, -, -, hprefix, -⟩ := hl ha
  exact (hprefix hp).2.1

/-- LZW.SYM on a pair that is not held completes, by the not-found step (R156). -/
theorem takeSymbol_of_not_held {c : Byte} {s : State} (ha : s.lzw.active = true) (hp : s.lzw.havePrefix = true)
    (hl : LzwOk s) (hs : GifReady s) (h : ¬ Held s.mem.htab c s.lzw.prefixCode) :
    ∃ t j, takeSymbol c s = .done t ∧ startNewMatch c j s = .done t ∧
      probe s.mem.htab c s.lzw.prefixCode = .vacant j ∧ j < 5003 ∧ spaceRead s.mem.htab j = none := by
  obtain ⟨j, hj, hlt, hempty⟩ := probe_of_not_held ha hl h
  obtain ⟨t, ht⟩ := takeSymbol_ends c (htab_length_lt ha hl) hs
  exact ⟨t, j, ht, takeSymbol_vacant hp hj ▸ ht, hj, hlt, hempty⟩

/-- Settles O37: the not-found step while a code is left (`startNewMatch_of_room`). -/
theorem lzwSymAddsPair : Obligations.LzwSymAddsPair := by
  intro c s ha hp hl hd hacc hpacket hsink hc hfree hnew
  have hs : GifReady s := ⟨hacc, hpacket, hsink⟩
  obtain ⟨t, j, ht, hnot, hj, hlt, hempty⟩ := takeSymbol_of_not_held ha hp hl hs (not_held_iff.mpr hnew)
  obtain ⟨hregs, hdict, hemits⟩ := startNewMatch_of_room hlt hfree hnot
  have hcode := hemits hs
  refine ⟨t, j, exec_lzwSym_of_done ha hc ht, hj, hlt, hempty, fun k => ?_, ?_, hcode.acc, hcode.cnt, hcode.buffered,
    hcode.delivered, hcode.stored, hcode.frame⟩
  · rw [hdict, spaceRead_write]
    rfl
  · rw [hregs, nextWidth_eq_widened (prefixCode_ne_clearCode ha hp hl), BitVec.ofNat_add, BitVec.ofNat_toNat,
      BitVec.setWidth_eq]
    rfl

/-- With every code assigned the width is 12 bits (R26 (e)). -/
theorem full_width {s : State} (ha : s.lzw.active = true) (hl : LzwOk s) (hfull : s.lzw.freeEnt.toNat = 4096) :
    s.lzw.nBits.toNat = 12 := by
  obtain ⟨-, ⟨-, hwidth⟩, -, -, -, hroom, -⟩ := hl ha
  by_contra hne
  have hlt : s.lzw.nBits.toNat < 12 := by omega
  have h := hroom hlt
  have h2 : 2 ^ s.lzw.nBits.toNat ≤ 2 ^ 11 := Nat.pow_le_pow_right (by norm_num) (by omega)
  omega

/-- Settles O38: the not-found step when no code is left (`startNewMatch_of_full`). -/
theorem lzwSymResetsDictionary : Obligations.LzwSymResetsDictionary := by
  intro c s ha hp hl hd hacc hpacket hsink hc hfull hnew
  have hs : GifReady s := ⟨hacc, hpacket, hsink⟩
  obtain ⟨t, j, ht, hnot, -⟩ := takeSymbol_of_not_held ha hp hl hs (not_held_iff.mpr hnew)
  obtain ⟨hregs, hdict, hemits⟩ := startNewMatch_of_full hfull hnot
  have hcodes := hemits hs
  have hn : s.lzw.nBits.toNat = 12 := full_width ha hl hfull
  have hstays : widened s.lzw.freeEnt.toNat 12 = 12 := if_neg (by omega)
  rw [nextWidth_of_ne (prefixCode_ne_clearCode ha hp hl), hn, hstays] at hcodes
  exact ⟨t, exec_lzwSym_of_done ha hc ht, fun k => by rw [hdict, spaceRead_nil], hregs, hcodes.acc, hcodes.cnt,
    hcodes.buffered, hcodes.delivered, hcodes.stored, hcodes.frame⟩

/-- Settles O39: two codes, and the end of the stream (`closeStream_codes`, `Emits.closes`). -/
theorem lzwEndClosesStream : Obligations.LzwEndClosesStream := by
  intro s ha hp hl hacc hpacket hsink
  have hs : GifReady s := ⟨hacc, hpacket, hsink⟩
  obtain ⟨t, ht⟩ := closeStream_completes.ends hs
  obtain ⟨u, hend, hdict, hregs, hemits⟩ := closeStream_codes (prefixCode_ne_clearCode ha hp hl) ht
  obtain ⟨hregs', hdict'⟩ := endStream_unit hend
  obtain ⟨hframe, hbp, hcnt, hdelivered, hstored⟩ := (hemits hs).closes hend
  simp only [packedBits_cons, packedBits_nil, Nat.add_zero, ← Nat.add_assoc] at hdelivered hstored
  refine ⟨t, exec_lzwEnd_of_done ha hp ht, ?_, hbp, hcnt, hdelivered, hstored, ?_⟩
  · rw [hregs', hregs]
  · rw [hdict', hdict] at hframe
    exact hframe

end Sys2Proof.Machine
end

section
/-! PROOFS. The logical states of the LZW unit (41_lzw.md R151, R152). -/

namespace Sys2Proof.Machine

theorem lzwPhase_of_active {l : LzwRegs} (ha : l.active = true) :
    lzwPhase l = if l.freeEnt.toNat = firstCode l then .cleared
      else if l.freeEnt.toNat = 4096 then .full else .accumulating := if_pos ha

theorem lzwPhase_idle_iff {l : LzwRegs} : lzwPhase l = .idle ↔ l.active = false := by
  cases ha : l.active with
  | false => simp [lzwPhase, ha]
  | true => rw [lzwPhase_of_active ha]; split_ifs <;> simp

theorem lzwPhase_cleared_iff {l : LzwRegs} (ha : l.active = true) :
    lzwPhase l = .cleared ↔ l.freeEnt.toNat = firstCode l := by
  rw [lzwPhase_of_active ha]; split_ifs <;> simp_all

theorem lzwPhase_full_iff {l : LzwRegs} (ha : l.active = true) :
    lzwPhase l = .full ↔ l.freeEnt.toNat ≠ firstCode l ∧ l.freeEnt.toNat = 4096 := by
  rw [lzwPhase_of_active ha]; split_ifs <;> simp_all

theorem lzwPhase_accumulating_iff {l : LzwRegs} (ha : l.active = true) :
    lzwPhase l = .accumulating ↔ l.freeEnt.toNat ≠ firstCode l ∧ l.freeEnt.toNat ≠ 4096 := by
  rw [lzwPhase_of_active ha]; split_ifs <;> simp_all

/-- A stream whose dictionary has no entry holds no pair (R26 (d)). -/
theorem not_held_of_cleared {s : State} (ha : s.lzw.active = true) (hl : LzwOk s)
    (hfirst : s.lzw.freeEnt.toNat = firstCode s.lzw) (c : Byte) (p : BitVec 12) : ¬ Held s.mem.htab c p := by
  obtain ⟨-, -, -, -, hlen, -⟩ := hl ha
  rw [hfirst, Nat.sub_self] at hlen
  rintro ⟨k, slot, hread, -⟩
  rw [List.length_eq_zero_iff.mp hlen] at hread
  cases hread

/-! What each command that completes without a fault ran. -/

theorem lzwStart_eq_done {b : Nat} {s t : State} (h : exec (.lzwStart b) s = .next t) (ht : Healthy t) :
    s.lzw.active = false ∧ (3 ≤ b ∧ b ≤ 9) ∧ openStream b s = .done t := by
  have hrun : require (!s.lzw.active) .illegalSequence
      (require (initBitsOk b) .invalidParameter (openStream b)) s = .done t :=
    RunsAs.eq_done (i := .lzwStart b) (fun _ => rfl) h ht
  obtain ⟨hidle, hrest⟩ := require_eq_done hrun
  obtain ⟨hb, hdone⟩ := require_eq_done hrest
  exact ⟨by simpa using hidle, of_decide_eq_true hb, hdone⟩

theorem lzwSym_eq_done {c : Byte} {s t : State} (h : exec (.lzwSym c) s = .next t) (ht : Healthy t) :
    s.lzw.active = true ∧ takeSymbol c s = .done t := by
  have hrun : require s.lzw.active .illegalSequence
      (require (decide (c.toNat < clearCode s.lzw)) .invalidSymbol (takeSymbol c)) s = .done t :=
    RunsAs.eq_done (i := .lzwSym c) (fun _ => rfl) h ht
  obtain ⟨ha, hrest⟩ := require_eq_done hrun
  obtain ⟨-, hdone⟩ := require_eq_done hrest
  exact ⟨ha, hdone⟩

theorem lzwEnd_eq_done {s t : State} (h : exec .lzwEnd s = .next t) (ht : Healthy t) :
    s.lzw.active = true ∧ closeStream s = .done t := by
  have hrun : require s.lzw.active .illegalSequence (require s.lzw.havePrefix .emptyStream closeStream) s = .done t :=
    RunsAs.eq_done (i := .lzwEnd) (fun _ => rfl) h ht
  obtain ⟨ha, hrest⟩ := require_eq_done hrun
  obtain ⟨-, hdone⟩ := require_eq_done hrest
  exact ⟨ha, hdone⟩

/-! The rows of R152. -/

/-- LZW.SYM on a first symbol or a held pair keeps the phase (R156). -/
theorem takeSymbol_keeps_phase {c : Byte} {s t : State} (ha : s.lzw.active = true) (hd : DictOk s)
    (hold : s.lzw.havePrefix = false ∨ s.lzw.havePrefix = true ∧ Held s.mem.htab c s.lzw.prefixCode)
    (h : takeSymbol c s = .done t) : lzwPhase t.lzw = lzwPhase s.lzw ∧ t.lzw.havePrefix = true := by
  rcases hold with hp | ⟨hp, j, slot, hread, hkey⟩
  · rw [takeSymbol_first hp] at h
    cases h
    exact ⟨rfl, rfl⟩
  · rw [takeSymbol_found hp (probe_of_read ha hd hread hkey)] at h
    cases h
    exact ⟨rfl, hp⟩

/-- LZW.SYM on a new pair is the not-found step (R156). -/
theorem startNewMatch_of_takeSymbol {c : Byte} {s t : State} (ha : s.lzw.active = true) (hl : LzwOk s)
    (hp : s.lzw.havePrefix = true) (hnew : ¬ Held s.mem.htab c s.lzw.prefixCode) (h : takeSymbol c s = .done t) :
    ∃ j, j < 5003 ∧ startNewMatch c j s = .done t := by
  obtain ⟨j, hj, hlt, -⟩ := probe_of_not_held ha hl hnew
  exact ⟨j, hlt, takeSymbol_vacant hp hj ▸ h⟩

/-- LZW.SYM on a new pair while a code is left assigns one code (R158). -/
theorem takeSymbol_assigns {c : Byte} {s t : State} (ha : s.lzw.active = true) (hl : LzwOk s)
    (hp : s.lzw.havePrefix = true) (hnew : ¬ Held s.mem.htab c s.lzw.prefixCode)
    (hfree : s.lzw.freeEnt.toNat < 4096) (h : takeSymbol c s = .done t) :
    t.lzw.active = true ∧ firstCode t.lzw = firstCode s.lzw ∧ t.lzw.freeEnt.toNat = s.lzw.freeEnt.toNat + 1 := by
  obtain ⟨j, hj, hnot⟩ := startNewMatch_of_takeSymbol ha hl hp hnew h
  obtain ⟨hregs, -⟩ := startNewMatch_of_room hj hfree hnot
  rw [hregs]
  exact ⟨ha, rfl, toNat_freeEnt_succ hfree⟩

/-- LZW.SYM on a new pair when no code is left clears the dictionary (R159). -/
theorem takeSymbol_clears {c : Byte} {s t : State} (ha : s.lzw.active = true) (hl : LzwOk s)
    (hp : s.lzw.havePrefix = true) (hnew : ¬ Held s.mem.htab c s.lzw.prefixCode)
    (hfull : s.lzw.freeEnt.toNat = 4096) (h : takeSymbol c s = .done t) : lzwPhase t.lzw = .cleared := by
  obtain ⟨j, -, hnot⟩ := startNewMatch_of_takeSymbol ha hl hp hnew h
  obtain ⟨hregs, -⟩ := startNewMatch_of_full hfull hnot
  obtain ⟨⟨-, hinit⟩, -⟩ := hl ha
  have hat : t.lzw.active = true := by rw [hregs]; exact ha
  rw [lzwPhase_cleared_iff hat, hregs]
  exact toNat_firstFree hinit

theorem closeStream_active {s t : State} (h : closeStream s = .done t) : t.lzw.active = false := by
  rw [closeStream_eq] at h
  obtain ⟨v, -, hrest⟩ := Res.andThen_eq_done h
  obtain ⟨u, -, hend⟩ := Res.andThen_eq_done hrest
  rw [(endStream_unit hend).1]

/-- Settles O41: FREE_ENT decides the phase, and moves only where a pair is new. -/
theorem phaseTransitions : Obligations.PhaseTransitions := by
  refine ⟨fun b s t _ h ht => ?_, fun s t _ h ht => ?_, fun c s t _ hl hd h ht => ?_⟩
  · obtain ⟨hidle, ⟨-, hb⟩, hdone⟩ := lzwStart_eq_done h ht
    rw [(openStream_unit hdone).1]
    exact ⟨lzwPhase_idle_iff.mpr hidle, lzwPhase_openedRegs hb _⟩
  · obtain ⟨ha, hdone⟩ := lzwEnd_eq_done h ht
    exact ⟨by simp [lzwPhase_idle_iff, ha], lzwPhase_idle_iff.mpr (closeStream_active hdone)⟩
  · obtain ⟨ha, hdone⟩ := lzwSym_eq_done h ht
    obtain ⟨⟨-, hinit⟩, -, ⟨hfirst, -⟩, -⟩ := hl ha
    have hsmall : firstCode s.lzw < 4095 := by
      have : 2 ^ (s.lzw.initBits.toNat - 1) ≤ 2 ^ 8 := Nat.pow_le_pow_right (by norm_num) (by omega)
      rw [firstCode_eq, clearCode]; omega
    have hkeeps := fun hold => takeSymbol_keeps_phase ha hd hold hdone
    refine ⟨by simp [lzwPhase_idle_iff, ha], fun hphase hp => ?_, fun hphase hp => ?_, fun hphase hp hheld => ?_,
      fun hphase hp hnew hfree => ?_, fun hphase hp hnew hfree => ?_, fun hphase hp hheld => ?_,
      fun hphase hp hnew => ?_⟩
    · rw [← hphase]
      exact hkeeps (.inl hp)
    · have hfree := (lzwPhase_cleared_iff ha).mp hphase
      have hnew := not_held_of_cleared ha hl hfree c s.lzw.prefixCode
      obtain ⟨hat, hfirstt, hnext⟩ := takeSymbol_assigns ha hl hp hnew (by omega) hdone
      exact ⟨hnew, (lzwPhase_accumulating_iff hat).mpr (by omega)⟩
    · rw [← hphase]
      exact (hkeeps (.inr ⟨hp, hheld⟩)).1
    · obtain ⟨hat, hfirstt, hnext⟩ := takeSymbol_assigns ha hl hp hnew (by omega) hdone
      exact (lzwPhase_accumulating_iff hat).mpr (by omega)
    · obtain ⟨hat, hfirstt, hnext⟩ := takeSymbol_assigns ha hl hp hnew (by omega) hdone
      exact (lzwPhase_full_iff hat).mpr (by omega)
    · rw [← hphase]
      exact (hkeeps (.inr ⟨hp, hheld⟩)).1
    · exact takeSymbol_clears ha hl hp hnew ((lzwPhase_full_iff ha).mp hphase).2 hdone

end Sys2Proof.Machine
end

section
/-! PROOFS. The compressor refines the abstract one (41_lzw.md R166): `Simulates` relates the registers and the
dictionary of an open stream to the abstract state, and one symbol of either keeps it. -/

namespace Sys2Proof.Machine

/-! The dictionary as a finite map from (code, symbol) pairs to codes. -/

/-- The dictionary holds the pair of the symbol `c` and the code `p`, with the code `code`. -/
def HeldAs (htab : Space HSlot) (c : Byte) (p : BitVec 12) (code : Nat) : Prop :=
  ∃ k slot, spaceRead htab k = some slot ∧ slot.key.toNat = hashKey c p ∧ slot.code.toNat = code

theorem HeldAs.held {htab : Space HSlot} {c : Byte} {p : BitVec 12} {code : Nat} (h : HeldAs htab c p code) :
    Held htab c p := by
  obtain ⟨k, slot, hread, hkey, -⟩ := h
  exact ⟨k, slot, hread, hkey⟩

theorem heldAs_nil {c : Byte} {p : BitVec 12} {code : Nat} : ¬ HeldAs [] c p code := by
  rintro ⟨k, slot, hread, -⟩
  cases hread

/-- A pair put into an empty slot is held with its code, beside those held before (R158). -/
theorem heldAs_write {htab : Space HSlot} {j : Nat} (hempty : spaceRead htab j = none) {c d : Byte} {p q : BitVec 12}
    {new : BitVec 12} {code : Nat} :
    HeldAs (spaceWrite htab j { key := BitVec.ofNat 20 (hashKey c p), code := new }) d q code ↔
      (d = c ∧ q = p) ∧ new.toNat = code ∨ HeldAs htab d q code := by
  constructor
  · rintro ⟨k, slot, hread, hkey, hcode⟩
    rw [spaceRead_write] at hread
    split at hread
    · cases hread
      rw [toNat_hashKey] at hkey
      obtain ⟨rfl, rfl⟩ := hashKey_inj.mp hkey
      exact .inl ⟨⟨rfl, rfl⟩, hcode⟩
    · exact .inr ⟨k, slot, hread, hkey, hcode⟩
  · rintro (⟨⟨rfl, rfl⟩, hcode⟩ | ⟨k, slot, hread, hkey, hcode⟩)
    · exact ⟨j, _, spaceRead_write_same _ _ _, toNat_hashKey d q, hcode⟩
    · have hne : k ≠ j := by rintro rfl; rw [hempty] at hread; cases hread
      exact ⟨k, slot, (spaceRead_write_other _ _ hne).trans hread, hkey, hcode⟩

/-- The abstract dictionary and the hash table are the same map (R166). -/
def SameDictionary (dic : List DicEntry) (htab : Space HSlot) : Prop :=
  ∀ (c : Byte) (p : BitVec 12) (code : Nat),
    dic.lookup (p.toNat, c.toNat) = some code ↔ HeldAs htab c p code

theorem sameDictionary_nil : SameDictionary [] [] := fun _ _ _ => ⟨(fun h => nomatch h), fun h => absurd h heldAs_nil⟩

/-- A new pair is added to both alike. -/
theorem SameDictionary.cons {dic : List DicEntry} {htab : Space HSlot} (h : SameDictionary dic htab) {c : Byte}
    {p : BitVec 12} {j : Nat} (hempty : spaceRead htab j = none) (hnew : ¬ Held htab c p) (new : BitVec 12) :
    SameDictionary (((p.toNat, c.toNat), new.toNat) :: dic)
      (spaceWrite htab j { key := BitVec.ofNat 20 (hashKey c p), code := new }) := by
  intro d q code
  rw [heldAs_write hempty, List.lookup_cons]
  by_cases hpair : d = c ∧ q = p
  · obtain ⟨rfl, rfl⟩ := hpair
    have hnone : ¬ HeldAs htab d q code := fun hh => hnew hh.held
    simp [hnone]
  · have hne : ((q.toNat, d.toNat) == (p.toNat, c.toNat)) = false := by
      rw [beq_eq_false_iff_ne, ne_eq, Prod.mk.injEq]
      exact fun ⟨hq, hd⟩ => hpair ⟨BitVec.eq_of_toNat_eq hd, BitVec.eq_of_toNat_eq hq⟩
    simp only [hne, hpair, false_and, false_or]
    exact h d q code

/-! The state of the abstract compressor. -/

/-- The invariants of an open stream (R26, R28, R161). -/
structure StreamOk (s : State) : Prop where
  lzwOk : LzwOk s
  dictOk : DictOk s
  widthOk : WidthOk s

theorem LzwMove.streamOk {s t : State} (h : LzwMove s t) (hs : StreamOk s) : StreamOk t :=
  ⟨h.lzwOk hs.lzwOk, h.dictOk hs.lzwOk hs.dictOk, h.widthOk hs.lzwOk hs.widthOk⟩

theorem streamOk_of_idle {s : State} (hidle : s.lzw.active = false) : StreamOk s := by
  constructor <;> intro ha <;> rw [hidle] at ha <;> cases ha

/-- The abstract state `a` of a stream with `b` initial bits, in the registers and the dictionary of the machine
(R166). -/
structure Simulates (b : Nat) (a : AbsLzw) (s : State) : Prop where
  active : s.lzw.active = true
  havePrefix : s.lzw.havePrefix = true
  initBits : s.lzw.initBits.toNat = b
  cur : s.lzw.prefixCode.toNat = a.cur
  next : s.lzw.freeEnt.toNat = a.next
  first : 1 ≤ a.j
  count : a.next + 1 = 2 ^ (b - 1) + 2 + a.j
  dic : SameDictionary a.dic s.mem.htab
  ok : StreamOk s

/-- The closed form of the width of code `j`, in terms of the next code (R161). -/
theorem codeWidth_eq {b j next : Nat} (hb : 3 ≤ b) (hb' : b ≤ 9) (hj : 1 ≤ j)
    (hnext : next + 1 = 2 ^ (b - 1) + 2 + j) : codeWidth b j = min 12 (max b (bitlen (next - 1))) := by
  unfold codeWidth
  split
  · have h4 : 2 ^ 2 ≤ 2 ^ (b - 1) := Nat.pow_le_pow_right (by norm_num) (by omega)
    have hpow : 2 ^ b = 2 * 2 ^ (b - 1) := by rw [← pow_succ']; congr 1; omega
    have hlen : bitlen (next - 1) ≤ b := bitlen_le_iff.mpr (by omega)
    omega
  · rw [show next - 1 = 2 ^ (b - 1) + 2 + j - 2 by omega]

section
variable {b : Nat} {a : AbsLzw} {s : State} (h : Simulates b a s)
include h

theorem Simulates.bounds : 3 ≤ b ∧ b ≤ 9 := by
  obtain ⟨hinit, -⟩ := h.ok.lzwOk h.active
  rwa [h.initBits] at hinit

theorem Simulates.clearCode_eq : clearCode s.lzw = 2 ^ (b - 1) := by rw [clearCode, h.initBits]

/-- The width in force is that of code `j` (R161). -/
theorem Simulates.width : s.lzw.nBits.toNat = codeWidth b a.j := by
  obtain ⟨hb, hb'⟩ := h.bounds
  rw [h.ok.widthOk h.active, h.initBits, h.next, codeWidth_eq hb hb' h.first h.count]

/-- The width after the match is written is that of code `j + 1` (R155, R161). -/
theorem Simulates.width_succ : widened s.lzw.freeEnt.toNat s.lzw.nBits.toNat = codeWidth b (a.j + 1) := by
  obtain ⟨hb, hb'⟩ := h.bounds
  obtain ⟨hinit, -, ⟨hfirst, -⟩, -, -, hroom, -⟩ := h.ok.lzwOk h.active
  have hpos : 0 < s.lzw.freeEnt.toNat := lt_of_lt_of_le (Nat.succ_pos _) hfirst
  have hcount : a.next + 1 + 1 = 2 ^ (b - 1) + 2 + (a.j + 1) := by rw [h.count, Nat.add_assoc]
  rw [widened_closedForm hinit.2 hpos hroom (h.ok.widthOk h.active), h.initBits, h.next,
    codeWidth_eq hb hb' (Nat.le_add_left 1 _) hcount, Nat.add_sub_cancel]

/-- The abstract dictionary has no code for a pair exactly when the machine's does not hold it. -/
theorem Simulates.not_held (c : Byte) (hnone : a.dic.lookup (a.cur, c.toNat) = none) :
    ¬ Held s.mem.htab c s.lzw.prefixCode := by
  rintro ⟨k, slot, hread, hkey⟩
  have hsome := (h.dic c s.lzw.prefixCode slot.code.toNat).mpr ⟨k, slot, hread, hkey, rfl⟩
  rw [h.cur, hnone] at hsome
  cases hsome

variable {c : Byte} (hs : GifReady s) (hc : c.toNat < 2 ^ (b - 1))
include hs hc

/-- One symbol, the pair is held (R156, R166). -/
theorem Simulates.symbol_held {code : Nat} (hlook : a.dic.lookup (a.cur, c.toNat) = some code) :
    ∃ t, takeSymbol c s = .done t ∧ Emits [] s t ∧ Simulates b { a with cur := code } t := by
  rw [← h.cur] at hlook
  obtain ⟨k, slot, hread, hkey, hcode⟩ := (h.dic c s.lzw.prefixCode code).mp hlook
  have ht := takeSymbol_found h.havePrefix (probe_of_read h.active h.ok.dictOk hread hkey)
  obtain ⟨-, hmove⟩ := takeSymbol_eq_done h.active (h.clearCode_eq ▸ hc) ht
  exact ⟨_, ht, (emits_nil hs).withUnit _ _, h.active, h.havePrefix, h.initBits, hcode, h.next, h.first, h.count, h.dic,
    hmove.streamOk h.ok⟩

/-- One symbol, the pair is new and a code is left (R156, R158, R166). -/
theorem Simulates.symbol_room (hnone : a.dic.lookup (a.cur, c.toNat) = none) (hfree : a.next < 4096) :
    ∃ t, takeSymbol c s = .done t ∧ Emits [(a.cur, codeWidth b a.j)] s t ∧
      Simulates b
        { cur := c.toNat, dic := ((a.cur, c.toNat), a.next) :: a.dic, next := a.next + 1, j := a.j + 1 } t := by
  have hnew := h.not_held c hnone
  obtain ⟨t, j, ht, hnot, -, hlt, hempty⟩ :=
    takeSymbol_of_not_held h.active h.havePrefix h.ok.lzwOk hs hnew
  rw [← h.next] at hfree
  obtain ⟨hregs, hdict, hemits⟩ := startNewMatch_of_room hlt hfree hnot
  obtain ⟨-, hmove⟩ := takeSymbol_eq_done h.active (h.clearCode_eq ▸ hc) ht
  have hcode := hemits hs
  rw [h.cur, h.width] at hcode
  have hdic := h.dic.cons hempty hnew (BitVec.ofNat 12 s.lzw.freeEnt.toNat)
  rw [toNat_freeCode hfree, h.cur, h.next] at hdic
  have hcount := h.count
  refine ⟨t, ht, hcode, ?_, ?_, ?_, ?_, ?_, Nat.le_add_left 1 _, by simp only; omega, ?_, hmove.streamOk h.ok⟩
  · rw [hregs]; exact h.active
  · rw [hregs]; exact h.havePrefix
  · rw [hregs]; exact h.initBits
  · rw [hregs]; exact toNat_symbol c
  · rw [hregs, ← h.next]; exact toNat_freeEnt_succ hfree
  · rw [hdict, h.next]; exact hdic

/-- One symbol, the pair is new and no code is left (R156, R159, R166). -/
theorem Simulates.symbol_full (hnone : a.dic.lookup (a.cur, c.toNat) = none) (hfull : ¬ a.next < 4096) :
    ∃ t, takeSymbol c s = .done t ∧
      Emits [(a.cur, codeWidth b a.j), (2 ^ (b - 1), codeWidth b (a.j + 1))] s t ∧
      Simulates b { cur := c.toNat, dic := [], next := 2 ^ (b - 1) + 2, j := 1 } t := by
  have hnew := h.not_held c hnone
  obtain ⟨t, j, ht, hnot, -⟩ := takeSymbol_of_not_held h.active h.havePrefix h.ok.lzwOk hs hnew
  obtain ⟨-, -, ⟨-, hfree⟩, -⟩ := h.ok.lzwOk h.active
  rw [← h.next] at hfull
  obtain ⟨hregs, hdict, hemits⟩ := startNewMatch_of_full (by omega) hnot
  obtain ⟨-, hmove⟩ := takeSymbol_eq_done h.active (h.clearCode_eq ▸ hc) ht
  have hcodes := hemits hs
  rw [nextWidth_of_ne (prefixCode_ne_clearCode h.active h.havePrefix h.ok.lzwOk), h.width_succ, h.clearCode_eq, h.cur,
    h.width] at hcodes
  refine ⟨t, ht, hcodes, ?_, ?_, ?_, ?_, ?_, le_refl 1, rfl, ?_, hmove.streamOk h.ok⟩
  · rw [hregs]; exact h.active
  · rw [hregs]; exact h.havePrefix
  · rw [hregs]; exact h.initBits
  · rw [hregs]; exact toNat_symbol c
  · rw [hregs]
    show (BitVec.ofNat 13 (clearCode s.lzw + 2)).toNat = _
    rw [h.clearCode_eq]
    exact toNat_firstFree h.bounds.2
  · rw [hdict]; exact sameDictionary_nil

/-- One symbol of the machine is one symbol of the abstract compressor (R166). -/
theorem Simulates.symbol : ∃ t, exec (.lzwSym c) s = .next t ∧ Emits (absSymbol b a c.toNat).2 s t ∧
    Simulates b (absSymbol b a c.toNat).1 t := by
  suffices hsym : ∃ t, takeSymbol c s = .done t ∧ Emits (absSymbol b a c.toNat).2 s t ∧
      Simulates b (absSymbol b a c.toNat).1 t by
    obtain ⟨t, ht, hrest⟩ := hsym
    exact ⟨t, exec_lzwSym_of_done h.active (h.clearCode_eq ▸ hc) ht, hrest⟩
  unfold absSymbol
  cases hlook : a.dic.lookup (a.cur, c.toNat) with
  | some code => exact h.symbol_held hs hc hlook
  | none =>
    by_cases hfree : a.next < 4096
    · rw [if_pos hfree]
      exact h.symbol_room hs hc hlook hfree
    · rw [if_neg hfree]
      exact h.symbol_full hs hc hlook hfree

end

/-- The symbols after the first and LZW.END: the machine writes the codes of the abstract compressor, and ends the
stream behind them (R166). -/
theorem runAll_symbols {b : Nat} {rest : List Byte} (hrest : ∀ x ∈ rest, x.toNat < 2 ^ (b - 1)) {a : AbsLzw} {s : State}
    (h : Simulates b a s) (hs : GifReady s) :
    ∃ u t, runAll (rest.map .lzwSym ++ [.lzwEnd]) s = .next t ∧ endStream u = .done t ∧
      Emits (absCodes b a (rest.map (fun x => x.toNat))) s u := by
  induction rest generalizing a s with
  | nil =>
    obtain ⟨t, ht⟩ := closeStream_completes.ends hs
    obtain ⟨u, hend, -, -, hemits⟩ :=
      closeStream_codes (prefixCode_ne_clearCode h.active h.havePrefix h.ok.lzwOk) ht
    have hcodes := hemits hs
    rw [eofCode, h.width_succ, h.clearCode_eq, h.cur, h.width] at hcodes
    exact ⟨u, t, runAll_cons_of_next (exec_lzwEnd_of_done h.active h.havePrefix ht), hend, hcodes⟩
  | cons c rest ih =>
    obtain ⟨hc, hrest⟩ := List.forall_mem_cons.mp hrest
    obtain ⟨v, hv, hfirst, hsim⟩ := h.symbol hs hc
    obtain ⟨u, t, ht, hend, hothers⟩ := ih hrest hsim hfirst.ready
    exact ⟨u, t, (runAll_cons_of_next hv).trans ht, hend, hfirst.trans hothers⟩

/-- LZW.START and the first symbol: the abstract compressor's first state (R153, R166). -/
theorem simulates_first {b : Nat} (hb : 3 ≤ b) (hb' : b ≤ 9) {c : Byte} (hc : c.toNat < 2 ^ (b - 1)) {s : State}
    (hidle : s.lzw.active = false) (ha : SinkAccepts s) :
    ∃ t u, exec (.lzwStart b) s = .next t ∧ exec (.lzwSym c) t = .next u ∧
      Emits [(2 ^ (b - 1), b)] s.withFreshPackers u ∧
      Simulates b { cur := c.toNat, dic := [], next := 2 ^ (b - 1) + 2, j := 1 } u := by
  obtain ⟨t, ht, hclear⟩ := openStream_emits hb' ha
  obtain ⟨-, hmove⟩ := openStream_eq_done hb hb' ht
  obtain ⟨hregs, hdict⟩ := openStream_unit ht
  obtain ⟨hinit, -, -⟩ := openedRegs_toNat hb' hregs
  have hactive : t.lzw.active = true := by rw [hregs]; rfl
  have hprefix : t.lzw.havePrefix = false := by rw [hregs]; rfl
  have hsymbol : c.toNat < clearCode t.lzw := by rw [clearCode, hinit]; exact hc
  have hu := takeSymbol_first (c := c) hprefix
  obtain ⟨-, hmove'⟩ := takeSymbol_eq_done hactive hsymbol hu
  refine ⟨t, _, exec_lzwStart_of_done hb hb' hidle ht, exec_lzwSym_of_done hactive hsymbol hu, hclear.withUnit _ _,
    hactive, rfl, hinit, toNat_symbol c, ?_, le_refl 1, rfl, ?_,
    hmove'.streamOk (hmove.streamOk (streamOk_of_idle hidle))⟩
  · show t.lzw.freeEnt.toNat = _
    rw [hregs]
    exact toNat_firstFree hb'
  · show SameDictionary [] t.mem.htab
    rw [hdict]
    exact sameDictionary_nil

/-- Settles O42: the machine simulates the abstract compressor from the first symbol on, and its codes leave as the
image data. -/
theorem lzwStreamRefinesAbstract : Obligations.LzwStreamRefinesAbstract := by
  intro b c rest s hb hb' hsymbols hidle ha
  obtain ⟨hc, hrest⟩ := List.forall_mem_cons.mp hsymbols
  obtain ⟨t, u, ht, hu, hclear, hsim⟩ := simulates_first hb hb' hc hidle ha
  obtain ⟨v, x, hx, hend, hothers⟩ := runAll_symbols hrest hsim hclear.ready
  obtain ⟨hframe, hbp, hcnt, ⟨hout, -⟩, -⟩ := (hclear.trans hothers).closes hend
  refine ⟨x, ?_, ?_, hframe.fault, by rw [(endStream_unit hend).1], hbp, hcnt⟩
  · rw [runAll_cons_of_next ht]
    exact (runAll_cons_of_next hu).trans hx
  · simpa [gifData, streamCodes, bufferedBytes_withFreshPackers] using hout

end Sys2Proof.Machine
end

section
/-! PROOFS. The quantisation scaler (42_quant.md R193 to R196, 43_dct.md R222). The tables are read once, as natural
numbers, through `QuantOk` (`QuantOk.values`); the rest is arithmetic of the quality law. -/

namespace Sys2Proof.Machine

/-! The arithmetic of the quality law. -/

theorem quantum_eq_max_min (scale base : Nat) : quantum scale base = max 1 (min 255 ((base * scale + 50) / 100)) := by
  unfold quantum clamp quantMin quantMax
  split
  · omega
  · split <;> omega

theorem quantumAt_range (scale k : Nat) : 1 ≤ quantumAt scale k ∧ quantumAt scale k ≤ 255 := quantum_range _ _

theorem quantumAt_block (scale c : Nat) {i : Nat} (hi : i < 64) :
    quantumAt scale (64 * c + i) = quantum scale (baseq c i) := by
  rw [quantumAt, show (64 * c + i) / 64 = c by omega, show (64 * c + i) % 64 = i by omega]

theorem quantum_mono {scale scale' : Nat} (h : scale' ≤ scale) (base : Nat) :
    quantum scale' base ≤ quantum scale base := by
  have hmul : base * scale' ≤ base * scale := Nat.mul_le_mul_left base h
  rw [quantum_eq_max_min, quantum_eq_max_min]
  omega

theorem quantum_scale_zero (base : Nat) : quantum 0 base = 1 := by
  rw [quantum_eq_max_min, Nat.mul_zero]
  rfl

/-- The smallest base value is 10 (R192). -/
theorem ten_le_baseq : ∀ c < 2, ∀ i < 64, 10 ≤ baseq c i := by decide

/-- At quality 10 the scale is 500, so the smallest base value gives 50 (R196). -/
theorem fifty_le_quantumAt {k : Nat} (hk : k < 128) : 50 ≤ quantumAt (qScale 10) k := by
  have hbase := ten_le_baseq (k / 64) (by omega) (k % 64) (by omega)
  have hscale : qScale 10 = 500 := rfl
  rw [quantumAt, hscale, quantum_eq_max_min]
  omega

/-- The quality law falls on both of its branches, and from 102 to 100 between them (R196). -/
theorem qScale_antitone {q q' : Nat} (hq : 1 ≤ q) (h : q ≤ q') : qScale q' ≤ qScale q := by
  unfold qScale
  by_cases hlow' : q' < 50
  · rw [if_pos hlow', if_pos (by omega)]
    exact Nat.div_le_div_left h hq
  · rw [if_neg hlow']
    by_cases hlow : q < 50
    · have hlast : 5000 / 49 ≤ 5000 / q := Nat.div_le_div_left (by omega) hq
      rw [if_pos hlow]
      omega
    · rw [if_neg hlow]
      omega

theorem sfi_range : ∀ k < 8, 0 < sfi k ∧ sfi k ≤ 1387039845 := by decide

/-- A denominator is positive and fits the 72 bits of an element of DIVT (R195, R222). -/
theorem denominator_range {u i : Nat} (hu : 1 ≤ u ∧ u ≤ 255) (hi : i < 64) :
    0 < denominator u i ∧ denominator u i < 2 ^ 72 := by
  obtain ⟨hrow, hrow'⟩ := sfi_range (i / 8) (by omega)
  obtain ⟨hcol, hcol'⟩ := sfi_range (i % 8) (by omega)
  obtain ⟨hu1, hu255⟩ := hu
  unfold denominator
  refine ⟨by positivity, ?_⟩
  calc 8 * u * sfi (i / 8) * sfi (i % 8) ≤ 8 * 255 * 1387039845 * 1387039845 := by gcongr
    _ < 2 ^ 72 := by norm_num

/-! The tables of a quality. -/

/-- Element `k` of QTAB and of DIVT, when the tables are valid: nothing is lost in 8 and in 72 bits. -/
theorem QuantOk.values {s : State} (h : QuantOk s) (hv : s.qt.valid = true) {k : Nat} (hk : k < 128) :
    ∃ u d, spaceRead s.mem.qtab k = some u ∧ spaceRead s.mem.divt k = some d ∧
      u.toNat = quantumAt (qScale s.qt.quality.toNat) k ∧ d.toNat = denominator u.toNat (k % 64) := by
  obtain ⟨-, -, htables⟩ := h hv
  obtain ⟨hqtab, hdivt⟩ := htables k hk
  have hrange := quantumAt_range (qScale s.qt.quality.toNat) k
  have hu : (BitVec.ofNat 8 (quantumAt (qScale s.qt.quality.toNat) k)).toNat =
      quantumAt (qScale s.qt.quality.toNat) k := Nat.mod_eq_of_lt (by omega)
  refine ⟨_, _, hqtab, hdivt, hu, ?_⟩
  rw [hu]
  exact Nat.mod_eq_of_lt (denominator_range hrange (by omega)).2

/-! QT.BUILD (R194). -/

/-- What QT.BUILD sets, and that it sets nothing else. -/
theorem buildQuant_eq_done {q : Nat} (hq' : q ≤ 100) {s t : State} (h : buildQuant q s = .done t) :
    t.qt.valid = true ∧ t.qt.quality.toNat = q ∧
      t = (s.withQt t.qt).withMem ((s.mem.withQtab t.mem.qtab).withDivt t.mem.divt) := by
  cases Res.done.inj h
  exact ⟨rfl, Nat.mod_eq_of_lt (by omega), rfl⟩

/-- The tables built are those of the quality, whatever stood there before. -/
theorem buildQuant_quantOk {q : Nat} (hq : 1 ≤ q) (hq' : q ≤ 100) {s t : State} (h : buildQuant q s = .done t) :
    QuantOk t := by
  obtain ⟨-, hquality, -⟩ := buildQuant_eq_done hq' h
  intro _
  rw [hquality]
  cases Res.done.inj h
  exact ⟨⟨hq, hq'⟩, Nat.mod_eq_of_lt (by have := qScale_le q; omega), fun k hk =>
    ⟨(spaceRead_fill 128 _ k).trans (if_pos hk), (spaceRead_fill 128 _ k).trans (if_pos hk)⟩⟩

theorem exec_qtBuild_of_done {q : Nat} {s t : State} (hq : 1 ≤ q) (hq' : q ≤ 100) (h : buildQuant q s = .done t) :
    exec (.qtBuild q) s = .next t := by
  have hok : qualityOk q = true := decide_eq_true ⟨hq, hq'⟩
  show execQtBuild q s = _
  rw [execQtBuild, require_true hok, h, conclude_done]

/-- A quality in range does not fault: the state after QT.BUILD is the one its procedure ends in. -/
theorem buildQuant_of_exec {q : Nat} {s t : State} (hq : 1 ≤ q) (hq' : q ≤ 100) (h : exec (.qtBuild q) s = .next t) :
    buildQuant q s = .done t := by
  obtain ⟨u, hu⟩ := buildQuant_ends q s
  cases (exec_qtBuild_of_done hq hq' hu).symm.trans h
  exact hu

/-- A QT.BUILD that completes passed its check (R194). -/
theorem qtBuild_eq_done {q : Nat} {s t : State} (h : exec (.qtBuild q) s = .next t) (ht : Healthy t) :
    1 ≤ q ∧ q ≤ 100 ∧ buildQuant q s = .done t := by
  have hruns : RunsAs (.qtBuild q) (require (qualityOk q) .invalidParameter (buildQuant q)) := fun _ => rfl
  obtain ⟨hok, hdone⟩ := require_eq_done (hruns.eq_done h ht)
  obtain ⟨hq, hq'⟩ := of_decide_eq_true hok
  exact ⟨hq, hq', hdone⟩

/-- An element of the tables after a QT.BUILD. -/
theorem buildQuant_values {q : Nat} (hq : 1 ≤ q) (hq' : q ≤ 100) {s t : State} (h : buildQuant q s = .done t) {k : Nat}
    (hk : k < 128) : ∃ u d, spaceRead t.mem.qtab k = some u ∧ spaceRead t.mem.divt k = some d ∧
      u.toNat = quantumAt (qScale q) k ∧ d.toNat = denominator u.toNat (k % 64) := by
  obtain ⟨hvalid, hquality, -⟩ := buildQuant_eq_done hq' h
  simpa only [hquality] using (buildQuant_quantOk hq hq' h).values hvalid hk

/-- Settles O43: the check passes, and the elements read are the printed formulas. -/
theorem qtBuildTables : Obligations.QtBuildTables := by
  intro q s hq hq' scale
  obtain ⟨t, ht⟩ := buildQuant_ends q s
  obtain ⟨hvalid, hquality, hframe⟩ := buildQuant_eq_done hq' ht
  obtain ⟨-, hscale, -⟩ := buildQuant_quantOk hq hq' ht hvalid
  rw [hquality] at hscale
  refine ⟨t, exec_qtBuild_of_done hq hq' ht, hvalid, hquality, hscale, fun c i hc hi => ?_, hframe⟩
  obtain ⟨u, d, hu, hd, hquantum, hden⟩ := buildQuant_values hq hq' ht (show 64 * c + i < 128 by omega)
  rw [quantumAt_block _ _ hi, quantum_eq_max_min] at hquantum
  rw [show (64 * c + i) % 64 = i by omega] at hden
  exact ⟨u, d, hu, hd, hquantum, hden⟩

/-- Settles O44: the clamp keeps a quantum value in 1..255, and no factor of a denominator is zero. -/
theorem quantumNeverZero : Obligations.QuantumNeverZero := by
  refine ⟨fun q s t _ h ht => ?_, fun s hs hvalid k hk => ?_⟩
  · obtain ⟨hq, hq', hdone⟩ := qtBuild_eq_done h ht
    obtain ⟨hvalid, -, -⟩ := buildQuant_eq_done hq' hdone
    exact ⟨buildQuant_quantOk hq hq' hdone, hvalid⟩
  · obtain ⟨u, d, hu, hd, hquantum, hden⟩ := hs.values hvalid hk
    have hrange := quantumAt_range (qScale s.qt.quality.toNat) k
    rw [← hquantum] at hrange
    have hpos := (denominator_range hrange (show k % 64 < 64 by omega)).1
    rw [← hden] at hpos
    exact ⟨u, d, hu, hd, hrange.1, hrange.2, hpos⟩

/-- Settles O45: a higher quality has a smaller scale, and a smaller scale a smaller quantum value; at quality 100 the
scale is 0. -/
theorem quantumMonotone : Obligations.QuantumMonotone := by
  intro q q' s s' t t' hq hle hq' h h' k hk
  have hbuilt := buildQuant_of_exec hq (hle.trans hq') h
  have hbuilt' := buildQuant_of_exec (hq.trans hle) hq' h'
  obtain ⟨u, -, hu, -, hquantum, -⟩ := buildQuant_values hq (hle.trans hq') hbuilt hk
  obtain ⟨u', -, hu', -, hquantum', -⟩ := buildQuant_values (hq.trans hle) hq' hbuilt' hk
  refine ⟨u, u', hu, hu', ?_, ?_, ?_⟩
  · rw [hquantum, hquantum']
    exact quantum_mono (qScale_antitone hq hle) _
  · rintro rfl
    exact hquantum'.trans (quantum_scale_zero _)
  · rintro rfl
    rw [hquantum]
    exact fifty_le_quantumAt hk

end Sys2Proof.Machine
end

section
/-! PROOFS. The forward DCT and the quantiser (43_dct.md R211 to R225). A coefficient is the bilinear form of the printed
matrix (`coefficient_eq`). Samples lie in -128..127, so with `d` replaced by `2d + 1` they lie symmetrically in -255..255;
the form is then bounded by the absolute sums of two rows of the matrix, and what the shift adds is the product of the
two row sums, which is zero at every position but the first (`two_mul_coefficient_range`). That one bound gives the 80
bits of CB, the 16 bits of QB and the printed bounds of R224. -/

namespace Sys2Proof.Machine

/-! Sums of eight. -/

theorem sum8_eq_sum (f : Nat → Int) : sum8 f = ∑ n ∈ Finset.range 8, f n := by
  simp only [sum8, Finset.sum_range_succ, Finset.sum_range_zero, zero_add]

theorem mul_sum8 (a : Int) (f : Nat → Int) : a * sum8 f = sum8 (fun n => a * f n) := by
  simp only [sum8_eq_sum, Finset.mul_sum]

/-- Doubling the values and adding one constant to each of them. -/
theorem sum8_mul_two_mul_add (w e : Nat → Int) (k : Int) :
    sum8 (fun n => w n * (2 * e n + k)) = 2 * sum8 (fun n => w n * e n) + sum8 w * k := by
  unfold sum8
  ring

theorem abs_sum8_mul_le (w : Nat → Int) {e : Nat → Int} {b : Int} (h : ∀ n, |e n| ≤ b) :
    |sum8 (fun n => w n * e n)| ≤ sum8 (fun n => |w n|) * b := by
  simp only [sum8_eq_sum, Finset.sum_mul]
  refine (Finset.abs_sum_le_sum_abs _ _).trans (Finset.sum_le_sum fun n _ => ?_)
  rw [abs_mul]
  exact mul_le_mul_of_nonneg_left (h n) (abs_nonneg _)

/-! The coefficients. -/

theorem rowGet_pass1D_rowOf (f : Nat → Int) {k : Nat} (hk : k < 8) :
    rowGet (pass1D (rowOf f)) k = sum8 (fun n => dctMatrix k n * f n) := rowGet_pass1D (rowOf f) hk

/-- The row pass and the column pass, each by the printed matrix (R216, R217). -/
theorem coefficient_eq (sb : Space Byte) {i : Nat} (hi : i < 64) :
    coefficient sb i = sum8 (fun y => dctMatrix (i / 8) y *
      sum8 (fun x => dctMatrix (i % 8) x * shiftedSample sb (8 * y + x))) := by
  have hrow (y : Nat) : rowGet (rowPass sb y) (i % 8) =
      sum8 (fun x => dctMatrix (i % 8) x * shiftedSample sb (8 * y + x)) := rowGet_pass1D_rowOf _ (by omega)
  rw [coefficient, columnPass, rowGet_pass1D_rowOf _ (by omega)]
  simp only [hrow]

theorem shiftedSample_range (sb : Space Byte) (i : Nat) : -128 ≤ shiftedSample sb i ∧ shiftedSample sb i ≤ 127 := by
  have hlt := ((spaceRead sb i).getD 0).isLt
  unfold shiftedSample
  omega

/-- The absolute sum `L[k]` of a row of the matrix (R218). -/
def matrixNorm (k : Nat) : Int := sum8 (fun n => |dctMatrix k n|)

/-- The sum of a row of the matrix; zero for every row but the first. -/
def matrixSum (k : Nat) : Int := sum8 (dctMatrix k)

/-- How far twice a coefficient can lie from its centre, and that centre with its sign changed. -/
def coefficientReach (i : Nat) : Int := matrixNorm (i / 8) * (matrixNorm (i % 8) * 255)
def coefficientShift (i : Nat) : Int := matrixSum (i / 8) * matrixSum (i % 8)

/-- The exact range of a coefficient, doubled: the samples in their symmetric form `2d + 1`. -/
theorem two_mul_coefficient_range (sb : Space Byte) {i : Nat} (hi : i < 64) :
    |2 * coefficient sb i + coefficientShift i| ≤ coefficientReach i := by
  have hsample (j : Nat) : |2 * shiftedSample sb j + 1| ≤ 255 := by
    obtain ⟨hlo, hhi⟩ := shiftedSample_range sb j
    exact abs_le.mpr ⟨by omega, by omega⟩
  have hrow (y : Nat) : |2 * sum8 (fun x => dctMatrix (i % 8) x * shiftedSample sb (8 * y + x)) + matrixSum (i % 8)| ≤
      matrixNorm (i % 8) * 255 := by
    have h := abs_sum8_mul_le (dctMatrix (i % 8)) fun x => hsample (8 * y + x)
    rwa [sum8_mul_two_mul_add, mul_one] at h
  have h := abs_sum8_mul_le (dctMatrix (i / 8)) hrow
  rwa [sum8_mul_two_mul_add, ← coefficient_eq sb hi] at h

theorem coefficient_extremes_lt : ∀ i < 64,
    coefficientReach i + coefficientShift i < 2 ^ 80 ∧ coefficientReach i - coefficientShift i < 2 ^ 80 := by
  decide

/-- Nothing of a coefficient is lost in the 80 bits of CB (R218). -/
theorem toInt_ofInt_coefficient (sb : Space Byte) {i : Nat} (hi : i < 64) :
    (BitVec.ofInt 80 (coefficient sb i)).toInt = coefficient sb i := by
  obtain ⟨hlo, hhi⟩ := abs_le.mp (two_mul_coefficient_range sb hi)
  obtain ⟨hlow, hhigh⟩ := coefficient_extremes_lt i hi
  exact BitVec.toInt_ofInt_eq_self (by norm_num) (by omega) (by omega)

/-! DCT.FWD. -/

/-- DCT.FWD with every sample written (R216). -/
theorem exec_dctFwd_of_full {s : State} (hw : s.dct.sbWr = BitVec.allOnes 64) (hfull : spaceFull 64 s.mem.sb = true) :
    ∃ t, exec .dctFwd s = .next t ∧ fwdDct s = .done t := by
  obtain ⟨t, ht⟩ := fwdDct_ends hfull
  refine ⟨t, ?_, ht⟩
  show execDctFwd s = _
  rw [execDctFwd, require_true ((allOnes_iff _).mpr hw), ht, conclude_done]

theorem fwdDct_frame {s t : State} (h : fwdDct s = .done t) :
    t = (s.withMem (s.mem.withCb t.mem.cb)).withDct { s.dct with cbValid := true } := by
  rw [fwdDct_eq_done h]
  rfl

theorem fwdDct_cb {s t : State} (h : fwdDct s = .done t) {i : Nat} (hi : i < 64) :
    spaceRead t.mem.cb i = some (BitVec.ofInt 80 (coefficient s.mem.sb i)) := by
  rw [fwdDct_eq_done h]
  exact (spaceRead_fill 64 _ i).trans (if_pos hi)

/-- Settles O46: the two passes are the printed matrix on both sides, and the sum fits the element of CB. -/
theorem dctFwdBilinear : Obligations.DctFwdBilinear := by
  intro s hw ⟨hsb, _, _⟩
  obtain ⟨t, hexec, hdone⟩ := exec_dctFwd_of_full hw (spaceFull_of_allOnes ((allOnes_iff _).mpr hw) hsb)
  refine ⟨t, hexec, fun r c hr hc => ⟨_, fwdDct_cb hdone (show 8 * r + c < 64 by omega), ?_⟩, fwdDct_frame hdone⟩
  rw [toInt_ofInt_coefficient _ (by omega), coefficient_eq _ (by omega), show (8 * r + c) / 8 = r by omega,
    show (8 * r + c) % 8 = c by omega]
  simp only [mul_sum8, ← mul_assoc, shiftedSample]

/-! The rounding division (R220) and the range of what it answers (R224). -/

/-- A number at least `lo - 1/2` and below `hi + 1/2` times the denominator rounds into `lo .. hi`. -/
theorem roundDiv_mem {num lo hi : Int} {den : Nat} (hden : 0 < den) (hlo : den * (2 * lo - 1) ≤ 2 * num)
    (hhi : 2 * num < den * (2 * hi + 1)) : lo ≤ roundDiv num den ∧ roundDiv num den ≤ hi := by
  have hpos : (0 : Int) < 2 * den := by positivity
  constructor
  · exact (Int.le_ediv_iff_mul_le hpos).mpr (by linarith)
  · exact Int.lt_add_one_iff.mp ((Int.ediv_lt_iff_lt_mul hpos).mpr (by linarith))

theorem roundDiv_zero {den : Nat} (hden : 0 < den) : roundDiv 0 den = 0 := by
  have hpos : (0 : Int) < den := by exact_mod_cast hden
  obtain ⟨hlo, hhi⟩ := roundDiv_mem (num := 0) (lo := 0) (hi := 0) hden (by linarith) (by linarith)
  exact le_antisymm hhi hlo

/-- The largest quantised value: the printed bound, but 1016 at the DC position (R224). -/
def quantisedTop (i : Nat) : Nat := if i = 0 then 1016 else quantisedBound i

/-- At quantum value 1 the extremes of the coefficients round to the printed bounds. -/
theorem extremes_at_quantum_one : ∀ i < 64,
    (denominator 1 i : Int) * (-(2 * quantisedBound i + 1)) ≤ -coefficientReach i - coefficientShift i ∧
      coefficientReach i - coefficientShift i < (denominator 1 i : Int) * (2 * quantisedTop i + 1) := by
  decide

/-- A larger quantum value gives a larger denominator (R222). -/
theorem denominator_one_le {u : Nat} (hu : 1 ≤ u) (i : Nat) : denominator 1 i ≤ denominator u i := by
  unfold denominator
  gcongr

/-- The range of a quantised coefficient at any quantum value (R224). -/
theorem roundDiv_coefficient_range (sb : Space Byte) {u i : Nat} (hu : 1 ≤ u) (hi : i < 64) :
    -(quantisedBound i : Int) ≤ roundDiv (coefficient sb i) (denominator u i) ∧
      roundDiv (coefficient sb i) (denominator u i) ≤ quantisedTop i := by
  obtain ⟨hlo, hhi⟩ := abs_le.mp (two_mul_coefficient_range sb hi)
  obtain ⟨hlo1, hhi1⟩ := extremes_at_quantum_one i hi
  have hone : 0 < denominator 1 i := (denominator_range (by omega) hi).1
  have hle := denominator_one_le hu i
  have hleInt : (denominator 1 i : Int) ≤ denominator u i := by exact_mod_cast hle
  refine roundDiv_mem (hone.trans_le hle) ?_ ?_
  · calc (denominator u i : Int) * (2 * -(quantisedBound i : Int) - 1)
        = denominator u i * (-(2 * quantisedBound i + 1)) := by ring
      _ ≤ denominator 1 i * (-(2 * quantisedBound i + 1)) := mul_le_mul_of_nonpos_right hleInt (by omega)
      _ ≤ 2 * coefficient sb i := by linarith
  · calc 2 * coefficient sb i < denominator 1 i * (2 * quantisedTop i + 1) := by linarith
      _ ≤ denominator u i * (2 * quantisedTop i + 1) := mul_le_mul_of_nonneg_right hleInt (by omega)

/-- The printed bounds: the largest stands at the DC position, every other is a category of at most 10 bits (R224). -/
theorem quantisedBound_le : ∀ i < 64,
    quantisedBound i ≤ 1024 ∧ quantisedTop i ≤ quantisedBound i ∧ (1 ≤ i → quantisedBound i ≤ 1020) := by
  decide

/-! DCT.QUANT. -/

/-- What DCT.QUANT works on: valid tables, and the coefficients of some block (R223). -/
structure QuantReady (sb : Space Byte) (s : State) : Prop where
  tables : QuantOk s
  tablesValid : s.qt.valid = true
  coefficients : ∀ i, i < 64 → spaceRead s.mem.cb i = some (BitVec.ofInt 80 (coefficient sb i))

section
variable {sb : Space Byte} {s t : State} {cls : Cls}

theorem QuantReady.cbAt_eq (h : QuantReady sb s) {i : Nat} (hi : i < 64) : cbAt s.mem i = coefficient sb i := by
  rw [cbAt, h.coefficients i hi]
  exact toInt_ofInt_coefficient sb hi

/-- The denominator that DCT.QUANT reads is that of the quantum value beside it (R222). -/
theorem QuantReady.divtAt_eq (h : QuantReady sb s) (cls : Cls) {i : Nat} (hi : i < 64) :
    ∃ u, spaceRead s.mem.qtab (64 * cls.toNat + i) = some u ∧ 1 ≤ u.toNat ∧ u.toNat ≤ 255 ∧
      divtAt s.mem cls i = denominator u.toNat i := by
  have hcls := Laws.EncodeFields.cls_lt cls
  obtain ⟨u, d, hu, hd, hquantum, hden⟩ := h.tables.values h.tablesValid (show 64 * cls.toNat + i < 128 by omega)
  obtain ⟨hlo, hhi⟩ := quantumAt_range (qScale s.qt.quality.toNat) (64 * cls.toNat + i)
  rw [show (64 * cls.toNat + i) % 64 = i by omega] at hden
  refine ⟨u, hu, by omega, by omega, ?_⟩
  rw [divtAt, hd]
  exact hden

/-- DCT.QUANT with both inputs present (R223). -/
theorem QuantReady.exec_dctQuant (h : QuantReady sb s) (hcb : s.dct.cbValid = true) (cls : Cls) :
    ∃ t, exec (.dctQuant cls) s = .next t ∧ quantise cls s = .done t := by
  have hcbFull : spaceFull 64 s.mem.cb = true :=
    (spaceFull_iff 64 _).mpr fun i hi => by rw [h.coefficients i hi]; rfl
  have hdivtFull : spaceFull 128 s.mem.divt = true := (spaceFull_iff 128 _).mpr fun k hk => by
    obtain ⟨_, _, _, hd, _⟩ := h.tables.values h.tablesValid hk
    rw [hd]
    rfl
  obtain ⟨t, ht⟩ := quantise_ends cls hcbFull hdivtFull
  refine ⟨t, ?_, ht⟩
  show execDctQuant cls s = _
  rw [execDctQuant, require_true hcb, require_true h.tablesValid, ht, conclude_done]

theorem quantise_frame (h : quantise cls s = .done t) :
    t = (s.withMem (s.mem.withQb t.mem.qb)).withDct { s.dct with qbWr := BitVec.allOnes 64 } := by
  rw [quantise_eq_done h]
  rfl

theorem quantise_qb (h : quantise cls s = .done t) {i : Nat} (hi : i < 64) :
    spaceRead t.mem.qb i = some (BitVec.ofInt 16 (roundDiv (cbAt s.mem i) (divtAt s.mem cls i))) := by
  rw [quantise_eq_done h]
  exact (spaceRead_fill 64 _ i).trans (if_pos hi)

/-- The quantised values of a block lie within the printed bounds (R224). -/
theorem QuantReady.roundDiv_range (h : QuantReady sb s) (cls : Cls) {i : Nat} (hi : i < 64) :
    -(quantisedBound i : Int) ≤ roundDiv (cbAt s.mem i) (divtAt s.mem cls i) ∧
      roundDiv (cbAt s.mem i) (divtAt s.mem cls i) ≤ quantisedTop i := by
  obtain ⟨u, -, hu, -, hden⟩ := h.divtAt_eq cls hi
  rw [h.cbAt_eq hi, hden]
  exact roundDiv_coefficient_range sb hu hi

/-- So nothing of a quantised value is lost in the 16 bits of QB. -/
theorem QuantReady.qbAt_eq (h : QuantReady sb s) (hdone : quantise cls s = .done t) {i : Nat} (hi : i < 64) :
    qbAt t.mem i = roundDiv (cbAt s.mem i) (divtAt s.mem cls i) := by
  obtain ⟨hlo, hhi⟩ := h.roundDiv_range cls hi
  obtain ⟨hbound, htop, -⟩ := quantisedBound_le i hi
  rw [qbAt, quantise_qb hdone hi]
  exact BitVec.toInt_ofInt_eq_self (by norm_num) (by omega) (by omega)

theorem QuantReady.qbAt_range (h : QuantReady sb s) (hdone : quantise cls s = .done t) {i : Nat} (hi : i < 64) :
    -(quantisedBound i : Int) ≤ qbAt t.mem i ∧ qbAt t.mem i ≤ quantisedTop i := by
  rw [h.qbAt_eq hdone hi]
  exact h.roundDiv_range cls hi

end

/-- Settles O47: the denominator read from DIVT is the one computed from QTAB, `RoundDiv` is the nearest integer, and it
fits the element of QB. -/
theorem dctQuantRounds : Obligations.DctQuantRounds := by
  intro cls s hcb hqt hcoeff hquant
  obtain ⟨sb, hcoefficients⟩ := hcoeff hcb
  have hready : QuantReady sb s := ⟨hquant, hqt, hcoefficients⟩
  obtain ⟨t, hexec, hdone⟩ := hready.exec_dctQuant hcb cls
  refine ⟨t, hexec, fun i hi => ⟨_, quantise_qb hdone hi, ?_⟩, quantise_frame hdone⟩
  obtain ⟨u, hu, hu1, hu255, hden⟩ := hready.divtAt_eq cls hi
  have hvalue := hready.qbAt_eq hdone hi
  rw [qbAt, quantise_qb hdone hi, Option.getD_some, hden] at hvalue
  have hspec := roundDiv_spec (cbAt s.mem i) (denominator_range ⟨hu1, hu255⟩ hi).1
  rw [hu, Option.getD_some, hden, hvalue]
  simpa only [denominator, Nat.cast_mul, Nat.cast_ofNat] using hspec

/-- Every sum of a mid-grey block is a sum of zeros (R225). -/
theorem coefficient_grey {sb : Space Byte} (h : ∀ i, i < 64 → spaceRead sb i = some 128) {i : Nat} (hi : i < 64) :
    coefficient sb i = 0 := by
  have hzero : ∀ j < 64, shiftedSample sb j = 0 := fun j hj => by rw [shiftedSample, h j hj]; rfl
  rw [coefficient_eq sb hi]
  simp [sum8, hzero]

/-- Settles O48: the coefficients are zero, and zero rounds to zero at every denominator. -/
theorem greyBlockQuantisesToZero : Obligations.GreyBlockQuantisesToZero := by
  intro cls s hw hgrey hqt hquant
  have hfull : spaceFull 64 s.mem.sb = true := (spaceFull_iff 64 _).mpr fun i hi => by rw [hgrey i hi]; rfl
  obtain ⟨t, hfwd, hforward⟩ := exec_dctFwd_of_full hw hfull
  have hframe := fwdDct_frame hforward
  have hready : QuantReady s.mem.sb t := by
    refine ⟨?_, ?_, fun i hi => fwdDct_cb hforward hi⟩
    · rw [hframe]; exact hquant
    · rw [hframe]; exact hqt
  obtain ⟨u, hquantise, hdone⟩ := hready.exec_dctQuant (by rw [hframe]; rfl) cls
  refine ⟨t, u, hfwd, hquantise, fun i hi => ?_⟩
  obtain ⟨v, -, hv1, hv255, hden⟩ := hready.divtAt_eq cls hi
  rw [quantise_qb hdone hi, hready.cbAt_eq hi, coefficient_grey hgrey hi, hden,
    roundDiv_zero (denominator_range ⟨hv1, hv255⟩ hi).1]
  rfl

/-! A quantised block in HUF.BLOCK (R224). -/

@[simp] theorem predOf_setPred (h : HufRegs) (comp : Nat) (v : BitVec 16) : predOf (setPred h comp v) comp = v :=
  match comp with
  | 0 | 1 | _ + 2 => rfl

/-- A bound on the magnitude bounds the category (R255). -/
theorem bitlen_natAbs_le {v : Int} {k : Nat} (hlo : -(2 ^ k : Int) < v) (hhi : v < 2 ^ k) : bitlen v.natAbs ≤ k := by
  rw [bitlen_le_iff]
  zify
  exact abs_lt.mpr ⟨hlo, hhi⟩

section
variable {sb : Space Byte} {s t : State} {c : Cls} {comp : Nat}

/-- Every value of a quantised block has a symbol: the DC difference is at most 2040, every other value at most 1020. -/
theorem QuantReady.inRange (h : QuantReady sb s) (hdone : quantise c s = .done t)
    (hlo : -1024 ≤ (predOf t.huf comp).toInt) (hhi : (predOf t.huf comp).toInt ≤ 1016) :
    blockInRange comp t = true := by
  have hdc : -1024 ≤ qbAt t.mem 0 ∧ qbAt t.mem 0 ≤ 1016 := h.qbAt_range hdone (by norm_num)
  rw [blockInRange, Bool.and_eq_true, List.all_eq_true, decide_eq_true_eq]
  refine ⟨bitlen_natAbs_le ?_ ?_, fun v hv => decide_eq_true ?_⟩
  · unfold dcDiff; omega
  · unfold dcDiff; omega
  · obtain ⟨i, hi, rfl⟩ := List.mem_map.mp hv
    obtain ⟨hi1, hi64⟩ := zigzag_tail_range i hi
    obtain ⟨hvlo, hvhi⟩ := h.qbAt_range hdone hi64
    obtain ⟨-, htop, hbound⟩ := quantisedBound_le i hi64
    have hbound := hbound hi1
    exact bitlen_natAbs_le (by omega) (by omega)

end

/-- Settles O49: the checks of HUF.BLOCK pass on a quantised block, the encoder runs to its end, and the predictor becomes
the DC value. -/
theorem quantisedBlockEncodes : Obligations.QuantisedBlockEncodes := by
  intro c cls comp s hcomp hcb hqt hhuf hcoeff hquant hhuff hacc hsink hlo hhi
  obtain ⟨sb, hcoefficients⟩ := hcoeff hcb
  have hready : QuantReady sb s := ⟨hquant, hqt, hcoefficients⟩
  obtain ⟨t, hexec, hdone⟩ := hready.exec_dctQuant hcb c
  have hframe := quantise_frame hdone
  have hhufRegs : t.huf = s.huf := by rw [hframe]; rfl
  have hencoder : EncoderReady t := by rw [hframe]; exact ⟨hhuff hhuf, hacc, hsink⟩
  have hmask : allOnes t.dct.qbWr = true := by rw [hframe]; exact (allOnes_iff _).mpr rfl
  have hfull : spaceFull 64 t.mem.qb = true :=
    (spaceFull_iff 64 _).mpr fun i hi => by rw [quantise_qb hdone hi]; rfl
  have hrange : blockInRange comp t = true :=
    hready.inRange hdone (by rw [hhufRegs]; exact hlo) (by rw [hhufRegs]; exact hhi)
  obtain ⟨w, hblock, hbits⟩ := emitBlock_appends cls hrange hencoder
  have hdc : -1024 ≤ qbAt t.mem 0 ∧ qbAt t.mem 0 ≤ 1016 := hready.qbAt_range hdone (by norm_num)
  refine ⟨t, w.withHuf (setPred t.huf comp ((spaceRead t.mem.qb 0).getD 0)), hexec, ?_, ?_, fun i hi => ?_, ?_⟩
  · rw [execHufBlock_of_checks (decide_eq_true (Nat.lt_succ_of_le hcomp)) (by rw [hhufRegs]; exact hhuf) hmask hfull
      hrange, hblock, conclude_done]
  · rw [State.withHuf_fault, hbits.frame.fault, hframe]
    rfl
  · obtain ⟨hvlo, hvhi⟩ := hready.qbAt_range hdone hi
    obtain ⟨-, htop, -⟩ := quantisedBound_le i hi
    omega
  · rw [State.withHuf_huf, predOf_setPred]
    exact hdc

end Sys2Proof.Machine
end

section
/-! PROOFS. The JPEG bit-packer's own commands (44_huffman.md R251 to R254) and the two commands that set the encoder up
(R248, R250). -/

namespace Sys2Proof.Machine

/-- Settles O54: the width check passes, and `JBPWrite` appends its bits. -/
theorem jbpWriteBits : Obligations.JbpWriteBits := by
  intro code n s hlo hhi hacc hsink
  obtain ⟨t, hwrite, hbits⟩ := jbpWrite_appends code.toNat hhi hacc hsink
  refine ⟨t, ?_, hbits.delivered, hbits.pending, hbits.accOk, hbits.frame⟩
  have hwidth : widthOk n = true := decide_eq_true ⟨hlo, hhi⟩
  show execJbpWrite code n s = _
  rw [execJbpWrite, require_true hwidth, hwrite, conclude_done]

/-- The value of a bit string with zeros below it (R252). -/
theorem valueMsb_bitsMsb_zeros (v c n : Nat) :
    valueMsb (bitsMsb v c ++ List.replicate n false) = v * 2 ^ n % 2 ^ (c + n) := by
  have hzeros : List.replicate n false = bitsMsb 0 n :=
    List.ext_getElem (by simp) fun i _ hi => by rw [List.getElem_replicate, getElem_bitsMsb, Nat.zero_testBit]
  rw [hzeros, bitsMsb_append, Nat.zero_mod, Nat.or_zero, valueMsb_bitsMsb]

/-- The byte that `JBPFlush` writes is the value of the pending bits, padded (R252). -/
theorem ofNat_valueMsb_padded {a : BitAcc} (ha : AccOk a) :
    BitVec.ofNat 8 (valueMsb (pendingBits a ++ List.replicate (8 - a.cnt.toNat) false)) =
      BitVec.ofNat 8 (a.acc.toNat * 2 ^ (8 - a.cnt.toNat)) := by
  obtain ⟨hcnt, -⟩ := ha
  rw [pendingBits, valueMsb_bitsMsb_zeros, show a.cnt.toNat + (8 - a.cnt.toNat) = 8 by omega]
  exact BitVec.eq_of_toNat_eq (by simp)

/-- With no bit pending the accumulator holds zero (R34). -/
theorem AccOk.eq_zero {a : BitAcc} (ha : AccOk a) (hnone : a.cnt = 0) : a = { acc := 0, cnt := 0 } := by
  obtain ⟨acc, cnt⟩ := a
  obtain rfl : cnt = 0 := hnone
  have hacc : acc.toNat < 1 := ha.2
  rw [BitVec.eq_of_toNat_eq (x := acc) (y := 0) (by simpa using hacc)]

/-- Settles O55: nothing is written with no bit pending, else one byte, which the sink accepts. -/
theorem jbpFlushPads : Obligations.JbpFlushPads := by
  intro s hacc hsink
  show conclude _ (jbpFlush s) = _
  rw [jbpFlush, ofNat_valueMsb_padded hacc]
  by_cases hnone : s.jbp.cnt = 0
  · rw [if_pos hnone, if_pos hnone, ← hacc.eq_zero hnone, List.append_nil]
    rfl
  · rw [if_neg hnone, if_neg hnone, sinkWrite_accepts hsink, List.length_singleton, List.drop_one]
    rfl

/-- HUF.BUILD has no check: it is `buildHuff`, which runs to its end (R248). -/
theorem exec_hufBuild (s : State) : ∃ t, exec .hufBuild s = .next t ∧ buildHuff s = .done t := ⟨_, rfl, rfl⟩

/-- Settles O50: element `256 * a + sym` of the filled space is the code of `sym` in table `a`; the printed codes are
those that the histograms give. -/
theorem hufBuildTables : Obligations.HufBuildTables := by
  refine ⟨fun s => ?_, by decide, by decide, by decide, by decide, by decide⟩
  obtain ⟨t, hexec, hbuild⟩ := exec_hufBuild s
  obtain ⟨m, hm, -, rfl⟩ := buildHuff_eq_done hbuild
  refine ⟨_, hexec, fun a sym ha hsym => ?_, rfl⟩
  have hk := hm (256 * a + sym) (by omega)
  rwa [show (256 * a + sym) / 256 = a by omega, show (256 * a + sym) % 256 = sym by omega] at hk

/-- HUF.START has no check (R250). -/
theorem exec_hufStart (s : State) : exec .hufStart s = execHufStart s := rfl

/-- Settles O52: HUF.START runs to its end in every state. -/
theorem hufStartClears : Obligations.HufStartClears := by
  intro s
  rw [exec_hufStart, execHufStart, conclude_done]

end Sys2Proof.Machine
end

section
/-! PROOFS. The canonical property of the four code tables (44_huffman.md R258). One notion carries the proof: the codes
of a table are one run (`CanonicalRun`), in which each code is the successor of the one before it, lengthened with zeros
where the length increases. The order of the codes follows from neighbours by transitivity, and of two codes in that
order neither begins with the other. -/

namespace Sys2Proof.Machine

/-- From the free code `code` of length `len`, every length of the histogram has room for its codes and for one more. -/
def codesFit (hist : List Nat) (len code : Nat) : Bool :=
  match hist with
  | [] => true
  | n :: rest => decide (len ≤ 16) && decide (code + n < 2 ^ len) && codesFit rest (len + 1) ((code + n) * 2)

/-- The histograms satisfy the Kraft inequality strictly (R245 (d)). -/
theorem hbits_codesFit : ∀ a < 4, codesFit (hbits a) 1 0 = true := by decide

/-- The length of each list is the histogram total (R245 (a)). -/
theorem sum_hbits : ∀ a < 4, (hbits a).sum = (hval a).length := by decide +kernel

/-- No symbol is repeated (R245 (a)). -/
theorem hval_nodup : ∀ a < 4, (hval a).Nodup := by decide +kernel

/-- What R247 can assign when `code` is the next free code of length `len`: that code, if it is not all one bits, and
then the run from its successor; or the run from the free code lengthened by one bit. -/
inductive CanonicalRun : Nat → Nat → List (Nat × HCode) → Prop
  | done (len code : Nat) : CanonicalRun len code []
  | assign {sym : Nat} {h : HCode} {rest : List (Nat × HCode)} (hfit : h.code.toNat + 1 < 2 ^ h.len.toNat)
      (hrest : CanonicalRun h.len.toNat (h.code.toNat + 1) rest) :
      CanonicalRun h.len.toNat h.code.toNat ((sym, h) :: rest)
  | lengthen {len code : Nat} {rest : List (Nat × HCode)} (hrest : CanonicalRun (len + 1) (code * 2) rest) :
      CanonicalRun len code rest

/-- `h` is the free code `code` of length `len`, lengthened with zero bits. -/
def Continues (len code : Nat) (h : HCode) : Prop :=
  len ≤ h.len.toNat ∧ h.code.toNat = code * 2 ^ (h.len.toNat - len)

/-- The code of `f` is the one after that of `e`, lengthened with zero bits. -/
def Succeeds (e f : Nat × HCode) : Prop := Continues e.2.len.toNat (e.2.code.toNat + 1) f.2

/-- The codes of one length are consecutive numbers (R247). -/
theorem canonicalRun_block {len : Nat} (hlen : len ≤ 16) {syms : List Nat} {code k : Nat} {rest : List (Nat × HCode)}
    (hfit : code + k + syms.length < 2 ^ len) (hrest : CanonicalRun len (code + k + syms.length) rest) :
    CanonicalRun len (code + k) ((syms.zipIdx k).map (fun x =>
      (x.1, { len := BitVec.ofNat 5 len, code := BitVec.ofNat 16 (code + x.2) })) ++ rest) := by
  induction syms generalizing k with
  | nil => exact hrest
  | cons sym syms ih =>
    rw [List.length_cons] at hfit hrest
    have hpow : 2 ^ len ≤ 2 ^ 16 := Nat.pow_le_pow_right (by norm_num) hlen
    have hlenEq : (BitVec.ofNat 5 len).toNat = len := Nat.mod_eq_of_lt (by omega)
    have hcodeEq : (BitVec.ofNat 16 (code + k)).toNat = code + k := Nat.mod_eq_of_lt (by omega)
    have htail := ih (k := k + 1) (by omega) (by convert hrest using 1; omega)
    have hassign := CanonicalRun.assign (sym := sym)
      (h := { len := BitVec.ofNat 5 len, code := BitVec.ofNat 16 (code + k) })
      (by rw [hlenEq, hcodeEq]; omega) (by rw [hlenEq, hcodeEq]; exact htail)
    rwa [hlenEq, hcodeEq] at hassign

/-- `BuildTable` assigns a canonical run (R247). -/
theorem assignCodes_canonicalRun {hist : List Nat} {len code : Nat} {syms : List Nat}
    (hsum : hist.sum = syms.length) (hfit : codesFit hist len code = true) :
    CanonicalRun len code (assignCodes hist len code syms) := by
  induction hist generalizing len code syms with
  | nil => exact .done len code
  | cons n rest ih =>
    simp only [codesFit, Bool.and_eq_true, decide_eq_true_eq] at hfit
    obtain ⟨⟨hlen, hroom⟩, hfit⟩ := hfit
    rw [List.sum_cons] at hsum
    have htake : (syms.take n).length = n := List.length_take_of_le (by omega)
    have hrest := ih (syms := syms.drop n) (by rw [List.length_drop]; omega) hfit
    exact canonicalRun_block hlen (k := 0) (by rwa [htake]) (by rw [htake]; exact .lengthen hrest)

/-- `BuildTable` gives every symbol a code, in symbol order (R247). -/
theorem assignCodes_symbols {hist : List Nat} {len code : Nat} {syms : List Nat} (hsum : hist.sum = syms.length) :
    (assignCodes hist len code syms).map Prod.fst = syms := by
  induction hist generalizing len code syms with
  | nil => exact (List.eq_nil_of_length_eq_zero hsum.symm).symm
  | cons n rest ih =>
    rw [List.sum_cons] at hsum
    have hblock : ((syms.take n).zipIdx.map Prod.fst) = syms.take n := List.zipIdx_map_fst 0 _
    rw [assignCodes, List.map_append, List.map_map, ih (by rw [List.length_drop]; omega)]
    exact (congrArg (· ++ syms.drop n) hblock).trans (List.take_append_drop n syms)

theorem Continues.of_lengthen {len code : Nat} {h : HCode} (hc : Continues (len + 1) (code * 2) h) :
    Continues len code h := by
  obtain ⟨hlen, hcode⟩ := hc
  refine ⟨Nat.le_of_succ_le hlen, ?_⟩
  rw [hcode, Nat.mul_assoc, ← pow_succ', show h.len.toNat - (len + 1) + 1 = h.len.toNat - len by omega]

/-- The first code of a run is the free code it starts from. -/
theorem CanonicalRun.head {len code : Nat} {l : List (Nat × HCode)} (h : CanonicalRun len code l) :
    ∀ e ∈ l.head?, Continues len code e.2 := by
  induction h with
  | done len code => exact fun e he => nomatch he
  | assign hfit hrest ih =>
    intro e he
    obtain rfl := Option.mem_some.mp he
    exact ⟨le_rfl, by rw [Nat.sub_self, pow_zero, Nat.mul_one]⟩
  | lengthen hrest ih => exact fun e he => (ih e he).of_lengthen

/-- Neighbours in a run (R258 (b), (c)). -/
theorem CanonicalRun.isChain {len code : Nat} {l : List (Nat × HCode)} (h : CanonicalRun len code l) :
    l.IsChain Succeeds := by
  induction h with
  | done len code => exact List.isChain_nil
  | assign hfit hrest ih => exact List.isChain_cons.mpr ⟨hrest.head, ih⟩
  | lengthen hrest ih => exact ih

/-- No code of a run is all one bits (R258 (d)). -/
theorem CanonicalRun.fits {len code : Nat} {l : List (Nat × HCode)} (h : CanonicalRun len code l) :
    ∀ e ∈ l, e.2.code.toNat + 1 < 2 ^ e.2.len.toNat := by
  induction h with
  | done len code => exact fun e he => nomatch he
  | assign hfit hrest ih => exact List.forall_mem_cons.mpr ⟨hfit, ih⟩
  | lengthen hrest ih => exact ih

/-- The code of `f` is not shorter than that of `e`, and lies after every code of its own length that begins with that
of `e`. -/
def Precedes (e f : Nat × HCode) : Prop :=
  e.2.len.toNat ≤ f.2.len.toNat ∧ (e.2.code.toNat + 1) * 2 ^ (f.2.len.toNat - e.2.len.toNat) ≤ f.2.code.toNat

theorem Succeeds.precedes {e f : Nat × HCode} (h : Succeeds e f) : Precedes e f := ⟨h.1, h.2.ge⟩

theorem Precedes.trans {e f g : Nat × HCode} (h : Precedes e f) (h' : Precedes f g) : Precedes e g := by
  obtain ⟨hlen, hcode⟩ := h
  obtain ⟨hlen', hcode'⟩ := h'
  refine ⟨hlen.trans hlen', ?_⟩
  calc (e.2.code.toNat + 1) * 2 ^ (g.2.len.toNat - e.2.len.toNat)
      = (e.2.code.toNat + 1) * 2 ^ (f.2.len.toNat - e.2.len.toNat) * 2 ^ (g.2.len.toNat - f.2.len.toNat) := by
        rw [Nat.mul_assoc, ← pow_add, ← Nat.sub_add_sub_cancel hlen' hlen, Nat.add_comm (g.2.len.toNat - _)]
    _ ≤ (f.2.code.toNat + 1) * 2 ^ (g.2.len.toNat - f.2.len.toNat) :=
        Nat.mul_le_mul_right _ (hcode.trans (Nat.le_succ _))
    _ ≤ g.2.code.toNat := hcode'

/-- The codes of a run in order, from neighbour to neighbour. -/
theorem CanonicalRun.pairwise {len code : Nat} {l : List (Nat × HCode)} (h : CanonicalRun len code l) :
    l.Pairwise Precedes := by
  have : IsTrans _ Precedes := ⟨fun _ _ _ => Precedes.trans⟩
  exact List.isChain_iff_pairwise.mp (h.isChain.imp fun _ _ => Succeeds.precedes)

/-- A bit string that another one begins with is the top of the other's number. -/
theorem bitsMsb_prefix {v m w n : Nat} (hv : v < 2 ^ m) (hw : w < 2 ^ n) (h : bitsMsb v m <+: bitsMsb w n) :
    m ≤ n ∧ v = w / 2 ^ (n - m) := by
  have hle : m ≤ n := by simpa using h.length_le
  refine ⟨hle, ?_⟩
  have hcut := bitsMsb_add w m (n - m)
  rw [Nat.add_sub_cancel' hle] at hcut
  have htop : bitsMsb v m = bitsMsb (w / 2 ^ (n - m)) m :=
    (List.prefix_of_prefix_length_le h (hcut ▸ List.prefix_append _ _) (by simp)).eq_of_length (by simp)
  have hdiv : w / 2 ^ (n - m) < 2 ^ m :=
    Nat.div_lt_of_lt_mul (by rwa [← pow_add, Nat.sub_add_cancel hle])
  have hvalue := congrArg valueMsb htop
  rwa [valueMsb_bitsMsb, valueMsb_bitsMsb, Nat.mod_eq_of_lt hv, Nat.mod_eq_of_lt hdiv] at hvalue

/-- The bit string of a code (R108). -/
def codeBits (h : HCode) : List Bool := bitsMsb h.code.toNat h.len.toNat

theorem symbolBits_eq_codeBits (t sym : Nat) : symbolBits t sym = codeBits (huffEntry t sym) := rfl

/-- Neither code begins with the other. -/
def PrefixFree (e f : Nat × HCode) : Prop := ¬ codeBits e.2 <+: codeBits f.2 ∧ ¬ codeBits f.2 <+: codeBits e.2

theorem Precedes.prefixFree {e f : Nat × HCode} (h : Precedes e f) (he : e.2.code.toNat < 2 ^ e.2.len.toNat)
    (hf : f.2.code.toNat < 2 ^ f.2.len.toNat) : PrefixFree e f := by
  obtain ⟨hlen, hcode⟩ := h
  constructor
  · intro hprefix
    obtain ⟨-, htop⟩ := bitsMsb_prefix he hf hprefix
    have := (Nat.le_div_iff_mul_le (by positivity)).mpr hcode
    omega
  · intro hprefix
    obtain ⟨hlen', htop⟩ := bitsMsb_prefix hf he hprefix
    rw [Nat.sub_eq_zero_of_le hlen, pow_zero, Nat.div_one] at htop
    rw [Nat.sub_eq_zero_of_le hlen', pow_zero] at hcode
    omega

/-- No code of a run begins with another (R258 (a)). -/
theorem CanonicalRun.prefixFree {len code : Nat} {l : List (Nat × HCode)} (h : CanonicalRun len code l)
    {e f : Nat × HCode} (he : e ∈ l) (hf : f ∈ l) (hne : e ≠ f) : PrefixFree e f := by
  have hsymm : Std.Symm PrefixFree := ⟨fun _ _ => And.symm⟩
  have hall : l.Pairwise PrefixFree := h.pairwise.imp_of_mem fun ha hb hab =>
    hab.prefixFree (Nat.lt_of_succ_lt (h.fits _ ha)) (Nat.lt_of_succ_lt (h.fits _ hb))
  exact hall.forall he hf hne

/-! The four tables. -/

section
variable {a : Nat} (ha : a < 4)
include ha

theorem tableCodes_canonicalRun : CanonicalRun 1 0 (tableCodes a) :=
  assignCodes_canonicalRun (sum_hbits a ha) (hbits_codesFit a ha)

theorem tableCodes_symbols : (tableCodes a).map Prod.fst = hval a := assignCodes_symbols (sum_hbits a ha)

/-- The entry of a symbol is the code that the table assigns it. -/
theorem huffEntry_of_mem {sym : Nat} {h : HCode} (hmem : (sym, h) ∈ tableCodes a) : huffEntry a sym = h := by
  obtain ⟨before, after, hcodes⟩ := List.append_of_mem hmem
  have hnodup : ((tableCodes a).map Prod.fst).Nodup := by rw [tableCodes_symbols ha]; exact hval_nodup a ha
  rw [hcodes, List.map_append, List.map_cons, List.nodup_append] at hnodup
  obtain ⟨-, -, hdistinct⟩ := hnodup
  have hfirst : (tableCodes a).lookup sym = some h := List.lookup_eq_some_iff.mpr ⟨before, after, hcodes, fun p hp =>
    bne_iff_ne.mpr fun heq => hdistinct _ (List.mem_map_of_mem hp) _ List.mem_cons_self heq.symm⟩
  rw [huffEntry, hfirst, Option.getD_some]

/-- The entry of the symbol at a position of HVAL is the code at that position. -/
theorem huffEntry_tableAt {p : Nat} (hp : p < (tableCodes a).length) :
    huffEntry a (tableAt (hval a) p) = (tableCodes a)[p].2 := by
  refine huffEntry_of_mem ha ?_
  have hsym : tableAt (hval a) p = (tableCodes a)[p].1 := by
    simp [tableAt, ← tableCodes_symbols ha, hp]
  rw [hsym]
  exact List.getElem_mem hp

end

/-- A symbol whose length is not 0 is one that the table assigns a code. -/
theorem mem_tableCodes {a sym : Nat} (h : (huffEntry a sym).len ≠ 0) : (sym, huffEntry a sym) ∈ tableCodes a := by
  unfold huffEntry at h ⊢
  cases hfound : (tableCodes a).lookup sym with
  | none => rw [hfound] at h; exact absurd rfl h
  | some code =>
    obtain ⟨before, after, hcodes, -⟩ := List.lookup_eq_some_iff.mp hfound
    simp [hcodes]

/-- Settles O51: the codes of a table are one canonical run, in the order of HVAL. -/
theorem huffmanCanonical : Obligations.HuffmanCanonical := by
  intro a ha
  have hrun := tableCodes_canonicalRun ha
  have hlength : (tableCodes a).length = (hval a).length := by rw [← tableCodes_symbols ha, List.length_map]
  refine ⟨fun x y _ _ hne hx hy => ?_, fun p hp => ?_, fun x _ hx => hrun.fits _ (mem_tableCodes hx)⟩
  · rw [symbolBits_eq_codeBits, symbolBits_eq_codeBits]
    exact (hrun.prefixFree (mem_tableCodes hx) (mem_tableCodes hy) fun h => hne (congrArg Prod.fst h)).1
  · rw [← hlength] at hp
    obtain ⟨hlen, hcode⟩ := List.isChain_iff_getElem.mp hrun.isChain p hp
    simp only [huffEntry_tableAt ha (Nat.lt_of_succ_lt hp), huffEntry_tableAt ha hp]
    refine ⟨hlen, fun heq => ?_⟩
    rw [hcode, heq, Nat.sub_self, pow_zero, Nat.mul_one]

end Sys2Proof.Machine
end

section
/-! PROOFS. The command cycle, CTL.RESET and the buffer loads (45_control_and_buffers.md R280 to R284). -/

namespace Sys2Proof.Machine

/-! The command cycle (R280). -/

/-- The word at the head of the port is the one taken. -/
theorem step_of_command {s : State} {w : Word} {rest : List HostEvent} (he : s.events = .command w :: rest) :
    step s = takeCommand w (s.withEvents rest) := by
  simp only [step, runEvent, he]

/-- A taken command ends as it ends by itself, unless it waits for the sink until the reset pin comes (R340). -/
theorem takeCommand_of_no_wait {w : Word} {s : State}
    (hwait : runCommand w s ≠ .fault .sinkNeverReady ∨ HostEvent.resetPin ∉ s.events) :
    takeCommand w s = runCommand w s := by
  unfold takeCommand
  split
  next hr => exact hr.symm
  next hr =>
    have hpin : HostEvent.resetPin ∉ s.events := hwait.resolve_left fun hends => hends hr
    rw [hr, pinEndsWait, if_neg hpin]
  next hr => exact hr.symm
  next hr => exact hr.symm

/-- While FAULTED a word that decodes to CTL.RESET is not discarded: it is the encoder's word (R311). -/
theorem discards_of_decoded {w : Word} {i : Instr} {s : State} (hw : decode w = .ok i)
    (hs : Healthy s ∨ i = .ctlReset) : discards s w = false := by
  rcases hs with hhealthy | rfl
  · simp [discards, hhealthy]
  · obtain ⟨-, hword⟩ := encodeDecodeAgree w _ hw
    simp [discards, hword]

/-- A word that decodes and is not discarded runs its command. -/
theorem runCommand_of_decoded {w : Word} {i : Instr} {s : State} (hw : decode w = .ok i)
    (hs : Healthy s ∨ i = .ctlReset) : runCommand w s = exec i s := by
  simp only [runCommand, discards_of_decoded hw hs, hw, Bool.false_eq_true, if_false]

/-- One step on an offered word that decodes, when no pulse of the pin ends a wait for the sink. -/
theorem step_of_decoded {s : State} {w : Word} {rest : List HostEvent} {i : Instr}
    (he : s.events = .command w :: rest) (hw : decode w = .ok i) (hs : Healthy s ∨ i = .ctlReset)
    (hwait : exec i (s.withEvents rest) ≠ .fault .sinkNeverReady ∨ HostEvent.resetPin ∉ rest) :
    step s = exec i (s.withEvents rest) := by
  have hrun : runCommand w (s.withEvents rest) = exec i (s.withEvents rest) := runCommand_of_decoded hw hs
  rw [step_of_command he, takeCommand_of_no_wait (by rwa [hrun]), hrun]

/-- A word of the port's full width is offered as it is, in front of the words that wait (R79, R90). -/
theorem withFetchWord_word (s : State) (w : Word) :
    s.withFetchWord 32 w.toNat = s.withEvents (.command w :: s.events) := by
  rw [State.withFetchWord, offerWord, Nat.mod_eq_of_lt w.isLt, BitVec.ofNat_toNat, BitVec.setWidth_eq]

/-- Settles O5: the offered word decodes to the command and is not discarded; the encoder's word decodes to its own
command (`decodeEncodeAgree`). -/
theorem stepRunsDecodedCommand : Obligations.StepRunsDecodedCommand := by
  refine fun s => ⟨fun he => ?_, fun w rest i he hw hs hwait => step_of_decoded he hw hs hwait,
    fun i hi hs hwait => ?_⟩
  · simp only [step, runEvent, he]
  · rw [withFetchWord_word]
    exact step_of_decoded (s := s.withEvents _) rfl (decodeEncodeAgree i hi) hs hwait

/-! CTL.RESET (R281). -/

/-- CTL.RESET has no check. -/
theorem exec_ctlReset (s : State) : exec .ctlReset s = .next (resetElements s) := rfl

/-- Settles O10: the reset elements have the values of the table, and the command is accepted while FAULTED as well. -/
theorem ctlResetRestores : Obligations.CtlResetRestores := by
  refine ⟨fun s => ⟨_, exec_ctlReset s, resetTable_resetElements s s.out, resetElements_out s, resetElements_events s,
    resetElements_sink s⟩, fun s rest he => ?_⟩
  obtain ⟨hword, -⟩ := specWordsDecode
  exact step_of_decoded he hword (.inr rfl) (.inl fun hends => by rw [exec_ctlReset] at hends; cases hends)

/-! The buffer loads (R283, R284). -/

/-- BUF.LDS has no check: an index that its field can carry is inside SB. -/
theorem exec_bufLds {idx : Nat} (hi : idx < 64) (val : Byte) (s : State) :
    exec (.bufLds idx val) s = .next ((s.withMem (s.mem.withSb (spaceWrite s.mem.sb idx val))).withDct
      { s.dct with sbWr := markWritten s.dct.sbWr idx }) := by
  obtain ⟨t, hload⟩ := loadSample_ends hi val s
  obtain ⟨-, rfl⟩ := loadSample_eq_done hload
  show execBufLds idx val s = _
  rw [execBufLds, hload, conclude_done]

/-- BUF.LDQ has no check: an index that its field can carry is inside QB. -/
theorem exec_bufLdq {idx : Nat} (hi : idx < 64) (val : BitVec 16) (s : State) :
    exec (.bufLdq idx val) s = .next ((s.withMem (s.mem.withQb (spaceWrite s.mem.qb idx val))).withDct
      { s.dct with qbWr := markWritten s.dct.qbWr idx }) := by
  obtain ⟨t, hload⟩ := loadCoeff_ends hi val s
  obtain ⟨-, rfl⟩ := loadCoeff_eq_done hload
  show execBufLdq idx val s = _
  rw [execBufLdq, hload, conclude_done]

/-- A coefficient reads as the signed value of the 16 bits just stored (R284). -/
theorem qbAt_of_written {m : Memory} {qb : Space (BitVec 16)} {idx : Nat} {val : BitVec 16}
    (hqb : m.qb = spaceWrite qb idx val) : qbAt m idx = val.toInt := by
  rw [qbAt, hqb, spaceRead_write_same, Option.getD_some]

/-- Settles O56: one write of SB and one mark in SB_WR. -/
theorem bufLdsStores : Obligations.BufLdsStores :=
  fun idx val s hi => ⟨_, exec_bufLds hi val s, fun k => spaceRead_write s.mem.sb idx k val,
    fun _ hk => markWritten_getLsbD s.dct.sbWr hk, rfl⟩

/-- Settles O57: one write of QB and one mark in QB_WR. -/
theorem bufLdqStores : Obligations.BufLdqStores :=
  fun idx val s hi => ⟨_, exec_bufLdq hi val s, qbAt_of_written rfl, fun k => spaceRead_write s.mem.qb idx k val,
    fun _ hk => markWritten_getLsbD s.dct.qbWr hk, rfl⟩

end Sys2Proof.Machine
end

section
/-! PROOFS. The checks at the head of a command (60_exceptions.md R304 to R309, R313, R314) and the fault state (R311,
R315). -/

namespace Sys2Proof.Machine

/-! A check that fails (R313). -/

/-- A command whose procedure raises a fault from the command's own first state raises it at once. -/
theorem exec_raisesAtOnce {i : Instr} {c : Cause} {s : State} {r : Res} (hi : exec i s = conclude (encode i) r)
    (hr : r = .raised c s) : RaisesAtOnce c.toCode (encode i) s (exec i s) := by
  rw [hi, hr]
  exact raisesAtOnce_conclude c _ s

/-- Two checks in a row with one cause are one check. -/
theorem require_require (p q : Bool) (c : Cause) (k : State → Res) :
    require p c (require q c k) = require (p && q) c k := by
  cases p <;> rfl

theorem initBitsOk_eq_false {b : Nat} (h : b < 3 ∨ 9 < b) : initBitsOk b = false :=
  decide_eq_false (show ¬ (3 ≤ b ∧ b ≤ 9) by omega)

theorem qualityOk_eq_false {q : Nat} (h : q = 0 ∨ 100 < q) : qualityOk q = false :=
  decide_eq_false (show ¬ (1 ≤ q ∧ q ≤ 100) by omega)

theorem widthOk_eq_false {n : Nat} (h : n = 0 ∨ 16 < n) : widthOk n = false :=
  decide_eq_false (show ¬ (1 ≤ n ∧ n ≤ 16) by omega)

theorem compOk_eq_true {comp : Nat} (h : comp ≤ 2) : compOk comp = true := decide_eq_true (Nat.lt_succ_of_le h)

/-! ILLEGAL_SEQUENCE (R308). -/

/-- BP and PK belong to the stream while one is open (40_bitpacker_packetizer.md R130). -/
theorem unlessStream_of_open {s : State} (h : s.lzw.active = true) (k : State → Res) :
    unlessStream k s = .raised .illegalSequence s :=
  require_false (by rw [h]; rfl)

/-- Settles O13: the sequence checks stand first, after the operand check of HUF.BLOCK alone; where a command has two,
they have the same cause. -/
theorem illegalSequenceFaults : Obligations.IllegalSequenceFaults := by
  intro s
  refine ⟨fun hopen b => ?start, fun hidle => ⟨fun c => ?sym, ?stop⟩, fun hopen => ?packers,
    fun ⟨k, hk, hclear⟩ => ?fwd, fun hlacks cls => ?quant, fun hlacks comp cls hcomp => ?block⟩
  case start => exact exec_raisesAtOnce (c := .illegalSequence) rfl (require_false (by rw [hopen]; rfl))
  case sym => exact exec_raisesAtOnce (c := .illegalSequence) rfl (require_false hidle)
  case stop => exact exec_raisesAtOnce (c := .illegalSequence) rfl (require_false hidle)
  case packers =>
    have hraised := unlessStream_of_open hopen
    exact ⟨fun _ _ => exec_raisesAtOnce rfl (hraised _), exec_raisesAtOnce rfl (hraised _),
      fun _ => exec_raisesAtOnce rfl (hraised _), exec_raisesAtOnce rfl (hraised _)⟩
  case fwd =>
    exact exec_raisesAtOnce (c := .illegalSequence) rfl (require_false (allOnes_eq_false hk hclear))
  case quant =>
    refine exec_raisesAtOnce (c := .illegalSequence) rfl ?_
    rw [require_require]
    exact require_false (Bool.and_eq_false_iff.mpr hlacks)
  case block =>
    refine exec_raisesAtOnce (c := .illegalSequence) rfl ?_
    have hmask := hlacks.imp_right fun ⟨_, hk, hclear⟩ => allOnes_eq_false hk hclear
    rw [require_true (compOk_eq_true hcomp), require_require]
    exact require_false (Bool.and_eq_false_iff.mpr hmask)

/-! INVALID_PARAMETER, INVALID_SYMBOL and EMPTY_STREAM (R304 to R306). -/

/-- Settles O14: the operand checks come right after the sequence check. -/
theorem operandCheckFaults : Obligations.OperandCheckFaults := by
  intro s
  refine ⟨fun hidle b hb => ?start, fun q hq => ?quality, fun hidle code n hn => ?bp, fun code n hn => ?jbp,
    fun hopen c hc => ?sym, fun hopen hnone => ?stop⟩
  case start =>
    refine exec_raisesAtOnce (c := .invalidParameter) rfl ?_
    rw [require_true (by rw [hidle]; rfl)]
    exact require_false (initBitsOk_eq_false hb)
  case quality =>
    exact exec_raisesAtOnce (c := .invalidParameter) rfl (require_false (qualityOk_eq_false hq))
  case bp =>
    refine exec_raisesAtOnce (c := .invalidParameter) rfl ?_
    rw [unlessStream_of_idle hidle]
    exact require_false (widthOk_eq_false hn)
  case jbp =>
    exact exec_raisesAtOnce (c := .invalidParameter) rfl (require_false (widthOk_eq_false hn))
  case sym =>
    refine exec_raisesAtOnce (c := .invalidSymbol) rfl ?_
    rw [require_true hopen]
    exact require_false (decide_eq_false (Nat.not_lt.mpr hc))
  case stop =>
    refine exec_raisesAtOnce (c := .emptyStream) rfl ?_
    rw [require_true hopen]
    exact require_false hnone

/-! COEFF_RANGE (R309). -/

/-- Every element from 1 to 63 has a place in the zig-zag order behind the first (44_huffman.md R246). -/
theorem mem_zigzag_tail : ∀ i < 64, 1 ≤ i → i ∈ zigzag.drop 1 := by decide

theorem blockInRange_eq_false {comp : Nat} {s : State}
    (h : 11 < cat (dcDiff comp s) ∨ ∃ i, 1 ≤ i ∧ i < 64 ∧ 10 < cat (qbAt s.mem i)) : blockInRange comp s = false := by
  refine Bool.and_eq_false_iff.mpr (h.imp (fun hdc => decide_eq_false (Nat.not_le.mpr hdc)) ?_)
  rintro ⟨i, hi, hi64, hac⟩
  exact List.all_eq_false.mpr
    ⟨_, List.mem_map_of_mem (mem_zigzag_tail i hi64 hi), by simpa using hac⟩

/-- Settles O15: the checks before it pass, and the scan of the block fails at the value without a symbol. -/
theorem coeffRangeFaults : Obligations.CoeffRangeFaults := by
  intro s comp cls hcomp hvalid hmask ⟨_, hqb, _⟩ hlarge
  have hw : allOnes s.dct.qbWr = true := (allOnes_iff _).mpr hmask
  refine exec_raisesAtOnce (c := .coeffRange) rfl ?_
  rw [require_true (compOk_eq_true hcomp), require_true hvalid, require_true hw,
    withValues_true (spaceFull_of_allOnes hw hqb)]
  exact require_false (blockInRange_eq_false hlarge)

/-! The fault state (R311, R315). -/

/-- While FAULTED a command word is discarded or is CTL.RESET. -/
theorem runCommand_of_faulted (w : Word) {s : State} (hs : s.fault.faulted = true) :
    (w ≠ 0x01000000 ∧ runCommand w s = .next s) ∨ (w = 0x01000000 ∧ runCommand w s = .next (resetElements s)) := by
  obtain ⟨hreset, -⟩ := specWordsDecode
  by_cases hw : w = 0x01000000
  · subst hw
    exact .inr ⟨rfl, runCommand_of_decoded hreset (.inr rfl)⟩
  · obtain ⟨-, hword⟩ := encodeDecodeAgree _ _ hreset
    have hdiscards : discards s w = true := by
      rw [discards, hs, hword, Bool.true_and]
      exact bne_iff_ne.mpr hw
    exact .inl ⟨hw, if_pos hdiscards⟩

/-- Settles O6: the word is taken from the port and the command discarded. -/
theorem faultedCoreDiscards : Obligations.FaultedCoreDiscards := by
  intro s w rest hs he hw
  rcases runCommand_of_faulted w (s := s.withEvents rest) hs with ⟨-, hrun⟩ | ⟨heq, -⟩
  · rw [step_of_command he, takeCommand_of_no_wait (.inl (by rw [hrun]; exact fun h => nomatch h)), hrun]
  · exact absurd heq hw

/-- Settles O11: of all that a step can do (`step_cases`), only CTL.RESET and the reset pin do not keep FAULTED, and
both leave `resetElements`. -/
theorem onlyResetLeavesFault : Obligations.OnlyResetLeavesFault := by
  intro s t hs h ht
  rcases step_cases h with ⟨-, rfl⟩ | ⟨w, rest, he, hr⟩ | ⟨w, rest, he, hr, -⟩ | ⟨rest, he, rfl⟩ |
    ⟨w, rest, u, he, -, rfl⟩ | ⟨w, rest, he, -, rfl⟩
  · exact absurd ht (by simp [hs])
  · rcases runCommand_of_faulted w (s := s.withEvents rest) hs with ⟨-, hrun⟩ | ⟨rfl, hrun⟩
    · cases hrun.symm.trans hr
      exact absurd ht (by simp [hs])
    · cases hrun.symm.trans hr
      exact ⟨⟨rest, .inl he⟩, resetTable_resetElements _ s.out⟩
  · rcases runCommand_of_faulted w (s := s.withEvents rest) hs with ⟨-, hrun⟩ | ⟨-, hrun⟩ <;>
      cases hrun.symm.trans hr
  · exact ⟨⟨rest, .inr (.inl he)⟩, resetTable_resetElements _ []⟩
  · exact ⟨⟨rest, .inr (.inr ⟨w, he⟩)⟩, resetTable_resetElements _ []⟩
  · exact ⟨⟨rest, .inr (.inr ⟨w, he⟩)⟩, resetTable_resetElements _ []⟩

end Sys2Proof.Machine
end

section
/-! PROOFS. Which faults each command can raise (60_exceptions.md R301 to R303). One notion carries them, `Faults`:
a list of causes, the checks at the head of a command in their order and then the sink. -/

namespace Sys2Proof.Machine

/-! What a procedure can raise. -/

/-- What began in `s` raises only the faults `cs`, each but SINK_ERROR from `s` itself (R313), and is not FAULTED
otherwise. -/
def Faults (cs : List Cause) (s : State) (r : Res) : Prop :=
  r.Ends (fun t => Healthy s → Healthy t) (fun c t => c ∈ cs ∧ (c ≠ .sinkError → t = s)) (fun _ => True)

/-- A procedure that runs to its end and leaves the fault registers alone. -/
theorem faults_done {cs : List Cause} {s t : State} (h : t.fault = s.fault) : Faults cs s (.done t) :=
  fun hs => (congrArg FaultRegs.faulted h).trans hs

/-- A check, in front of what can be raised once it has passed. -/
theorem faults_require {cs : List Cause} {p : Bool} {c : Cause} {k : State → Res} {s : State}
    (h : p = true → Faults cs s (k s)) : Faults (c :: cs) s (require p c k s) := by
  cases p with
  | true => exact (h rfl).mono (fun _ ht => ht) (fun _ _ ⟨hc, ht⟩ => ⟨List.mem_cons_of_mem _ hc, ht⟩) (fun _ hf => hf)
  | false => exact ⟨List.mem_cons_self, fun _ => rfl⟩

theorem faults_withValues {cs : List Cause} {p : Bool} {k : State → Res} {s : State} (h : Faults cs s (k s)) :
    Faults cs s (withValues p k s) := by
  cases p with
  | true => exact h
  | false => trivial

/-! Procedures that ask the sink: their one fault is SINK_ERROR (R303), and it may come from any state on the way. -/

theorem faults_sink {s : State} {r : Res}
    (h : r.Ends (fun t => t.fault = s.fault) (fun c _ => c = .sinkError) (fun _ => True)) : Faults [.sinkError] s r :=
  h.mono (fun _ ht hs => (congrArg FaultRegs.faulted ht).trans hs)
    (fun _ _ hc => ⟨List.mem_singleton.mpr hc, fun hne => absurd hc hne⟩) (fun _ hf => hf)

/-- The fault of the sink counts the same from an earlier state. -/
theorem Faults.of_earlier {s t : State} {r : Res} (hr : Faults [.sinkError] t r) (ht : Healthy s → Healthy t) :
    Faults [.sinkError] s r :=
  hr.mono (fun _ hu hs => hu (ht hs))
    (fun _ _ ⟨hc, _⟩ => ⟨hc, fun hne => absurd (List.mem_singleton.mp hc) hne⟩) (fun _ hf => hf)

theorem Faults.andThen {s : State} {r : Res} {k : State → Res} (hr : Faults [.sinkError] s r)
    (hk : ∀ t, Faults [.sinkError] t (k t)) : Faults [.sinkError] s (r.andThen k) :=
  Res.Ends.andThen hr fun t ht => (hk t).of_earlier ht

theorem PackEnds.faults {s : State} {P : State → Prop} {r : Res} (h : PackEnds s P r) : Faults [.sinkError] s r :=
  faults_sink (Res.Ends.mono h (fun _ ht => ht.1.fault) (fun _ _ ht => ht.1) (fun _ _ => trivial))

theorem JbpEnds.faults {s : State} {P : State → Prop} {r : Res} (h : JbpEnds s P r) : Faults [.sinkError] s r :=
  faults_sink (Res.Ends.mono h (fun _ ht => ht.1.fault) (fun _ _ ht => ht.1) (fun _ _ => trivial))

theorem sinkWrite_faults (b : Byte) (s : State) : Faults [.sinkError] s (sinkWrite b s) := by
  rcases sinkWrite_cases b s with ⟨hr, -⟩ | ⟨hr, -⟩ | ⟨hr, -⟩ <;> rw [hr]
  · exact faults_done rfl
  · exact faults_sink rfl
  · trivial

theorem emitCode_faults (c : Nat) (s : State) : Faults [.sinkError] s (emitCode c s) := by
  refine faults_sink ((emitCode_ends c s).mono ?_ (fun _ _ ht => ht.1) (fun _ _ => trivial))
  rintro t ⟨u, -, hframe, rfl⟩
  exact hframe.fault

theorem insertPair_faults (i key : Nat) (s : State) : Faults [.sinkError] s (insertPair i key s) := by
  unfold insertPair
  split
  · trivial
  · exact faults_done rfl

/-- Emptying the table leaves the fault registers alone; the clear code is written like any other (41_lzw.md R159). -/
theorem resetDictionary_faults (s : State) : Faults [.sinkError] s (resetDictionary s) :=
  (emitCode_faults _ _).of_earlier id

theorem startNewMatch_faults (c : Byte) (i : Nat) (s : State) : Faults [.sinkError] s (startNewMatch c i s) := by
  refine (emitCode_faults _ s).andThen fun t => ?_
  have hdictionary : Faults [.sinkError] t (if t.lzw.freeEnt.toNat < maxCodes then
      insertPair i (hashKey c t.lzw.prefixCode) t else resetDictionary t) := by
    split
    · exact insertPair_faults i _ t
    · exact resetDictionary_faults t
  exact hdictionary.andThen fun _ => faults_done rfl

theorem takeSymbol_faults (c : Byte) (s : State) : Faults [.sinkError] s (takeSymbol c s) := by
  unfold takeSymbol
  split
  · split
    · trivial
    · exact faults_done rfl
    · exact startNewMatch_faults c _ s
  · exact faults_done rfl

theorem closeStream_faults (s : State) : Faults [.sinkError] s (closeStream s) :=
  (emitCode_faults _ s).andThen fun t => (emitCode_faults _ t).andThen fun u =>
    (bpFlush_packEnds u).faults.andThen fun v => (sinkWrite_faults 0 v).andThen fun _ => faults_done rfl

theorem emitBlock_faults (comp : Nat) (cls : Cls) (s : State) : Faults [.sinkError] s (emitBlock comp cls s) :=
  (emitDc_jbpEnds _ _ s).faults.andThen fun t =>
    (scanAc_jbpEnds _ (acValues s.mem) 0 t).faults.andThen fun _ => faults_done rfl

/-! Procedures that write no byte: none raises a fault. -/

/-- The clear code of a new stream fills at most one byte of the packet buffer, so LZW.START asks the sink nothing
(41_lzw.md R153). -/
theorem openStream_ends {b : Nat} {s : State} (hs : Healthy s) (hidle : s.lzw.active = false) (hb : 3 ≤ b)
    (hb' : b ≤ 9) : ∃ t, openStream b s = .done t ∧ t.fault = s.fault ∧ t.out = s.out ∧ t.sink = s.sink := by
  obtain ⟨t, hexec, -, -, -, -, -, -, -, hframe⟩ := lzwStartOpensStream b s hidle hb hb'
  have hfault : t.fault = s.fault := by rw [hframe]; rfl
  obtain ⟨-, -, hdone⟩ := lzwStart_eq_done hexec ((congrArg FaultRegs.faulted hfault).trans hs)
  exact ⟨t, hdone, hfault, by rw [hframe]; rfl, by rw [hframe]; rfl⟩

theorem loadSample_faults (idx : Nat) (val : Byte) (s : State) : Faults [] s (loadSample idx val s) := by
  unfold loadSample
  split
  · trivial
  · exact faults_done rfl

theorem loadCoeff_faults (idx : Nat) (val : BitVec 16) (s : State) : Faults [] s (loadCoeff idx val s) := by
  unfold loadCoeff
  split
  · trivial
  · exact faults_done rfl

theorem buildHuff_faults (s : State) : Faults [] s (buildHuff s) := by
  obtain ⟨t, hdone⟩ := buildHuff_ends s
  obtain ⟨m, -, -, rfl⟩ := buildHuff_eq_done hdone
  rw [hdone]
  exact faults_done rfl

/-! The commands. -/

/-- What each command can raise is its row of R302. -/
theorem exec_faults (i : Instr) : ∃ k, RunsAs i k ∧ ∀ s, Healthy s → Faults (mayRaise i) s (k s) := by
  cases i with
  | ctlReset => exact ⟨fun s => .done (resetElements s), fun _ => rfl, fun _ _ _ => rfl⟩
  | bpWrite code n =>
    exact ⟨_, fun _ => rfl, fun s _ =>
      faults_require fun _ => faults_require fun _ => (bpWrite_packEnds code.toNat n s).faults⟩
  | bpFlush => exact ⟨_, fun _ => rfl, fun s _ => faults_require fun _ => (bpFlush_packEnds s).faults⟩
  | pkWrite byte => exact ⟨_, fun _ => rfl, fun s _ => faults_require fun _ => (pkWrite_packEnds byte s).faults⟩
  | pkFlush => exact ⟨_, fun _ => rfl, fun s _ => faults_require fun _ => (pkFlush_packEnds s).faults⟩
  | lzwStart b =>
    refine ⟨_, fun _ => rfl, fun s hs => faults_require fun hidle => faults_require fun hb => ?_⟩
    obtain ⟨hb3, hb9⟩ := of_decide_eq_true hb
    obtain ⟨t, hdone, hfault, -⟩ := openStream_ends hs (by simpa using hidle) hb3 hb9
    rw [hdone]
    exact faults_done hfault
  | lzwSym byte =>
    exact ⟨_, fun _ => rfl, fun s _ => faults_require fun _ => faults_require fun _ => takeSymbol_faults byte s⟩
  | lzwEnd =>
    exact ⟨_, fun _ => rfl, fun s _ => faults_require fun _ => faults_require fun _ => closeStream_faults s⟩
  | qtBuild q => exact ⟨_, fun _ => rfl, fun s _ => faults_require fun _ => faults_done rfl⟩
  | dctFwd => exact ⟨_, fun _ => rfl, fun s _ => faults_require fun _ => faults_withValues (faults_done rfl)⟩
  | dctQuant cls =>
    refine ⟨_, fun _ => rfl, fun s _ => ?_⟩
    rw [require_require]
    exact faults_require fun _ => faults_withValues (faults_done rfl)
  | hufBuild => exact ⟨buildHuff, fun _ => rfl, fun s _ => buildHuff_faults s⟩
  | hufStart =>
    exact ⟨fun s => .done ((s.withHuf { s.huf with pred0 := 0, pred1 := 0, pred2 := 0 }).withJbp
      { acc := 0, cnt := 0 }), fun _ => rfl, fun s _ => faults_done rfl⟩
  | hufBlock comp cls =>
    refine ⟨_, fun _ => rfl, fun s _ => faults_require fun _ => ?_⟩
    rw [require_require]
    exact faults_require fun _ => faults_withValues (faults_require fun _ => emitBlock_faults comp cls s)
  | jbpWrite code n =>
    exact ⟨_, fun _ => rfl, fun s _ => faults_require fun _ => (jbpWrite_jbpEnds code.toNat n s).faults⟩
  | jbpFlush => exact ⟨_, fun _ => rfl, fun s _ => (jbpFlush_jbpEnds s).faults⟩
  | bufLds idx val => exact ⟨_, fun _ => rfl, fun s _ => loadSample_faults idx val s⟩
  | bufLdq idx val => exact ⟨_, fun _ => rfl, fun s _ => loadCoeff_faults idx val s⟩

/-- A command that faults takes a fault of its row of R302, from its first state unless the sink refused a byte. -/
theorem exec_trapped {i : Instr} {s t : State} (hs : Healthy s) (h : exec i s = .next t)
    (ht : t.fault.faulted = true) :
    ∃ c ∈ mayRaise i, ∃ u, t = trapEntry c (encode i) u ∧ (c ≠ .sinkError → u = s) := by
  obtain ⟨k, hk, hfaults⟩ := exec_faults i
  have hends := hfaults s hs
  rw [hk] at h
  rcases conclude_eq_next h with hr | ⟨c, u, hr, rfl⟩
  · have hhealthy : Healthy t := Res.Ends.done hends hr hs
    exact absurd (hhealthy.symm.trans ht) Bool.false_ne_true
  · rw [hr] at hends
    exact ⟨c, hends.1, u, rfl, hends.2⟩

/-- Settles O12: trap entry records the cause and the command's own word. -/
theorem faultsOfEachCommand : Obligations.FaultsOfEachCommand := by
  intro i s t hs h ht
  obtain ⟨c, hc, u, rfl, -⟩ := exec_trapped hs h ht
  exact ⟨c, hc, rfl⟩

/-! The commands that never ask the sink (R303). -/

/-- SINK_ERROR is in no row of a command that never calls `SinkWrite`. -/
theorem sinkError_notMem_mayRaise {i : Instr} (hi : sinkFree i = true) : Cause.sinkError ∉ mayRaise i := by
  revert hi
  cases i <;> simp [sinkFree, mayRaise]

/-- A command that never calls `SinkWrite` and completes changes registers and spaces alone. -/
theorem sinkFree_completes {i : Instr} (hi : sinkFree i = true) {s t : State} (hs : Healthy s)
    (h : exec i s = .next t) (ht : Healthy t) : t.out = s.out ∧ t.sink = s.sink := by
  cases i with
  | ctlReset => cases h; exact ⟨rfl, rfl⟩
  | lzwStart b =>
    obtain ⟨hidle, ⟨hb, hb'⟩, hdone⟩ := lzwStart_eq_done h ht
    obtain ⟨u, hu, -, hkept⟩ := openStream_ends hs hidle hb hb'
    cases hdone.symm.trans hu
    exact hkept
  | qtBuild q =>
    obtain ⟨-, hq, hdone⟩ := qtBuild_eq_done h ht
    obtain ⟨-, -, hframe⟩ := buildQuant_eq_done hq hdone
    rw [hframe]
    exact ⟨rfl, rfl⟩
  | dctFwd =>
    obtain ⟨-, hdone⟩ := require_eq_done (RunsAs.eq_done (i := .dctFwd) (fun _ => rfl) h ht)
    rw [fwdDct_eq_done hdone]
    exact ⟨rfl, rfl⟩
  | dctQuant cls =>
    obtain ⟨-, hrest⟩ := require_eq_done (RunsAs.eq_done (i := .dctQuant cls) (fun _ => rfl) h ht)
    obtain ⟨-, hdone⟩ := require_eq_done hrest
    rw [quantise_eq_done hdone]
    exact ⟨rfl, rfl⟩
  | hufBuild =>
    obtain ⟨m, -, -, rfl⟩ := buildHuff_eq_done (RunsAs.eq_done (i := .hufBuild) (fun _ => rfl) h ht)
    exact ⟨rfl, rfl⟩
  | hufStart => cases h; exact ⟨rfl, rfl⟩
  | bufLds idx val =>
    obtain ⟨-, rfl⟩ := loadSample_eq_done (RunsAs.eq_done (i := .bufLds idx val) (fun _ => rfl) h ht)
    exact ⟨rfl, rfl⟩
  | bufLdq idx val =>
    obtain ⟨-, rfl⟩ := loadCoeff_eq_done (RunsAs.eq_done (i := .bufLdq idx val) (fun _ => rfl) h ht)
    exact ⟨rfl, rfl⟩
  | _ => cases hi

/-- Only the cause SINK_ERROR has code 1 (R301). -/
theorem toCode_eq_one_iff {c : Cause} : c.toCode = 1 ↔ c = .sinkError := by cases c <;> decide

/-- Settles O18: a command that completes changes no byte, and a fault that is not SINK_ERROR is taken from the
command's first state. -/
theorem quietCommandsKeepOut : Obligations.QuietCommandsKeepOut := by
  intro i s t hi hs h
  by_cases ht : Healthy t
  · obtain ⟨hout, hsink⟩ := sinkFree_completes hi hs h ht
    exact ⟨hout, hsink, fun hfaulted => absurd (ht.symm.trans hfaulted) Bool.false_ne_true⟩
  · obtain ⟨c, hc, u, rfl, hu⟩ := exec_trapped hs h (by simpa [Healthy] using ht)
    have hne : c ≠ .sinkError := fun hsink => sinkError_notMem_mayRaise hi (hsink ▸ hc)
    obtain rfl := hu hne
    exact ⟨rfl, rfl, fun _ hcode => hne (toCode_eq_one_iff.mp hcode)⟩

end Sys2Proof.Machine
end

section
/-! PROOFS. The reset pin (70_reset_and_hazards.md R340, R342): what each of its three ways leaves, and which way a step
takes. -/

namespace Sys2Proof.Machine

/-! What the pin leaves (R342). -/

/-- The reset pin leaves the values of the reset table, whatever it found. -/
theorem resetTable_hardReset (s : State) : ResetTable (hardReset s) := resetTable_resetElements s []

/-- With the byte that is not taken its answer goes: the host's words and the sink's later answers stay. -/
theorem withdrawOffer_restores {s : State} {k : Nat} {sinkRest : List SinkReply}
    (hsink : s.sink = List.replicate k .accept ++ .never :: sinkRest) :
    ResetTable (withdrawOffer s) ∧ (withdrawOffer s).out = [] ∧ (withdrawOffer s).events = s.events ∧
      (withdrawOffer s).sink = sinkRest := by
  refine ⟨resetTable_hardReset _, withdrawOffer_out s, withdrawOffer_events s, ?_⟩
  rw [withdrawOffer_sink, hsink, repliesAfterOffer_accepted]

/-! Which way a step takes (R340). -/

/-- Between commands the pin alone is taken from the host's events. -/
theorem step_of_resetPin {s : State} {rest : List HostEvent} (he : s.events = .resetPin :: rest) :
    step s = .next (hardReset (s.withEvents rest)) := by
  simp only [step, runEvent, he]

/-- A command word that comes with the pin is taken, and its command abandoned. -/
theorem step_of_resetDuring {s : State} {w : Word} {rest : List HostEvent} (he : s.events = .resetDuring w :: rest) :
    step s = takeAbandoned w (s.withEvents rest) := by
  simp only [step, runEvent, he]

/-- A command that waits for the sink when the pin abandons it loses the byte on offer. -/
theorem takeAbandoned_of_wait {w : Word} {s : State} (hr : runCommand w s = .fault .sinkNeverReady) :
    takeAbandoned w s = .next (withdrawOffer s) := by
  rw [takeAbandoned, hr]

/-- A command that waits for the sink is ended by the next pulse of the pin, wherever it stands among the words that the
host holds (R79). -/
theorem takeCommand_of_wait {w : Word} {s : State} (hr : runCommand w s = .fault .sinkNeverReady)
    (hpin : HostEvent.resetPin ∈ s.events) :
    takeCommand w s = .next (withdrawOffer (s.withEvents (s.events.erase .resetPin))) := by
  rw [takeCommand, hr]
  exact if_pos hpin

/-- Settles O8: each way of the pin ends in `hardReset`; a command that is abandoned has taken none of the host's
events (`runCommand_surround`). -/
theorem resetPinRestores : Obligations.ResetPinRestores := by
  refine fun s rest => ⟨fun he => ?between, fun w t he h => ?during, fun w i k sinkRest hw hs hsink hwaits => ?waiting⟩
  case between => exact ⟨_, step_of_resetPin he, resetTable_hardReset _, rfl, rfl, rfl⟩
  case during =>
    rw [step_of_resetDuring he] at h
    rcases takeAbandoned_cases h with ⟨u, hr, rfl⟩ | ⟨-, rfl⟩
    · have hevents : u.events = rest := (runCommand_surround hr).1
      exact ⟨resetTable_hardReset u, rfl, hevents⟩
    · exact ⟨resetTable_hardReset _, rfl, rfl⟩
  case waiting =>
    have hrun : runCommand w (s.withEvents rest) = .fault .sinkNeverReady :=
      (runCommand_of_decoded (s := s.withEvents rest) hw (.inl hs)).trans hwaits
    refine ⟨fun he => ⟨_, ?_, withdrawOffer_restores (s := s.withEvents rest) hsink⟩,
      fun he hpin => ⟨_, ?_, withdrawOffer_restores (s := s.withEvents (rest.erase .resetPin)) hsink⟩,
      fun he hpin => ?_⟩
    · rw [step_of_resetDuring he, takeAbandoned_of_wait hrun]
    · rw [step_of_command he]
      exact takeCommand_of_wait hrun hpin
    · rw [step_of_decoded he hw (.inl hs) (.inr hpin), hwaits]

end Sys2Proof.Machine
end
